-- ==== Sys2Proof/Word.lean ====
section
/-! DEFINITION. The word types of the block: every register, address and datapath value is a u32
(00_scope.md R6), a byte is 8 bits (20_memory.md R30), a register field is 5 bits (30_encoding.md R52). -/

namespace Sys2Proof

/-- A u32 (00_scope.md R6): a register, an address, an instruction word. -/
abbrev Word := BitVec 32

/-- One byte of the flat memory (20_memory.md R30). -/
abbrev Byte := BitVec 8

/-- A register field rd, rs1 or rs2: an index 0 to 31 (30_encoding.md R52). -/
abbrev RegIdx := BitVec 5

end Sys2Proof
end

