-- ==== Sys2Proof/Machine/Primitives.lean ====
section
/-! DEFINITION. The bit-field extractor and the sign-extension path (40_primitives.md sections 1 and 2):
pure functions, each with the domain the spec gives it as an argument, so that no call outside it can be
written (R81; 93_implementation_defined.md U7, U8; assumption log 24). -/

namespace Sys2Proof.Machine

/-- `extract(w, hi, lo)`: the bits hi down to lo, shifted to position 0 (40_primitives.md R80). -/
def extract (w : Word) (hi lo : Nat) (_domain : lo ≤ hi ∧ hi ≤ 31 := by decide) :
    BitVec (hi - lo + 1) :=
  w.extractLsb hi lo

/-- `sign_extend(v, L)` as an integer (40_primitives.md R82). -/
def signExtend {n : Nat} (v : BitVec n) (_domain : 1 ≤ n ∧ n ≤ 32 := by decide) : Int :=
  if v.msb then (v.toNat : Int) - 2 ^ n else v.toNat

/-- `sext_N(v)`, the word the datapath carries: `sign_extend(v, N) mod 2^32` (40_primitives.md R83). -/
def sext {n : Nat} (v : BitVec n) (domain : 1 ≤ n ∧ n ≤ 32 := by decide) : Word :=
  BitVec.ofInt 32 (signExtend v domain)

/-- `zext_N(v)`: the field as a u32, upper bits zero (00_scope.md R6). -/
def zext {n : Nat} (v : BitVec n) (_domain : n ≤ 32 := by decide) : Word :=
  BitVec.ofNat 32 v.toNat

/-- `signed(v)`: the two's-complement reading of a u32 (00_scope.md R6), which is `sign_extend(v, 32)`. -/
def signed (v : Word) : Int :=
  signExtend v

/-- The four bytes of a word, least significant first (20_memory.md R35). -/
def leBytes (w : Word) : List Byte :=
  [extract w 7 0, extract w 15 8, extract w 23 16, extract w 31 24]

/-- The unsigned integer a little-endian byte string stands for (20_memory.md R34). -/
def leValue : List Byte → Nat
  | [] => 0
  | b :: bs => b.toNat + 256 * leValue bs

end Sys2Proof.Machine
end

