-- ==== Sys2Proof/Machine/Encoding.lean ====
section
/-! DEFINITION. The encoding tables of 30_encoding.md: opcode classes and their numbers (R51), formats and
classifiers (R51), the fields of each format (R52 to R59), the decoded-instruction record (R60), and the
six formats read the other way, from fields to a word. The numbers other than IMM's are the standard RV32I
ones the spec supplies from general knowledge (R51, R61 to R64; assumption log 6). -/

namespace Sys2Proof.Machine

/-- The eleven opcode classes (30_encoding.md R51). -/
inductive OpClass where
  | lui | auipc | jal | jalr | branch | load | store | imm | op | misc | system
  deriving DecidableEq, Repr

/-- The instruction formats (30_encoding.md R51). SYSTEM has the I layout with an unsigned CSR field (R59);
no format is used for MISC. -/
inductive Format where
  | r | i | s | b | u | j
  deriving DecidableEq, Repr

/-- The value of word[6:0] for a class (30_encoding.md R51). UNVERIFIED but for IMM: the spec supplies them from
general knowledge (log 6). -/
def OpClass.opcode : OpClass → BitVec 7
  | .lui => 0b0110111#7
  | .auipc => 0b0010111#7
  | .jal => 0b1101111#7
  | .jalr => 0b1100111#7
  | .branch => 0b1100011#7
  | .load => 0b0000011#7
  | .store => 0b0100011#7
  | .imm => 0b0010011#7
  | .op => 0b0110011#7
  | .misc => 0b0001111#7
  | .system => 0b1110011#7

/-- The decoder's map from the opcode field to a class, or none (30_encoding.md R51, 41_engine.md R103). -/
def classify (opcode : BitVec 7) : Option OpClass :=
  if opcode = OpClass.lui.opcode then some .lui
  else if opcode = OpClass.auipc.opcode then some .auipc
  else if opcode = OpClass.jal.opcode then some .jal
  else if opcode = OpClass.jalr.opcode then some .jalr
  else if opcode = OpClass.branch.opcode then some .branch
  else if opcode = OpClass.load.opcode then some .load
  else if opcode = OpClass.store.opcode then some .store
  else if opcode = OpClass.imm.opcode then some .imm
  else if opcode = OpClass.op.opcode then some .op
  else if opcode = OpClass.misc.opcode then some .misc
  else if opcode = OpClass.system.opcode then some .system
  else none

/-- The format of a class; none for MISC (30_encoding.md R51). -/
def OpClass.format : OpClass → Option Format
  | .lui => some .u
  | .auipc => some .u
  | .jal => some .j
  | .jalr => some .i
  | .branch => some .b
  | .load => some .i
  | .store => some .s
  | .imm => some .i
  | .op => some .r
  | .misc => none
  | .system => some .i

/-! The fields, at the same bits in every format that has them (30_encoding.md R52). -/

/-- word[6:0] -/
def opcodeOf (w : Word) : BitVec 7 := extract w 6 0
/-- rd = word[11:7] -/
def rdOf (w : Word) : RegIdx := extract w 11 7
/-- funct3 = word[14:12] -/
def funct3Of (w : Word) : BitVec 3 := extract w 14 12
/-- rs1 = word[19:15], the uimm field of the immediate CSR instructions too (R59) -/
def rs1Of (w : Word) : RegIdx := extract w 19 15
/-- rs2 = word[24:20] -/
def rs2Of (w : Word) : RegIdx := extract w 24 20
/-- funct7 = word[31:25] -/
def funct7Of (w : Word) : BitVec 7 := extract w 31 25
/-- The I-type immediate field word[31:20] (R54), which in class SYSTEM is the unsigned CSR address (R59). -/
def immIOf (w : Word) : BitVec 12 := extract w 31 20
/-- The S-type immediate field `(word[31:25] << 5) | word[11:7]` (R55). -/
def immSOf (w : Word) : BitVec 12 :=
  (funct7Of w).setWidth 12 <<< 5 ||| (rdOf w).setWidth 12
/-- The B-type immediate field `(word[31] << 12) | (word[7] << 11) | (word[30:25] << 5) | (word[11:8] << 1)`,
bit 0 zero (R56). -/
def immBOf (w : Word) : BitVec 13 :=
  (extract w 31 31).setWidth 13 <<< 12 ||| (extract w 7 7).setWidth 13 <<< 11 |||
    (extract w 30 25).setWidth 13 <<< 5 ||| (extract w 11 8).setWidth 13 <<< 1
/-- The U-type field word[31:12], raw (R57). -/
def immUOf (w : Word) : BitVec 20 := extract w 31 12
/-- The J-type immediate field
`(word[31] << 20) | (word[19:12] << 12) | (word[20] << 11) | (word[30:21] << 1)`, bit 0 zero (R58). -/
def immJOf (w : Word) : BitVec 21 :=
  (extract w 31 31).setWidth 21 <<< 20 ||| (extract w 19 12).setWidth 21 <<< 12 |||
    (extract w 20 20).setWidth 21 <<< 11 ||| (extract w 30 21).setWidth 21 <<< 1

/-- The format classifier of a word (30_encoding.md R51): none for MISC and for an unenumerated opcode. -/
def formatOf (w : Word) : Option Format :=
  (classify (opcodeOf w)).bind OpClass.format

/-- `isR` (30_encoding.md R51) -/
def isR (w : Word) : Bool := opcodeOf w == OpClass.op.opcode
/-- `isI`, SYSTEM included for its field layout (30_encoding.md R51) -/
def isI (w : Word) : Bool :=
  opcodeOf w == OpClass.imm.opcode || opcodeOf w == OpClass.jalr.opcode ||
    opcodeOf w == OpClass.load.opcode || opcodeOf w == OpClass.system.opcode
/-- `isS` (30_encoding.md R51) -/
def isS (w : Word) : Bool := opcodeOf w == OpClass.store.opcode
/-- `isB` (30_encoding.md R51) -/
def isB (w : Word) : Bool := opcodeOf w == OpClass.branch.opcode
/-- `isU` (30_encoding.md R51) -/
def isU (w : Word) : Bool := opcodeOf w == OpClass.lui.opcode || opcodeOf w == OpClass.auipc.opcode
/-- `isJ` (30_encoding.md R51) -/
def isJ (w : Word) : Bool := opcodeOf w == OpClass.jal.opcode

/-- The decoded instruction as the decoder hands it to execute (30_encoding.md R60): a field a format
lacks is none. The immediate is the sign-extended word; for U it is the raw field, whose shift is made per
class (R57, 90_conflicts.md C1); for the SYSTEM layout it is the unsigned CSR field (R59). -/
structure Decoded where
  opClass : OpClass
  format : Option Format
  rd : Option RegIdx
  rs1 : Option RegIdx
  rs2 : Option RegIdx
  funct3 : Option (BitVec 3)
  funct7 : Option (BitVec 7)
  imm : Option Word
  deriving DecidableEq, Repr

/-- The fields of a word of a class (30_encoding.md R52 to R60). -/
def fieldsOf (c : OpClass) (w : Word) : Decoded :=
  match c with
  | .lui => ⟨c, c.format, some (rdOf w), none, none, none, none, some (zext (immUOf w))⟩
  | .auipc => ⟨c, c.format, some (rdOf w), none, none, none, none, some (zext (immUOf w))⟩
  | .jal => ⟨c, c.format, some (rdOf w), none, none, none, none, some (sext (immJOf w))⟩
  | .jalr => ⟨c, c.format, some (rdOf w), some (rs1Of w), none, some (funct3Of w), none, some (sext (immIOf w))⟩
  | .branch => ⟨c, c.format, none, some (rs1Of w), some (rs2Of w), some (funct3Of w), none, some (sext (immBOf w))⟩
  | .load => ⟨c, c.format, some (rdOf w), some (rs1Of w), none, some (funct3Of w), none, some (sext (immIOf w))⟩
  | .store => ⟨c, c.format, none, some (rs1Of w), some (rs2Of w), some (funct3Of w), none, some (sext (immSOf w))⟩
  | .imm => ⟨c, c.format, some (rdOf w), some (rs1Of w), none, some (funct3Of w), none, some (sext (immIOf w))⟩
  | .op => ⟨c, c.format, some (rdOf w), some (rs1Of w), some (rs2Of w), some (funct3Of w), some (funct7Of w), none⟩
  | .misc => ⟨c, c.format, none, none, none, none, none, none⟩
  | .system => ⟨c, c.format, some (rdOf w), some (rs1Of w), none, some (funct3Of w), none, some (zext (immIOf w))⟩

/-- The decoded record of a word, none for an unenumerated opcode (30_encoding.md R60, 41_engine.md R103). -/
def fields (w : Word) : Option Decoded :=
  (classify (opcodeOf w)).map (fun c => fieldsOf c w)

/-! The formats from fields to a word (30_encoding.md R53 to R59). -/

/-- A field put at bit `at_` of a word. -/
def place {n : Nat} (field : BitVec n) (at_ : Nat) : Word := field.setWidth 32 <<< at_

/-- The immediate of the SRAI encoding, 0x400 | shamt = 1024 + shamt (43_alu_immediate.md R139). -/
def sraiImm (shamt : BitVec 5) : BitVec 12 := 0x400#12 ||| shamt.setWidth 12

/-- R-type (R53). -/
def encR (funct7 : BitVec 7) (rs2 rs1 : RegIdx) (funct3 : BitVec 3) (rd : RegIdx) (c : OpClass) : Word :=
  place funct7 25 ||| place rs2 20 ||| place rs1 15 ||| place funct3 12 ||| place rd 7 ||| place c.opcode 0
/-- I-type (R54), and the SYSTEM layout (R59). -/
def encI (imm : BitVec 12) (rs1 : RegIdx) (funct3 : BitVec 3) (rd : RegIdx) (c : OpClass) : Word :=
  place imm 20 ||| place rs1 15 ||| place funct3 12 ||| place rd 7 ||| place c.opcode 0
/-- S-type (R55). -/
def encS (imm : BitVec 12) (rs2 rs1 : RegIdx) (funct3 : BitVec 3) (c : OpClass) : Word :=
  place (imm.extractLsb' 5 7) 25 ||| place rs2 20 ||| place rs1 15 ||| place funct3 12 |||
    place (imm.extractLsb' 0 5) 7 ||| place c.opcode 0
/-- B-type (R56); bit 0 of the immediate has no place in the word. -/
def encB (imm : BitVec 13) (rs2 rs1 : RegIdx) (funct3 : BitVec 3) (c : OpClass) : Word :=
  place (imm.extractLsb' 12 1) 31 ||| place (imm.extractLsb' 5 6) 25 ||| place rs2 20 ||| place rs1 15 |||
    place funct3 12 ||| place (imm.extractLsb' 1 4) 8 ||| place (imm.extractLsb' 11 1) 7 ||| place c.opcode 0
/-- U-type (R57). -/
def encU (imm20 : BitVec 20) (rd : RegIdx) (c : OpClass) : Word :=
  place imm20 12 ||| place rd 7 ||| place c.opcode 0
/-- J-type (R58); bit 0 of the immediate has no place in the word. -/
def encJ (imm : BitVec 21) (rd : RegIdx) (c : OpClass) : Word :=
  place (imm.extractLsb' 20 1) 31 ||| place (imm.extractLsb' 1 10) 21 ||| place (imm.extractLsb' 11 1) 20 |||
    place (imm.extractLsb' 12 8) 12 ||| place rd 7 ||| place c.opcode 0

end Sys2Proof.Machine
end

