-- ==== Sys2Proof/Machine/Flags.lean ====
section
/-! DEFINITION. The block has no flags and no condition codes (10_state.md R17): comparisons write 0 or 1 to a
general register, branches compare two registers directly. This file holds those comparisons. -/

namespace Sys2Proof.Machine

/-- `signed(x) < signed(y)` (40_primitives.md R88, 45_control_transfer.md R175). -/
def signedLess (x y : Word) : Bool := decide (signed x < signed y)

/-- `x < y` as unsigned integers (40_primitives.md R89, 45_control_transfer.md R177). -/
def unsignedLess (x y : Word) : Bool := decide (x.toNat < y.toNat)

/-- The word a comparison writes: 1 or 0 (10_state.md R17). -/
def truthWord (b : Bool) : Word := if b then 1#32 else 0#32

/-- BEQ (45_control_transfer.md R173). -/
def condEq (a b : Word) : Bool := a == b
/-- BNE (45_control_transfer.md R174). -/
def condNe (a b : Word) : Bool := a != b
/-- BLT (45_control_transfer.md R175). -/
def condLt (a b : Word) : Bool := signedLess a b
/-- BGE, the negation of BLT (45_control_transfer.md R176). -/
def condGe (a b : Word) : Bool := !signedLess a b
/-- BLTU (45_control_transfer.md R177). -/
def condLtu (a b : Word) : Bool := unsignedLess a b
/-- BGEU, the negation of BLTU (45_control_transfer.md R178). -/
def condGeu (a b : Word) : Bool := !unsignedLess a b

end Sys2Proof.Machine
end

