-- ==== Sys2Proof/Machine/Evaluator.lean ====
section
/-! DEFINITION. The arithmetic and comparison evaluator (40_primitives.md section 3): a total function of
one of eight operations and two words (R85, R94). SUB is not part of it (44_alu_register.md R152). -/

namespace Sys2Proof.Machine

/-- The eight operations (40_primitives.md R85). -/
inductive AluOp where
  | add | sll | slt | sltu | xor | srl | or | and
  deriving DecidableEq, Repr

/-- The operation a funct3 value selects (40_primitives.md R85, 30_encoding.md R61). -/
def AluOp.ofFunct3 (f : BitVec 3) : AluOp :=
  if f = 0b000#3 then .add
  else if f = 0b001#3 then .sll
  else if f = 0b010#3 then .slt
  else if f = 0b011#3 then .sltu
  else if f = 0b100#3 then .xor
  else if f = 0b101#3 then .srl
  else if f = 0b110#3 then .or
  else .and

/-- SLL: the amount is the whole second operand; 32 or more gives 0 (40_primitives.md R87; log 8). -/
def shiftLeft (x y : Word) : Word := if y.toNat < 32 then x <<< y.toNat else 0#32

/-- SRL, logical: the amount is the whole second operand; 32 or more gives 0 (40_primitives.md R91; log 8, log 9). -/
def shiftRight (x y : Word) : Word := if y.toNat < 32 then x >>> y.toNat else 0#32

/-- `arith(op, x, y)` (40_primitives.md R85 to R93). -/
def arith (op : AluOp) (x y : Word) : Word :=
  match op with
  | .add => x + y
  | .sll => shiftLeft x y
  | .slt => truthWord (signedLess x y)
  | .sltu => truthWord (unsignedLess x y)
  | .xor => x ^^^ y
  | .srl => shiftRight x y
  | .or => x ||| y
  | .and => x &&& y

end Sys2Proof.Machine
end

