-- ==== Sys2Proof/Config.lean ====
section
/-! DEFINITION. The implementation parameters of the block (00_scope.md R5): the ones the spec marks
`parameter` are the fields of Config, with the reference values as defaults; the others are constants. -/

namespace Sys2Proof

/-- What AUIPC adds to the pc (00_scope.md R5, 42_upper_immediate.md R121 and R122). -/
inductive AuipcMode where
  /-- the raw 20-bit field, the default (R121) -/
  | raw
  /-- the field shifted left by 12 (R122) -/
  | shifted
  deriving DecidableEq, Repr

/-- Whether LOAD and STORE access memory (00_scope.md R5, 46_load_store.md). -/
inductive LoadStoreMode where
  /-- the address is computed and reported, nothing else: the default (R190, R191) -/
  | observe
  /-- the access is made (R204 to R213) -/
  | perform
  deriving DecidableEq, Repr

/-- The parameters a model takes as arguments of its configuration (00_scope.md R5). -/
structure Config where
  /-- MEM_BASE, the first address of the flat memory -/
  memBase : Nat
  /-- MEM_SIZE, its size in bytes -/
  memSize : Nat
  /-- ENTRY_PC, what the loader puts in the pc before the first step -/
  entryPc : Word
  /-- ECALL_REG, the register ECALL inspects -/
  ecallReg : RegIdx
  /-- AUIPC_MODE -/
  auipcMode : AuipcMode
  /-- LOADSTORE_MODE -/
  loadStoreMode : LoadStoreMode
  deriving DecidableEq, Repr

/-- The reference configuration: every parameter at the default of 00_scope.md R5. -/
def Config.reference : Config where
  memBase := 0x80000000
  memSize := 65536
  entryPc := 0x80000000#32
  ecallReg := 3#5
  auipcMode := .raw
  loadStoreMode := .observe

/-- The constraints 00_scope.md R5 puts on the parameters: every mapped byte has a 32-bit address,
and one instruction fits. -/
abbrev Config.WellFormed (c : Config) : Prop :=
  c.memBase + c.memSize ≤ 2 ^ 32 ∧ 4 ≤ c.memSize

end Sys2Proof
end

