-- ==== Sys2Proof/Machine/State.lean ====
section
/-! DEFINITION. The state of the block, all of it plain data (10_state.md): the register file, the flat
memory, the run state; beside them the parameters the block is built with (assumption log 1) and the
trace, an output (log 3). And how a step can fail to answer a next state. -/

namespace Sys2Proof.Machine

/-- The flat memory as the bytes that differ from 0x00: addresses strictly rising, no byte 0x00 listed
(20_memory.md R30; every byte is 0x00 after RESET, 10_state.md R22). -/
abbrev Memory := List Host.Cell

/-- The three kinds of fatal condition with the one value each carries (60_exceptions.md R240). A fatal
condition ends the run: it is recorded in the run state (R241, 10_state.md R20). -/
inductive Fatal where
  /-- a fetch or a data access outside the mapped region: the address -/
  | outOfBounds (addr : Word)
  /-- a word outside the implemented set: the word -/
  | unsupportedEncoding (word : Word)
  /-- an ECALL with a code above 1: the code -/
  | conformanceFailure (code : Word)
  deriving DecidableEq, Repr

/-- The run state (10_state.md R20). -/
inductive RunState where
  | running
  | halted
  | faulted (kind : Fatal)
  deriving DecidableEq, Repr

/-- A trace event (60_exceptions.md R252): an output no rule reads back. -/
inductive TraceEvent where
  /-- an executed load: its effective address -/
  | load (ea : Word)
  /-- an executed store: its effective address and the whole of x[rs2] -/
  | store (ea value : Word)
  /-- an executed ECALL: its code -/
  | ecall (code : Word)
  deriving DecidableEq, Repr

/-- The state of the block. -/
structure State where
  /-- The parameters of 00_scope.md R5; no step changes them. -/
  cfg : Config
  /-- The register file: entries 0 to 31 are x0 to x31, entry 32 is the pc (10_state.md R10). -/
  regs : Vector Word 33
  /-- The flat memory (20_memory.md R30). -/
  mem : Memory
  /-- The run state (10_state.md R20). -/
  run : RunState
  /-- The model's own field: the trace events emitted so far, oldest first (60_exceptions.md R252). -/
  trace : List TraceEvent
  deriving DecidableEq, Repr

/-- Why the machine has no next state. Both are raised by `step` alone, never by an instruction: HALTED and
FAULTED are terminal (10_state.md R20, 70_reset_and_hazards.md R280; the spec's treatment is `stuck`,
93_implementation_defined.md U10). Safe: nothing is claimed of a step the spec does not define. -/
inductive Fault where
  /-- a step was asked after HALT; raised by `step`; safe -/
  | stuckHalted
  /-- a step was asked after a fatal condition; raised by `step`; safe -/
  | stuckFaulted (kind : Fatal)
  deriving DecidableEq, Repr

/-- Why an instruction has no meaning. -/
inductive Refusal where
  /-- raised by an arm of `exec` for an instruction not modelled yet; safe; no arm does -/
  | notModelled (mnemonic : String)
  deriving DecidableEq, Repr

/-- What a step answers. -/
abbrev Answer (σ : Type) := Host.Outcome σ Fault Refusal

/-- RESET of a block with the given parameters (70_reset_and_hazards.md R270): all 33 entries of the register
file and every memory byte zero, the run state RUNNING. The trace starts empty (log 3). -/
def State.resetWith (c : Config) : State where
  cfg := c
  regs := Vector.replicate 33 0#32
  mem := []
  run := .running
  trace := []

/-- RESET of the reference configuration (70_reset_and_hazards.md R270, 00_scope.md R5). The pc is 0 until the
loader sets it (R271, R273; log 5). -/
def State.reset : State := State.resetWith Config.reference

end Sys2Proof.Machine
end

