-- ==== Sys2Proof/Machine/Ops.lean ====
section
/-! DEFINITION. The named operations over memory and registers: bytes of the flat memory, the range check,
reads and writes (20_memory.md), the register file and the pc (10_state.md), the advance, the trace, and
the two ways a run ends: a fatal condition and HALT (41_engine.md R106 to R109). -/

namespace Sys2Proof.Machine

/-! ## The flat memory -/

/-- What an address no entry lists reads as: memory is zero-filled at run start (10_state.md R22, 20_memory.md R30). -/
def Memory.unlisted : Byte := 0x00#8

/-- The byte stored at an address. -/
def Memory.read : Memory → Nat → Byte
  | [], _ => Memory.unlisted
  | (k, b) :: rest, a => if k = a then b else Memory.read rest a

/-- An entry in front of a memory, unless it says what an unlisted address reads as anyway. -/
def Memory.cons (a : Nat) (b : Byte) (m : Memory) : Memory :=
  if b = Memory.unlisted then m else (a, b) :: m

/-- Store one byte, keeping the canonical form. -/
def Memory.write : Memory → Nat → Byte → Memory
  | [], a, b => Memory.cons a b []
  | (k, c) :: rest, a, b =>
    if a < k then Memory.cons a b ((k, c) :: rest)
    else if a = k then Memory.cons a b rest
    else (k, c) :: Memory.write rest a b

/-- Store a byte string at consecutive addresses, the first byte at `a` (20_memory.md R36). -/
def Memory.writeBytes : Memory → Nat → List Byte → Memory
  | m, _, [] => m
  | m, a, b :: bs => Memory.writeBytes (Memory.write m a b) (a + 1) bs

/-- The `n` bytes at `a`, lowest address first. -/
def Memory.readBytes (m : Memory) (a : Nat) : Nat → List Byte
  | 0 => []
  | n + 1 => Memory.read m a :: Memory.readBytes m (a + 1) n

/-- The addresses listed, in order. -/
def Memory.addresses (m : Memory) : List Nat := m.map Prod.fst

/-- The canonical form: addresses strictly rising, no entry equal to what an unlisted address reads as. -/
def Memory.wf (m : Memory) : Bool :=
  decide (m.Pairwise (fun c d => c.1 < d.1)) && m.all (fun c => c.2 != Memory.unlisted)

/-- `InRange(addr, n)`: the n bytes at addr lie in the mapped region, computed on integers without wrap
(20_memory.md R32). -/
abbrev InRange (c : Config) (addr : Word) (n : Nat) : Prop :=
  c.memBase ≤ addr.toNat ∧ addr.toNat + n ≤ c.memBase + c.memSize

/-- The access widths of 30_encoding.md R64. -/
inductive Width where
  | byte | half | word
  deriving DecidableEq, Repr

/-- How many bytes a width is. -/
def Width.bytes : Width → Nat
  | .byte => 1
  | .half => 2
  | .word => 4

/-- `MemRead(addr, n)`: little-endian, an unsigned integer, or OutOfBounds(addr) (20_memory.md R34). -/
def State.memRead (s : State) (addr : Word) (n : Width) : Except Fatal Nat :=
  if InRange s.cfg addr n.bytes then .ok (leValue (s.mem.readBytes addr.toNat n.bytes))
  else .error (.outOfBounds addr)

/-- `read32(address)`: the little-endian word at any address in range (20_memory.md R33, R38). -/
def State.read32 (s : State) (addr : Word) : Except Fatal Word :=
  match s.memRead addr .word with
  | .ok v => .ok (BitVec.ofNat 32 v)
  | .error f => .error f

/-- `MemWrite(addr, n, v)`: the low n bytes of v, little-endian, or OutOfBounds(addr) and no byte changes
(20_memory.md R37). -/
def State.memWrite (s : State) (addr : Word) (n : Width) (v : Word) : Except Fatal State :=
  if InRange s.cfg addr n.bytes then
    .ok { s with mem := s.mem.writeBytes addr.toNat ((leBytes v).take n.bytes) }
  else .error (.outOfBounds addr)

/-! ## The register file -/

/-- The register-file index of the program counter (10_state.md R10, 00_scope.md R5). -/
def pcIndex : Fin 33 := 32

/-- The register-file index a 5-bit register field names (10_state.md R13). -/
def regIndex (r : RegIdx) : Fin 33 := ⟨r.toNat, Nat.lt_of_lt_of_le r.isLt (by decide)⟩

/-- `get(index)`: entry 0 reads zero whatever is stored there (10_state.md R11, R13). -/
def State.getReg (s : State) (i : Fin 33) : Word :=
  if i = 0 then 0#32 else s.regs[i]

/-- Store a word in an entry; index 0 is a no-op (10_state.md R11). -/
def State.setWord (s : State) (i : Fin 33) (v : Word) : State :=
  if i = 0 then s else { s with regs := s.regs.set i v }

/-- `set(index, value)`: the integer is masked to 32 bits before it is stored (10_state.md R12, R13). -/
def State.setReg (s : State) (i : Fin 33) (value : Int) : State :=
  s.setWord i (BitVec.ofInt 32 value)

/-- `x[r]` (00_scope.md R6). -/
def State.x (s : State) (r : RegIdx) : Word := s.getReg (regIndex r)

/-- `x[r] <- v` (00_scope.md R6). -/
def State.setX (s : State) (r : RegIdx) (v : Word) : State := s.setWord (regIndex r) v

/-- The program counter (10_state.md R14). -/
def State.pc (s : State) : Word := s.getReg pcIndex

/-- `pc <- v` (00_scope.md R6). -/
def State.setPc (s : State) (v : Word) : State := s.setWord pcIndex v

/-- The default advance (41_engine.md R106). -/
def State.advance (s : State) : State := s.setPc (s.pc + 4#32)

/-! ## Outputs and the end of a run -/

/-- `emit <Event>(...)` (00_scope.md R6, 60_exceptions.md R252). -/
def State.emit (s : State) (e : TraceEvent) : State := { s with trace := s.trace ++ [e] }

/-- `raise <Kind>(info)`: the one thing every fatal condition does. No trap is entered and nothing is saved
(60_exceptions.md R245, R248): the run state becomes FAULTED(kind, info) and registers, pc and memory stay
(R241, 41_engine.md R109). There is no return (R249). -/
def State.raise (s : State) (f : Fatal) : State := { s with run := .faulted f }

/-- `halt`: the run state becomes HALTED, the pc is not advanced, nothing is written (41_engine.md R108). -/
def State.halt (s : State) : State := { s with run := .halted }

/-- Fetch: `read32` at the pc (41_engine.md R102). -/
def State.fetch (s : State) : Except Fatal Word := s.read32 s.pc

end Sys2Proof.Machine
end

