-- ==== Sys2Proof/Machine/Operands.lean ====
section
/-! DEFINITION. The operand forms and the shapes instructions share: register and immediate operands, the
effective address, the link value, a result written before the default advance, a control transfer. All
operands are read from the state before the instruction writes anything (41_engine.md R104). -/

namespace Sys2Proof.Machine

/-- The effective address `(x[rs1] + imm) mod 2^32` (46_load_store.md R192; log 14). -/
def State.effectiveAddress (s : State) (rs1 : RegIdx) (imm : BitVec 12) : Word := s.x rs1 + sext imm

/-- The link value pc + 4 (45_control_transfer.md R170, R171). -/
def State.linkValue (s : State) : Word := s.pc + 4#32

/-- Write a result to rd, then the default advance (41_engine.md R106). -/
def State.finish (s : State) (rd : RegIdx) (v : Word) : State := (s.setX rd v).advance

/-- A control transfer: the pc is set and there is no default advance (41_engine.md R107). -/
def State.transfer (s : State) (target : Word) : State := s.setPc target

/-- Class IMM: `x[rd] <- arith(op, x[rs1], sext_12(imm))` (43_alu_immediate.md R130). -/
def aluImmediate (op : AluOp) (rd rs1 : RegIdx) (imm : BitVec 12) (s : State) : Answer State :=
  .next (s.finish rd (arith op (s.x rs1) (sext imm)))

/-- Class OP but SUB: `x[rd] <- arith(op, x[rs1], x[rs2])` (44_alu_register.md R150). -/
def aluRegister (op : AluOp) (rd rs1 rs2 : RegIdx) (s : State) : Answer State :=
  .next (s.finish rd (arith op (s.x rs1) (s.x rs2)))

/-- Class BRANCH with a condition: taken, the pc moves by the immediate; not taken, by 4
(45_control_transfer.md R172). -/
def branchOn (cond : Word → Word → Bool) (rs1 rs2 : RegIdx) (imm : BitVec 13) (s : State) : Answer State :=
  if cond (s.x rs1) (s.x rs2) then .next (s.transfer (s.pc + sext imm)) else .next s.advance

/-- A word outside the implemented set: UnsupportedEncoding(word) (30_encoding.md R66, 60_exceptions.md R243). -/
def unsupported (word : Word) (s : State) : Answer State := .next (s.raise (.unsupportedEncoding word))

/-- An observed but not materialized instruction: only the default advance (47_misc_system.md R220, R223 to R228). -/
def noEffect (s : State) : Answer State := .next s.advance

end Sys2Proof.Machine
end

