-- ==== Sys2Proof/Machine/AluImmediate.lean ====
section
/-! DEFINITION. Register-immediate ALU instructions, class IMM (43_alu_immediate.md). All are the one
operation of R130 with the evaluator operation their funct3 selects. -/

namespace Sys2Proof.Machine

/-- ADDI (R131). -/
def execAddi (rd rs1 : RegIdx) (imm : BitVec 12) (s : State) : Answer State := aluImmediate .add rd rs1 imm s
/-- SLTI (R132). -/
def execSlti (rd rs1 : RegIdx) (imm : BitVec 12) (s : State) : Answer State := aluImmediate .slt rd rs1 imm s
/-- SLTIU: the immediate is sign-extended first, then read as unsigned (R133). -/
def execSltiu (rd rs1 : RegIdx) (imm : BitVec 12) (s : State) : Answer State := aluImmediate .sltu rd rs1 imm s
/-- XORI (R134). -/
def execXori (rd rs1 : RegIdx) (imm : BitVec 12) (s : State) : Answer State := aluImmediate .xor rd rs1 imm s
/-- ORI (R135). -/
def execOri (rd rs1 : RegIdx) (imm : BitVec 12) (s : State) : Answer State := aluImmediate .or rd rs1 imm s
/-- ANDI (R136). -/
def execAndi (rd rs1 : RegIdx) (imm : BitVec 12) (s : State) : Answer State := aluImmediate .and rd rs1 imm s
/-- SLLI: the whole sign-extended immediate is the amount (R137). -/
def execSlli (rd rs1 : RegIdx) (imm : BitVec 12) (s : State) : Answer State := aluImmediate .sll rd rs1 imm s
/-- The SRAI encoding: the logical shift by its whole immediate, 1024 + shamt (R139; log 9). -/
def execSrai (rd rs1 : RegIdx) (shamt : BitVec 5) (s : State) : Answer State :=
  aluImmediate .srl rd rs1 (sraiImm shamt) s
/-- SRLI: the whole sign-extended immediate is the amount (R138). -/
def execSrli (rd rs1 : RegIdx) (imm : BitVec 12) (s : State) : Answer State := aluImmediate .srl rd rs1 imm s

end Sys2Proof.Machine
end

