-- ==== Sys2Proof/Machine/AluRegister.lean ====
section
/-! DEFINITION. Register-register ALU instructions, class OP (44_alu_register.md). funct7 is examined only
for SUB, at decode (R150, R161; log 12). -/

namespace Sys2Proof.Machine

/-- SUB: `x[rd] <- (x[rs1] - x[rs2]) mod 2^32`, not part of the evaluator (R152). -/
def execSub (rd rs1 rs2 : RegIdx) (s : State) : Answer State := .next (s.finish rd (s.x rs1 - s.x rs2))
/-- ADD (R151, R161). -/
def execAdd (_funct7 : BitVec 7) (rd rs1 rs2 : RegIdx) (s : State) : Answer State := aluRegister .add rd rs1 rs2 s
/-- SLL (R153, R161). -/
def execSll (_funct7 : BitVec 7) (rd rs1 rs2 : RegIdx) (s : State) : Answer State := aluRegister .sll rd rs1 rs2 s
/-- SLT (R154, R161). -/
def execSlt (_funct7 : BitVec 7) (rd rs1 rs2 : RegIdx) (s : State) : Answer State := aluRegister .slt rd rs1 rs2 s
/-- SLTU (R155, R161). -/
def execSltu (_funct7 : BitVec 7) (rd rs1 rs2 : RegIdx) (s : State) : Answer State := aluRegister .sltu rd rs1 rs2 s
/-- XOR (R156, R161). -/
def execXor (_funct7 : BitVec 7) (rd rs1 rs2 : RegIdx) (s : State) : Answer State := aluRegister .xor rd rs1 rs2 s
/-- The SRA encoding: a logical shift, as SRL (R158; log 9). -/
def execSra (rd rs1 rs2 : RegIdx) (s : State) : Answer State := aluRegister .srl rd rs1 rs2 s
/-- SRL (R157, R161). -/
def execSrl (_funct7 : BitVec 7) (rd rs1 rs2 : RegIdx) (s : State) : Answer State := aluRegister .srl rd rs1 rs2 s
/-- OR (R159, R161). -/
def execOr (_funct7 : BitVec 7) (rd rs1 rs2 : RegIdx) (s : State) : Answer State := aluRegister .or rd rs1 rs2 s
/-- AND (R160, R161). -/
def execAnd (_funct7 : BitVec 7) (rd rs1 rs2 : RegIdx) (s : State) : Answer State := aluRegister .and rd rs1 rs2 s

end Sys2Proof.Machine
end

