-- ==== Sys2Proof/Syntax.lean ====
section
/-! DEFINITION. The instructions: one constructor per row of spec/opcode_table.json, in the table's order
(30_encoding.md R65). A constructor keeps every bit of the word that its row does not fix, the bits the
hardware ignores included (assumption log 22), so that a decoded instruction is its word read in fields. -/

namespace Sys2Proof

/-- An instruction. Fields stand in the order of the word, most significant first, but for the destination
and source registers, which come in assembler order. Immediates are the raw fields of their format:
12 bits for I and S, 13 bits for B and 21 for J with bit 0 zero, 20 for U (30_encoding.md R54 to R58). -/
inductive Instr where
  /-- `lui rd, imm20` (R120) -/
  | lui (rd : RegIdx) (imm20 : BitVec 20)
  /-- `auipc rd, imm20` (R121, R122) -/
  | auipc (rd : RegIdx) (imm20 : BitVec 20)
  /-- `jal rd, offset` (R170) -/
  | jal (rd : RegIdx) (imm : BitVec 21)
  /-- `jalr rd, imm(rs1)`, funct3 not examined (R171) -/
  | jalr (funct3 : BitVec 3) (rd rs1 : RegIdx) (imm : BitVec 12)
  /-- `beq rs1, rs2, offset` (R173) -/
  | beq (rs1 rs2 : RegIdx) (imm : BitVec 13)
  /-- `bne rs1, rs2, offset` (R174) -/
  | bne (rs1 rs2 : RegIdx) (imm : BitVec 13)
  /-- `blt rs1, rs2, offset` (R175) -/
  | blt (rs1 rs2 : RegIdx) (imm : BitVec 13)
  /-- `bge rs1, rs2, offset` (R176) -/
  | bge (rs1 rs2 : RegIdx) (imm : BitVec 13)
  /-- `bltu rs1, rs2, offset` (R177) -/
  | bltu (rs1 rs2 : RegIdx) (imm : BitVec 13)
  /-- `bgeu rs1, rs2, offset` (R178) -/
  | bgeu (rs1 rs2 : RegIdx) (imm : BitVec 13)
  /-- a BRANCH word with funct3 010 or 011 (R179) -/
  | branchReserved (funct3 : BitVec 3) (rs1 rs2 : RegIdx) (imm : BitVec 13)
  /-- `lb rd, imm(rs1)` (R190, R205) -/
  | lb (rd rs1 : RegIdx) (imm : BitVec 12)
  /-- `lh rd, imm(rs1)` (R190, R206) -/
  | lh (rd rs1 : RegIdx) (imm : BitVec 12)
  /-- `lw rd, imm(rs1)` (R190, R207) -/
  | lw (rd rs1 : RegIdx) (imm : BitVec 12)
  /-- `lbu rd, imm(rs1)` (R190, R208) -/
  | lbu (rd rs1 : RegIdx) (imm : BitVec 12)
  /-- `lhu rd, imm(rs1)` (R190, R209) -/
  | lhu (rd rs1 : RegIdx) (imm : BitVec 12)
  /-- a LOAD word with funct3 011, 110 or 111 (R193, R213) -/
  | loadOther (funct3 : BitVec 3) (rd rs1 : RegIdx) (imm : BitVec 12)
  /-- `sb rs2, imm(rs1)` (R191, R210) -/
  | sb (rs2 rs1 : RegIdx) (imm : BitVec 12)
  /-- `sh rs2, imm(rs1)` (R191, R211) -/
  | sh (rs2 rs1 : RegIdx) (imm : BitVec 12)
  /-- `sw rs2, imm(rs1)` (R191, R212) -/
  | sw (rs2 rs1 : RegIdx) (imm : BitVec 12)
  /-- a STORE word with funct3 011 to 111 (R193, R213) -/
  | storeOther (funct3 : BitVec 3) (rs2 rs1 : RegIdx) (imm : BitVec 12)
  /-- `addi rd, rs1, imm` (R131) -/
  | addi (rd rs1 : RegIdx) (imm : BitVec 12)
  /-- `slti rd, rs1, imm` (R132) -/
  | slti (rd rs1 : RegIdx) (imm : BitVec 12)
  /-- `sltiu rd, rs1, imm` (R133) -/
  | sltiu (rd rs1 : RegIdx) (imm : BitVec 12)
  /-- `xori rd, rs1, imm` (R134) -/
  | xori (rd rs1 : RegIdx) (imm : BitVec 12)
  /-- `ori rd, rs1, imm` (R135) -/
  | ori (rd rs1 : RegIdx) (imm : BitVec 12)
  /-- `andi rd, rs1, imm` (R136) -/
  | andi (rd rs1 : RegIdx) (imm : BitVec 12)
  /-- `slli rd, rs1, imm`: the whole immediate is the amount (R137) -/
  | slli (rd rs1 : RegIdx) (imm : BitVec 12)
  /-- the SRAI encoding, word[31:25] = 0100000 (R139) -/
  | srai (rd rs1 : RegIdx) (shamt : BitVec 5)
  /-- `srli rd, rs1, imm`: every other funct3 = 101 word of class IMM (R138) -/
  | srli (rd rs1 : RegIdx) (imm : BitVec 12)
  /-- `sub rd, rs1, rs2` (R152) -/
  | sub (rd rs1 rs2 : RegIdx)
  /-- `add rd, rs1, rs2`, any funct7 but 0100000 (R151, R161) -/
  | add (funct7 : BitVec 7) (rd rs1 rs2 : RegIdx)
  /-- `sll rd, rs1, rs2`, any funct7 (R153, R161) -/
  | sll (funct7 : BitVec 7) (rd rs1 rs2 : RegIdx)
  /-- `slt rd, rs1, rs2`, any funct7 (R154, R161) -/
  | slt (funct7 : BitVec 7) (rd rs1 rs2 : RegIdx)
  /-- `sltu rd, rs1, rs2`, any funct7 (R155, R161) -/
  | sltu (funct7 : BitVec 7) (rd rs1 rs2 : RegIdx)
  /-- `xor rd, rs1, rs2`, any funct7 (R156, R161) -/
  | xor (funct7 : BitVec 7) (rd rs1 rs2 : RegIdx)
  /-- the SRA encoding, funct7 = 0100000 (R158) -/
  | sra (rd rs1 rs2 : RegIdx)
  /-- `srl rd, rs1, rs2`, any funct7 but 0100000 (R157, R161) -/
  | srl (funct7 : BitVec 7) (rd rs1 rs2 : RegIdx)
  /-- `or rd, rs1, rs2`, any funct7 (R159, R161) -/
  | or (funct7 : BitVec 7) (rd rs1 rs2 : RegIdx)
  /-- `and rd, rs1, rs2`, any funct7 (R160, R161) -/
  | and (funct7 : BitVec 7) (rd rs1 rs2 : RegIdx)
  /-- FENCE.I, MISC with funct3 001; no field examined (R220) -/
  | fenceI (imm : BitVec 12) (rs1 rd : RegIdx)
  /-- FENCE, every other MISC word; no field examined (R220) -/
  | fence (funct3 : BitVec 3) (imm : BitVec 12) (rs1 rd : RegIdx)
  /-- the EBREAK word: executes as ECALL (R230) -/
  | ebreak
  /-- the SRET word: executes as ECALL (R230) -/
  | sret
  /-- the MRET word: executes as ECALL (R230) -/
  | mret
  /-- the WFI word: executes as ECALL (R230) -/
  | wfi
  /-- ECALL, every other SYSTEM word with funct3 000 (R222, R230) -/
  | ecall (imm : BitVec 12) (rs1 rd : RegIdx)
  /-- `csrrw rd, csr, rs1` (R223) -/
  | csrrw (rd : RegIdx) (csr : BitVec 12) (rs1 : RegIdx)
  /-- `csrrs rd, csr, rs1` (R224) -/
  | csrrs (rd : RegIdx) (csr : BitVec 12) (rs1 : RegIdx)
  /-- `csrrc rd, csr, rs1` (R225) -/
  | csrrc (rd : RegIdx) (csr : BitVec 12) (rs1 : RegIdx)
  /-- `csrrwi rd, csr, uimm` (R226) -/
  | csrrwi (rd : RegIdx) (csr : BitVec 12) (uimm : BitVec 5)
  /-- `csrrsi rd, csr, uimm` (R227) -/
  | csrrsi (rd : RegIdx) (csr : BitVec 12) (uimm : BitVec 5)
  /-- `csrrci rd, csr, uimm` (R228) -/
  | csrrci (rd : RegIdx) (csr : BitVec 12) (uimm : BitVec 5)
  /-- a SYSTEM word with funct3 100 (R229) -/
  | systemReserved (imm : BitVec 12) (rs1 rd : RegIdx)
  /-- every word with an unenumerated opcode (R66) -/
  | illegal (word : Word)
  deriving DecidableEq, Repr

end Sys2Proof
end

