-- ==== Sys2Proof/WellFormed.lean ====
section
/-! DEFINITION. Well-formed instructions: the terms of Instr that stand for a word. A constructor's fields
hold what its row of the opcode table leaves free (30_encoding.md R65), so each check below says which
values an earlier row takes, or that bit 0 of a B or J immediate is zero (R56, R58). -/

namespace Sys2Proof

/-- Bit 0 of a branch immediate is always 0 (30_encoding.md R56). -/
def evenImm13 (imm : BitVec 13) : Bool := !imm.getLsbD 0

/-- Bit 0 of a jump immediate is always 0 (30_encoding.md R58). -/
def evenImm21 (imm : BitVec 21) : Bool := !imm.getLsbD 0

/-- The word[31:20] fields of the four named SYSTEM words with rs1 = rd = 0 (47_misc_system.md R230). -/
def namedSystemImm (imm : BitVec 12) : Bool :=
  imm == 0x001#12 || imm == 0x102#12 || imm == 0x302#12 || imm == 0x105#12

/-- Whether an instruction stands for a word whose first matching row is its own (30_encoding.md R65). -/
def Instr.wf : Instr → Bool
  | .lui _ _ => true
  | .auipc _ _ => true
  | .jal _ imm => evenImm21 imm
  | .jalr _ _ _ _ => true
  | .beq _ _ imm => evenImm13 imm
  | .bne _ _ imm => evenImm13 imm
  | .blt _ _ imm => evenImm13 imm
  | .bge _ _ imm => evenImm13 imm
  | .bltu _ _ imm => evenImm13 imm
  | .bgeu _ _ imm => evenImm13 imm
  | .branchReserved funct3 _ _ imm => (funct3 == 2#3 || funct3 == 3#3) && evenImm13 imm
  | .lb _ _ _ => true
  | .lh _ _ _ => true
  | .lw _ _ _ => true
  | .lbu _ _ _ => true
  | .lhu _ _ _ => true
  | .loadOther funct3 _ _ _ => funct3 == 3#3 || funct3 == 6#3 || funct3 == 7#3
  | .sb _ _ _ => true
  | .sh _ _ _ => true
  | .sw _ _ _ => true
  | .storeOther funct3 _ _ _ => funct3 != 0#3 && funct3 != 1#3 && funct3 != 2#3
  | .addi _ _ _ => true
  | .slti _ _ _ => true
  | .sltiu _ _ _ => true
  | .xori _ _ _ => true
  | .ori _ _ _ => true
  | .andi _ _ _ => true
  | .slli _ _ _ => true
  | .srai _ _ _ => true
  | .srli _ _ imm => imm.extractLsb' 5 7 != 0b0100000#7
  | .sub _ _ _ => true
  | .add funct7 _ _ _ => funct7 != 0b0100000#7
  | .sll _ _ _ _ => true
  | .slt _ _ _ _ => true
  | .sltu _ _ _ _ => true
  | .xor _ _ _ _ => true
  | .sra _ _ _ => true
  | .srl funct7 _ _ _ => funct7 != 0b0100000#7
  | .or _ _ _ _ => true
  | .and _ _ _ _ => true
  | .fenceI _ _ _ => true
  | .fence funct3 _ _ _ => funct3 != 1#3
  | .ebreak => true
  | .sret => true
  | .mret => true
  | .wfi => true
  | .ecall imm rs1 rd => !(rs1 == 0#5 && rd == 0#5 && namedSystemImm imm)
  | .csrrw _ _ _ => true
  | .csrrs _ _ _ => true
  | .csrrc _ _ _ => true
  | .csrrwi _ _ _ => true
  | .csrrsi _ _ _ => true
  | .csrrci _ _ _ => true
  | .systemReserved _ _ _ => true
  | .illegal word => (Machine.classify (Machine.opcodeOf word)).isNone

/-- The check as a proposition. -/
abbrev Instr.WellFormed (i : Instr) : Prop := i.wf = true

end Sys2Proof
end

