-- ==== Sys2Proof/Decode.lean ====
section
/-! DEFINITION. The decoder (41_engine.md R103, 30_encoding.md R51 to R64), total on words and on byte
strings, the encoder written from the same tables, the instruction's row name, and the opcode table of the
spec itself (30_encoding.md R65). -/

namespace Sys2Proof

open Machine

/-- Class BRANCH: funct3 selects the condition; 010 and 011 select none (30_encoding.md R62). -/
def decodeBranch (w : Word) : Instr :=
  if funct3Of w = 0b000#3 then .beq (rs1Of w) (rs2Of w) (immBOf w)
  else if funct3Of w = 0b001#3 then .bne (rs1Of w) (rs2Of w) (immBOf w)
  else if funct3Of w = 0b100#3 then .blt (rs1Of w) (rs2Of w) (immBOf w)
  else if funct3Of w = 0b101#3 then .bge (rs1Of w) (rs2Of w) (immBOf w)
  else if funct3Of w = 0b110#3 then .bltu (rs1Of w) (rs2Of w) (immBOf w)
  else if funct3Of w = 0b111#3 then .bgeu (rs1Of w) (rs2Of w) (immBOf w)
  else .branchReserved (funct3Of w) (rs1Of w) (rs2Of w) (immBOf w)

/-- Class LOAD: funct3 is the width selector (30_encoding.md R64). -/
def decodeLoad (w : Word) : Instr :=
  if funct3Of w = 0b000#3 then .lb (rdOf w) (rs1Of w) (immIOf w)
  else if funct3Of w = 0b001#3 then .lh (rdOf w) (rs1Of w) (immIOf w)
  else if funct3Of w = 0b010#3 then .lw (rdOf w) (rs1Of w) (immIOf w)
  else if funct3Of w = 0b100#3 then .lbu (rdOf w) (rs1Of w) (immIOf w)
  else if funct3Of w = 0b101#3 then .lhu (rdOf w) (rs1Of w) (immIOf w)
  else .loadOther (funct3Of w) (rdOf w) (rs1Of w) (immIOf w)

/-- Class STORE: funct3 is the width selector (30_encoding.md R64). -/
def decodeStore (w : Word) : Instr :=
  if funct3Of w = 0b000#3 then .sb (rs2Of w) (rs1Of w) (immSOf w)
  else if funct3Of w = 0b001#3 then .sh (rs2Of w) (rs1Of w) (immSOf w)
  else if funct3Of w = 0b010#3 then .sw (rs2Of w) (rs1Of w) (immSOf w)
  else .storeOther (funct3Of w) (rs2Of w) (rs1Of w) (immSOf w)

/-- Class IMM: funct3 selects the operation (30_encoding.md R61); the SRAI encoding keeps its own name (R65). -/
def decodeImm (w : Word) : Instr :=
  if funct3Of w = 0b000#3 then .addi (rdOf w) (rs1Of w) (immIOf w)
  else if funct3Of w = 0b001#3 then .slli (rdOf w) (rs1Of w) (immIOf w)
  else if funct3Of w = 0b010#3 then .slti (rdOf w) (rs1Of w) (immIOf w)
  else if funct3Of w = 0b011#3 then .sltiu (rdOf w) (rs1Of w) (immIOf w)
  else if funct3Of w = 0b100#3 then .xori (rdOf w) (rs1Of w) (immIOf w)
  else if funct3Of w = 0b110#3 then .ori (rdOf w) (rs1Of w) (immIOf w)
  else if funct3Of w = 0b111#3 then .andi (rdOf w) (rs1Of w) (immIOf w)
  else if funct7Of w = 0b0100000#7 then .srai (rdOf w) (rs1Of w) (rs2Of w)
  else .srli (rdOf w) (rs1Of w) (immIOf w)

/-- Class OP: funct3 selects the operation; funct7 = 0100000 names SUB, and the SRA encoding (30_encoding.md R61, R65). -/
def decodeOp (w : Word) : Instr :=
  if funct3Of w = 0b000#3 then
    if funct7Of w = 0b0100000#7 then .sub (rdOf w) (rs1Of w) (rs2Of w)
    else .add (funct7Of w) (rdOf w) (rs1Of w) (rs2Of w)
  else if funct3Of w = 0b001#3 then .sll (funct7Of w) (rdOf w) (rs1Of w) (rs2Of w)
  else if funct3Of w = 0b010#3 then .slt (funct7Of w) (rdOf w) (rs1Of w) (rs2Of w)
  else if funct3Of w = 0b011#3 then .sltu (funct7Of w) (rdOf w) (rs1Of w) (rs2Of w)
  else if funct3Of w = 0b100#3 then .xor (funct7Of w) (rdOf w) (rs1Of w) (rs2Of w)
  else if funct3Of w = 0b110#3 then .or (funct7Of w) (rdOf w) (rs1Of w) (rs2Of w)
  else if funct3Of w = 0b111#3 then .and (funct7Of w) (rdOf w) (rs1Of w) (rs2Of w)
  else if funct7Of w = 0b0100000#7 then .sra (rdOf w) (rs1Of w) (rs2Of w)
  else .srl (funct7Of w) (rdOf w) (rs1Of w) (rs2Of w)

/-- Class MISC: no field changes the behaviour; FENCE.I keeps its own name (47_misc_system.md R220). -/
def decodeMisc (w : Word) : Instr :=
  if funct3Of w = 0b001#3 then .fenceI (immIOf w) (rs1Of w) (rdOf w)
  else .fence (funct3Of w) (immIOf w) (rs1Of w) (rdOf w)

/-- SYSTEM words with funct3 = 000: all ECALL; four words keep their own names (47_misc_system.md R230). -/
def decodeEcall (w : Word) : Instr :=
  if w = 0x00100073#32 then .ebreak
  else if w = 0x10200073#32 then .sret
  else if w = 0x30200073#32 then .mret
  else if w = 0x10500073#32 then .wfi
  else .ecall (immIOf w) (rs1Of w) (rdOf w)

/-- Class SYSTEM: funct3 alone selects the instruction (30_encoding.md R63). -/
def decodeSystem (w : Word) : Instr :=
  if funct3Of w = 0b000#3 then decodeEcall w
  else if funct3Of w = 0b001#3 then .csrrw (rdOf w) (immIOf w) (rs1Of w)
  else if funct3Of w = 0b010#3 then .csrrs (rdOf w) (immIOf w) (rs1Of w)
  else if funct3Of w = 0b011#3 then .csrrc (rdOf w) (immIOf w) (rs1Of w)
  else if funct3Of w = 0b101#3 then .csrrwi (rdOf w) (immIOf w) (rs1Of w)
  else if funct3Of w = 0b110#3 then .csrrsi (rdOf w) (immIOf w) (rs1Of w)
  else if funct3Of w = 0b111#3 then .csrrci (rdOf w) (immIOf w) (rs1Of w)
  else .systemReserved (immIOf w) (rs1Of w) (rdOf w)

/-- The instruction a word of a class is. -/
def decodeClass (c : OpClass) (w : Word) : Instr :=
  match c with
  | .lui => .lui (rdOf w) (immUOf w)
  | .auipc => .auipc (rdOf w) (immUOf w)
  | .jal => .jal (rdOf w) (immJOf w)
  | .jalr => .jalr (funct3Of w) (rdOf w) (rs1Of w) (immIOf w)
  | .branch => decodeBranch w
  | .load => decodeLoad w
  | .store => decodeStore w
  | .imm => decodeImm w
  | .op => decodeOp w
  | .misc => decodeMisc w
  | .system => decodeSystem w

/-- The decoder: a pure function of the word (41_engine.md R103). A word of no class is `illegal`, whose
meaning is the fatal UnsupportedEncoding of 30_encoding.md R66. -/
def decodeWord (w : Word) : Instr :=
  match classify (opcodeOf w) with
  | some c => decodeClass c w
  | none => .illegal w

/-- Why a byte string holds no instruction. Every four bytes hold one, so there is one reason. -/
inductive DecodeError where
  /-- fewer than the four bytes of an instruction (30_encoding.md R50) -/
  | truncated
  deriving DecidableEq, Repr

/-- The instruction at the head of a byte string, little-endian (30_encoding.md R50, 20_memory.md R35), and
the bytes after it. -/
def decodeBytes : List Byte → Except DecodeError (Instr × List Byte)
  | b0 :: b1 :: b2 :: b3 :: rest => .ok (decodeWord (BitVec.ofNat 32 (leValue [b0, b1, b2, b3])), rest)
  | _ => .error .truncated

/-- The word of an instruction, from the encoding tables (30_encoding.md R51 to R64). -/
def encode : Instr → Word
  | .lui rd imm20 => encU imm20 rd .lui
  | .auipc rd imm20 => encU imm20 rd .auipc
  | .jal rd imm => encJ imm rd .jal
  | .jalr funct3 rd rs1 imm => encI imm rs1 funct3 rd .jalr
  | .beq rs1 rs2 imm => encB imm rs2 rs1 0b000#3 .branch
  | .bne rs1 rs2 imm => encB imm rs2 rs1 0b001#3 .branch
  | .blt rs1 rs2 imm => encB imm rs2 rs1 0b100#3 .branch
  | .bge rs1 rs2 imm => encB imm rs2 rs1 0b101#3 .branch
  | .bltu rs1 rs2 imm => encB imm rs2 rs1 0b110#3 .branch
  | .bgeu rs1 rs2 imm => encB imm rs2 rs1 0b111#3 .branch
  | .branchReserved funct3 rs1 rs2 imm => encB imm rs2 rs1 funct3 .branch
  | .lb rd rs1 imm => encI imm rs1 0b000#3 rd .load
  | .lh rd rs1 imm => encI imm rs1 0b001#3 rd .load
  | .lw rd rs1 imm => encI imm rs1 0b010#3 rd .load
  | .lbu rd rs1 imm => encI imm rs1 0b100#3 rd .load
  | .lhu rd rs1 imm => encI imm rs1 0b101#3 rd .load
  | .loadOther funct3 rd rs1 imm => encI imm rs1 funct3 rd .load
  | .sb rs2 rs1 imm => encS imm rs2 rs1 0b000#3 .store
  | .sh rs2 rs1 imm => encS imm rs2 rs1 0b001#3 .store
  | .sw rs2 rs1 imm => encS imm rs2 rs1 0b010#3 .store
  | .storeOther funct3 rs2 rs1 imm => encS imm rs2 rs1 funct3 .store
  | .addi rd rs1 imm => encI imm rs1 0b000#3 rd .imm
  | .slti rd rs1 imm => encI imm rs1 0b010#3 rd .imm
  | .sltiu rd rs1 imm => encI imm rs1 0b011#3 rd .imm
  | .xori rd rs1 imm => encI imm rs1 0b100#3 rd .imm
  | .ori rd rs1 imm => encI imm rs1 0b110#3 rd .imm
  | .andi rd rs1 imm => encI imm rs1 0b111#3 rd .imm
  | .slli rd rs1 imm => encI imm rs1 0b001#3 rd .imm
  | .srai rd rs1 shamt => encI (sraiImm shamt) rs1 0b101#3 rd .imm
  | .srli rd rs1 imm => encI imm rs1 0b101#3 rd .imm
  | .sub rd rs1 rs2 => encR 0b0100000#7 rs2 rs1 0b000#3 rd .op
  | .add funct7 rd rs1 rs2 => encR funct7 rs2 rs1 0b000#3 rd .op
  | .sll funct7 rd rs1 rs2 => encR funct7 rs2 rs1 0b001#3 rd .op
  | .slt funct7 rd rs1 rs2 => encR funct7 rs2 rs1 0b010#3 rd .op
  | .sltu funct7 rd rs1 rs2 => encR funct7 rs2 rs1 0b011#3 rd .op
  | .xor funct7 rd rs1 rs2 => encR funct7 rs2 rs1 0b100#3 rd .op
  | .sra rd rs1 rs2 => encR 0b0100000#7 rs2 rs1 0b101#3 rd .op
  | .srl funct7 rd rs1 rs2 => encR funct7 rs2 rs1 0b101#3 rd .op
  | .or funct7 rd rs1 rs2 => encR funct7 rs2 rs1 0b110#3 rd .op
  | .and funct7 rd rs1 rs2 => encR funct7 rs2 rs1 0b111#3 rd .op
  | .fenceI imm rs1 rd => encI imm rs1 0b001#3 rd .misc
  | .fence funct3 imm rs1 rd => encI imm rs1 funct3 rd .misc
  | .ebreak => 0x00100073#32
  | .sret => 0x10200073#32
  | .mret => 0x30200073#32
  | .wfi => 0x10500073#32
  | .ecall imm rs1 rd => encI imm rs1 0b000#3 rd .system
  | .csrrw rd csr rs1 => encI csr rs1 0b001#3 rd .system
  | .csrrs rd csr rs1 => encI csr rs1 0b010#3 rd .system
  | .csrrc rd csr rs1 => encI csr rs1 0b011#3 rd .system
  | .csrrwi rd csr uimm => encI csr uimm 0b101#3 rd .system
  | .csrrsi rd csr uimm => encI csr uimm 0b110#3 rd .system
  | .csrrci rd csr uimm => encI csr uimm 0b111#3 rd .system
  | .systemReserved imm rs1 rd => encI imm rs1 0b100#3 rd .system
  | .illegal word => word

/-- The bytes of an instruction as the loader stores them (20_memory.md R35). -/
def encodeBytes (i : Instr) : List Byte := leBytes (encode i)

/-- The word an instruction is stored as when the table gives its row `nbits` bits of value `w`: the bits
above `nbits` are 0. -/
def tableWord (nbits w : Nat) : Word := BitVec.ofNat 32 (w % 2 ^ nbits)

/-- The instruction the decoder reads from a table row's bits laid out in memory, little-endian. -/
def decodeTableWord (nbits w : Nat) : Option Instr :=
  match decodeBytes (leBytes (tableWord nbits w)) with
  | .ok (i, _) => some i
  | .error _ => none

/-- The row of spec/opcode_table.json an instruction belongs to, by its mnemonic. -/
def Instr.mnemonic : Instr → String
  | .lui _ _ => "LUI"
  | .auipc _ _ => "AUIPC"
  | .jal _ _ => "JAL"
  | .jalr _ _ _ _ => "JALR"
  | .beq _ _ _ => "BEQ"
  | .bne _ _ _ => "BNE"
  | .blt _ _ _ => "BLT"
  | .bge _ _ _ => "BGE"
  | .bltu _ _ _ => "BLTU"
  | .bgeu _ _ _ => "BGEU"
  | .branchReserved _ _ _ _ => "BRANCH.RESERVED"
  | .lb _ _ _ => "LB"
  | .lh _ _ _ => "LH"
  | .lw _ _ _ => "LW"
  | .lbu _ _ _ => "LBU"
  | .lhu _ _ _ => "LHU"
  | .loadOther _ _ _ _ => "LOAD.OTHER"
  | .sb _ _ _ => "SB"
  | .sh _ _ _ => "SH"
  | .sw _ _ _ => "SW"
  | .storeOther _ _ _ _ => "STORE.OTHER"
  | .addi _ _ _ => "ADDI"
  | .slti _ _ _ => "SLTI"
  | .sltiu _ _ _ => "SLTIU"
  | .xori _ _ _ => "XORI"
  | .ori _ _ _ => "ORI"
  | .andi _ _ _ => "ANDI"
  | .slli _ _ _ => "SLLI"
  | .srai _ _ _ => "SRAI"
  | .srli _ _ _ => "SRLI"
  | .sub _ _ _ => "SUB"
  | .add _ _ _ _ => "ADD"
  | .sll _ _ _ _ => "SLL"
  | .slt _ _ _ _ => "SLT"
  | .sltu _ _ _ _ => "SLTU"
  | .xor _ _ _ _ => "XOR"
  | .sra _ _ _ => "SRA"
  | .srl _ _ _ _ => "SRL"
  | .or _ _ _ _ => "OR"
  | .and _ _ _ _ => "AND"
  | .fenceI _ _ _ => "FENCE.I"
  | .fence _ _ _ _ => "FENCE"
  | .ebreak => "EBREAK"
  | .sret => "SRET"
  | .mret => "MRET"
  | .wfi => "WFI"
  | .ecall _ _ _ => "ECALL"
  | .csrrw _ _ _ => "CSRRW"
  | .csrrs _ _ _ => "CSRRS"
  | .csrrc _ _ _ => "CSRRC"
  | .csrrwi _ _ _ => "CSRRWI"
  | .csrrsi _ _ _ => "CSRRSI"
  | .csrrci _ _ _ => "CSRRCI"
  | .systemReserved _ _ _ => "SYSTEM.RESERVED"
  | .illegal _ => "ILLEGAL"

/-- One row of spec/opcode_table.json: a word selects it when `word & mask = pattern` (30_encoding.md R65). -/
structure TableRow where
  mnemonic : String
  mask : Word
  pattern : Word
  deriving DecidableEq, Repr

/-- The rows LUI to BRANCH.RESERVED of spec/opcode_table.json. -/
def tableJumpsBranches : List TableRow := [
  ⟨"LUI", 0x0000007F#32, 0x00000037#32⟩,
  ⟨"AUIPC", 0x0000007F#32, 0x00000017#32⟩,
  ⟨"JAL", 0x0000007F#32, 0x0000006F#32⟩,
  ⟨"JALR", 0x0000007F#32, 0x00000067#32⟩,
  ⟨"BEQ", 0x0000707F#32, 0x00000063#32⟩,
  ⟨"BNE", 0x0000707F#32, 0x00001063#32⟩,
  ⟨"BLT", 0x0000707F#32, 0x00004063#32⟩,
  ⟨"BGE", 0x0000707F#32, 0x00005063#32⟩,
  ⟨"BLTU", 0x0000707F#32, 0x00006063#32⟩,
  ⟨"BGEU", 0x0000707F#32, 0x00007063#32⟩,
  ⟨"BRANCH.RESERVED", 0x0000607F#32, 0x00002063#32⟩]

/-- The rows LB to STORE.OTHER of spec/opcode_table.json. -/
def tableLoadsStores : List TableRow := [
  ⟨"LB", 0x0000707F#32, 0x00000003#32⟩,
  ⟨"LH", 0x0000707F#32, 0x00001003#32⟩,
  ⟨"LW", 0x0000707F#32, 0x00002003#32⟩,
  ⟨"LBU", 0x0000707F#32, 0x00004003#32⟩,
  ⟨"LHU", 0x0000707F#32, 0x00005003#32⟩,
  ⟨"LOAD.OTHER", 0x0000007F#32, 0x00000003#32⟩,
  ⟨"SB", 0x0000707F#32, 0x00000023#32⟩,
  ⟨"SH", 0x0000707F#32, 0x00001023#32⟩,
  ⟨"SW", 0x0000707F#32, 0x00002023#32⟩,
  ⟨"STORE.OTHER", 0x0000007F#32, 0x00000023#32⟩]

/-- The rows ADDI to SRLI of spec/opcode_table.json. -/
def tableImm : List TableRow := [
  ⟨"ADDI", 0x0000707F#32, 0x00000013#32⟩,
  ⟨"SLTI", 0x0000707F#32, 0x00002013#32⟩,
  ⟨"SLTIU", 0x0000707F#32, 0x00003013#32⟩,
  ⟨"XORI", 0x0000707F#32, 0x00004013#32⟩,
  ⟨"ORI", 0x0000707F#32, 0x00006013#32⟩,
  ⟨"ANDI", 0x0000707F#32, 0x00007013#32⟩,
  ⟨"SLLI", 0x0000707F#32, 0x00001013#32⟩,
  ⟨"SRAI", 0xFE00707F#32, 0x40005013#32⟩,
  ⟨"SRLI", 0x0000707F#32, 0x00005013#32⟩]

/-- The rows SUB to AND of spec/opcode_table.json. -/
def tableOp : List TableRow := [
  ⟨"SUB", 0xFE00707F#32, 0x40000033#32⟩,
  ⟨"ADD", 0x0000707F#32, 0x00000033#32⟩,
  ⟨"SLL", 0x0000707F#32, 0x00001033#32⟩,
  ⟨"SLT", 0x0000707F#32, 0x00002033#32⟩,
  ⟨"SLTU", 0x0000707F#32, 0x00003033#32⟩,
  ⟨"XOR", 0x0000707F#32, 0x00004033#32⟩,
  ⟨"SRA", 0xFE00707F#32, 0x40005033#32⟩,
  ⟨"SRL", 0x0000707F#32, 0x00005033#32⟩,
  ⟨"OR", 0x0000707F#32, 0x00006033#32⟩,
  ⟨"AND", 0x0000707F#32, 0x00007033#32⟩]

/-- The rows FENCE.I to ILLEGAL of spec/opcode_table.json. -/
def tableMiscSystem : List TableRow := [
  ⟨"FENCE.I", 0x0000707F#32, 0x0000100F#32⟩,
  ⟨"FENCE", 0x0000007F#32, 0x0000000F#32⟩,
  ⟨"EBREAK", 0xFFFFFFFF#32, 0x00100073#32⟩,
  ⟨"SRET", 0xFFFFFFFF#32, 0x10200073#32⟩,
  ⟨"MRET", 0xFFFFFFFF#32, 0x30200073#32⟩,
  ⟨"WFI", 0xFFFFFFFF#32, 0x10500073#32⟩,
  ⟨"ECALL", 0x0000707F#32, 0x00000073#32⟩,
  ⟨"CSRRW", 0x0000707F#32, 0x00001073#32⟩,
  ⟨"CSRRS", 0x0000707F#32, 0x00002073#32⟩,
  ⟨"CSRRC", 0x0000707F#32, 0x00003073#32⟩,
  ⟨"CSRRWI", 0x0000707F#32, 0x00005073#32⟩,
  ⟨"CSRRSI", 0x0000707F#32, 0x00006073#32⟩,
  ⟨"CSRRCI", 0x0000707F#32, 0x00007073#32⟩,
  ⟨"SYSTEM.RESERVED", 0x0000707F#32, 0x00004073#32⟩,
  ⟨"ILLEGAL", 0x00000000#32, 0x00000000#32⟩]

/-- The opcode table of the spec, rows in priority order (30_encoding.md R65). -/
def opcodeTable : List TableRow :=
  tableJumpsBranches ++ tableLoadsStores ++ tableImm ++ tableOp ++ tableMiscSystem

/-- The first row a word selects (30_encoding.md R65). -/
def firstMatch (w : Word) : Option String :=
  (opcodeTable.find? (fun r => w &&& r.mask == r.pattern)).map TableRow.mnemonic

end Sys2Proof
end

