-- ==== Sys2Proof/Machine/ControlTransfer.lean ====
section
/-! DEFINITION. Control-transfer instructions (45_control_transfer.md). No target is checked (R181). -/

namespace Sys2Proof.Machine

/-- JAL: link, then pc + imm (R170). -/
def execJal (rd : RegIdx) (imm : BitVec 21) (s : State) : Answer State :=
  .next ((s.setX rd s.linkValue).transfer (s.pc + sext imm))

/-- JALR: link, then the old x[rs1] + imm, bit 0 kept; funct3 not examined (R171; log 11). -/
def execJalr (_funct3 : BitVec 3) (rd rs1 : RegIdx) (imm : BitVec 12) (s : State) : Answer State :=
  .next ((s.setX rd s.linkValue).transfer (s.x rs1 + sext imm))

/-- BEQ (R173). -/
def execBeq (rs1 rs2 : RegIdx) (imm : BitVec 13) (s : State) : Answer State := branchOn condEq rs1 rs2 imm s
/-- BNE (R174). -/
def execBne (rs1 rs2 : RegIdx) (imm : BitVec 13) (s : State) : Answer State := branchOn condNe rs1 rs2 imm s
/-- BLT (R175). -/
def execBlt (rs1 rs2 : RegIdx) (imm : BitVec 13) (s : State) : Answer State := branchOn condLt rs1 rs2 imm s
/-- BGE (R176). -/
def execBge (rs1 rs2 : RegIdx) (imm : BitVec 13) (s : State) : Answer State := branchOn condGe rs1 rs2 imm s
/-- BLTU (R177). -/
def execBltu (rs1 rs2 : RegIdx) (imm : BitVec 13) (s : State) : Answer State := branchOn condLtu rs1 rs2 imm s
/-- BGEU (R178). -/
def execBgeu (rs1 rs2 : RegIdx) (imm : BitVec 13) (s : State) : Answer State := branchOn condGeu rs1 rs2 imm s

/-- BRANCH with funct3 010 or 011: UnsupportedEncoding of its word (R179; log 27). -/
def execBranchReserved (funct3 : BitVec 3) (rs1 rs2 : RegIdx) (imm : BitVec 13) (s : State) : Answer State :=
  unsupported (encode (.branchReserved funct3 rs1 rs2 imm)) s

end Sys2Proof.Machine
end

