-- ==== Sys2Proof/Machine/LoadStore.lean ====
section
/-! DEFINITION. Load and store instructions (46_load_store.md) in both modes of LOADSTORE_MODE: `observe`
(R190 to R195) and `perform` (R204 to R213; log 15). The trace event is emitted in both, before any
failure (R204). -/

namespace Sys2Proof.Machine

/-- The value a load of a width writes, sign-extended (R205, R206). -/
def signExtended (n : Width) (v : Nat) : Word :=
  match n with
  | .byte => sext (BitVec.ofNat 8 v)
  | .half => sext (BitVec.ofNat 16 v)
  | .word => BitVec.ofNat 32 v

/-- The value a load of a width writes, zero-extended (R208, R209). -/
def zeroExtended (n : Width) (v : Nat) : Word :=
  match n with
  | .byte => zext (BitVec.ofNat 8 v)
  | .half => zext (BitVec.ofNat 16 v)
  | .word => BitVec.ofNat 32 v

/-- A load in `perform` mode: read, extend, write rd, advance; or OutOfBounds with rd and pc kept (R204). -/
def State.performLoad (s : State) (n : Width) (extend : Width → Nat → Word) (rd : RegIdx) (ea : Word) : State :=
  match s.memRead ea n with
  | .ok v => s.finish rd (extend n v)
  | .error f => s.raise f

/-- A store in `perform` mode: write, advance; or OutOfBounds with memory and pc kept (R204). -/
def State.performStore (s : State) (n : Width) (ea v : Word) : State :=
  match s.memWrite ea n v with
  | .ok t => t.advance
  | .error f => s.raise f

/-- A load of a width (R190, R204). -/
def load (n : Width) (extend : Width → Nat → Word) (rd rs1 : RegIdx) (imm : BitVec 12) (s : State) : Answer State :=
  let ea := s.effectiveAddress rs1 imm
  let observed := s.emit (.load ea)
  match s.cfg.loadStoreMode with
  | .observe => .next observed.advance
  | .perform => .next (observed.performLoad n extend rd ea)

/-- A store of a width: the whole of x[rs2] is reported (R191, R204). -/
def store (n : Width) (rs2 rs1 : RegIdx) (imm : BitVec 12) (s : State) : Answer State :=
  let ea := s.effectiveAddress rs1 imm
  let v := s.x rs2
  let observed := s.emit (.store ea v)
  match s.cfg.loadStoreMode with
  | .observe => .next observed.advance
  | .perform => .next (observed.performStore n ea v)

/-- LB (R190, R205). -/
def execLb (rd rs1 : RegIdx) (imm : BitVec 12) (s : State) : Answer State := load .byte signExtended rd rs1 imm s
/-- LH (R190, R206). -/
def execLh (rd rs1 : RegIdx) (imm : BitVec 12) (s : State) : Answer State := load .half signExtended rd rs1 imm s
/-- LW (R190, R207). -/
def execLw (rd rs1 : RegIdx) (imm : BitVec 12) (s : State) : Answer State := load .word signExtended rd rs1 imm s
/-- LBU (R190, R208). -/
def execLbu (rd rs1 : RegIdx) (imm : BitVec 12) (s : State) : Answer State := load .byte zeroExtended rd rs1 imm s
/-- LHU (R190, R209). -/
def execLhu (rd rs1 : RegIdx) (imm : BitVec 12) (s : State) : Answer State := load .half zeroExtended rd rs1 imm s

/-- A LOAD word whose funct3 names no width: observed like any load (R193), or UnsupportedEncoding after the
trace event and before any access (R213; log 27). -/
def execLoadOther (funct3 : BitVec 3) (rd rs1 : RegIdx) (imm : BitVec 12) (s : State) : Answer State :=
  let observed := s.emit (.load (s.effectiveAddress rs1 imm))
  match s.cfg.loadStoreMode with
  | .observe => .next observed.advance
  | .perform => unsupported (encode (.loadOther funct3 rd rs1 imm)) observed

/-- SB (R191, R210). -/
def execSb (rs2 rs1 : RegIdx) (imm : BitVec 12) (s : State) : Answer State := store .byte rs2 rs1 imm s
/-- SH (R191, R211). -/
def execSh (rs2 rs1 : RegIdx) (imm : BitVec 12) (s : State) : Answer State := store .half rs2 rs1 imm s
/-- SW (R191, R212). -/
def execSw (rs2 rs1 : RegIdx) (imm : BitVec 12) (s : State) : Answer State := store .word rs2 rs1 imm s

/-- A STORE word whose funct3 names no width: observed like any store (R193), or UnsupportedEncoding after
the trace event and before any access (R213; log 27). -/
def execStoreOther (funct3 : BitVec 3) (rs2 rs1 : RegIdx) (imm : BitVec 12) (s : State) : Answer State :=
  let observed := s.emit (.store (s.effectiveAddress rs1 imm) (s.x rs2))
  match s.cfg.loadStoreMode with
  | .observe => .next observed.advance
  | .perform => unsupported (encode (.storeOther funct3 rs2 rs1 imm)) observed

end Sys2Proof.Machine
end

