-- ==== Sys2Proof/Machine/MiscSystem.lean ====
section
/-! DEFINITION. MISC and SYSTEM (47_misc_system.md): the fence class is a no-op, ECALL checks one register,
the CSR instructions are observed but not materialized except CSRRW to the halt address. -/

namespace Sys2Proof.Machine

/-- HALT_CSR, the handshake address (00_scope.md R5, 10_state.md R18). -/
def haltCsr : BitVec 12 := 3072#12

/-- ECALL_LIMIT, the largest code ECALL accepts (00_scope.md R5). -/
def ecallLimit : Nat := 1

/-- FENCE.I: no field examined, nothing but the advance (R220). -/
def execFenceI (_imm : BitVec 12) (_rs1 _rd : RegIdx) (s : State) : Answer State := noEffect s
/-- FENCE: no field examined, nothing but the advance (R220). -/
def execFence (_funct3 : BitVec 3) (_imm : BitVec 12) (_rs1 _rd : RegIdx) (s : State) : Answer State := noEffect s

/-- The ECALL check: the event first, then the code of x[ECALL_REG] is accepted or fatal (R222; log 17). -/
def ecallCheck (s : State) : Answer State :=
  let code := s.x s.cfg.ecallReg
  let observed := s.emit (.ecall code)
  if ecallLimit < code.toNat then .next (observed.raise (.conformanceFailure code)) else .next observed.advance

/-- The EBREAK word: ECALL (R230; log 13). -/
def execEbreak (s : State) : Answer State := ecallCheck s
/-- The SRET word: ECALL (R230; log 13). -/
def execSret (s : State) : Answer State := ecallCheck s
/-- The MRET word: ECALL (R230; log 13). -/
def execMret (s : State) : Answer State := ecallCheck s
/-- The WFI word: ECALL (R230; log 13). -/
def execWfi (s : State) : Answer State := ecallCheck s
/-- ECALL, whatever the other bits hold (R222, R230). -/
def execEcall (_imm : BitVec 12) (_rs1 _rd : RegIdx) (s : State) : Answer State := ecallCheck s

/-- CSRRW: HALT when csr is the halt address, else no effect; rd and rs1 are not looked at (R223). -/
def execCsrrw (_rd : RegIdx) (csr : BitVec 12) (_rs1 : RegIdx) (s : State) : Answer State :=
  if csr = haltCsr then .next s.halt else noEffect s
/-- CSRRS: no effect for every csr value (R224; log 7). -/
def execCsrrs (_rd : RegIdx) (_csr : BitVec 12) (_rs1 : RegIdx) (s : State) : Answer State := noEffect s
/-- CSRRC: no effect for every csr value (R225; log 7). -/
def execCsrrc (_rd : RegIdx) (_csr : BitVec 12) (_rs1 : RegIdx) (s : State) : Answer State := noEffect s
/-- CSRRWI: no effect for every csr value (R226; log 7). -/
def execCsrrwi (_rd : RegIdx) (_csr : BitVec 12) (_uimm : BitVec 5) (s : State) : Answer State := noEffect s
/-- CSRRSI: no effect for every csr value (R227; log 7). -/
def execCsrrsi (_rd : RegIdx) (_csr : BitVec 12) (_uimm : BitVec 5) (s : State) : Answer State := noEffect s
/-- CSRRCI: no effect for every csr value (R228; log 7). -/
def execCsrrci (_rd : RegIdx) (_csr : BitVec 12) (_uimm : BitVec 5) (s : State) : Answer State := noEffect s

/-- SYSTEM with funct3 100: UnsupportedEncoding of its word (R229; log 27). -/
def execSystemReserved (imm : BitVec 12) (rs1 rd : RegIdx) (s : State) : Answer State :=
  unsupported (encode (.systemReserved imm rs1 rd)) s

/-- A word with an unenumerated opcode: UnsupportedEncoding (30_encoding.md R66, 41_engine.md R103). -/
def execIllegal (word : Word) (s : State) : Answer State := unsupported word s

end Sys2Proof.Machine
end

