-- ==== Sys2Proof/Machine/UpperImmediate.lean ====
section
/-! DEFINITION. Upper-immediate instructions (42_upper_immediate.md). -/

namespace Sys2Proof.Machine

/-- LUI: `x[rd] <- imm20 << 12` (R120). -/
def execLui (rd : RegIdx) (imm20 : BitVec 20) (s : State) : Answer State :=
  .next (s.finish rd (zext imm20 <<< 12))

/-- What AUIPC adds to the pc, by AUIPC_MODE (R121, R122; log 2). -/
def auipcOffset (mode : AuipcMode) (imm20 : BitVec 20) : Word :=
  match mode with
  | .raw => zext imm20
  | .shifted => zext imm20 <<< 12

/-- AUIPC: `x[rd] <- pc + imm20`, raw or shifted (R121, R122). -/
def execAuipc (rd : RegIdx) (imm20 : BitVec 20) (s : State) : Answer State :=
  .next (s.finish rd (s.pc + auipcOffset s.cfg.auipcMode imm20))

end Sys2Proof.Machine
end

