-- ==== Sys2Proof/Machine/Loader.lean ====
section
/-! DEFINITION. The loader's interface (00_scope.md section 6, 70_reset_and_hazards.md section 2): segments are
written and the pc is set after RESET and before the first STEP. -/

namespace Sys2Proof.Machine

/-- What a failing `write` of the loader answers; not one of the three fatal kinds (60_exceptions.md R254). -/
inductive LoadError where
  /-- the segment does not lie in the mapped region: its address and length -/
  | outOfRegion (addr : Word) (length : Nat)
  deriving DecidableEq, Repr

/-- LOAD_SEGMENT(bytes, addr): the flat memory's `write` (20_memory.md R36). A write out of range changes no
byte and is a LoadError; a zero-length write changes nothing. -/
def State.loadSegment (s : State) (bytes : List Byte) (addr : Word) : Except LoadError State :=
  if bytes = [] ∨ InRange s.cfg addr bytes.length then
    .ok { s with mem := s.mem.writeBytes addr.toNat bytes }
  else .error (.outOfRegion addr bytes.length)

/-- The load phase: segments in the order given, a later one over an earlier one; zero segments are allowed
(70_reset_and_hazards.md R272; log 19). -/
def State.loadSegments (s : State) : List (List Byte × Word) → Except LoadError State
  | [] => .ok s
  | (bytes, addr) :: rest =>
    match s.loadSegment bytes addr with
    | .ok t => State.loadSegments t rest
    | .error e => .error e

/-- SET_PC(v): the register file's `set` on index 32 (70_reset_and_hazards.md R273). -/
def State.loaderSetPc (s : State) (v : Word) : State := s.setReg pcIndex v.toNat

/-- RESET, LOAD_SEGMENT zero or more times, SET_PC(ENTRY_PC): the state before the first STEP
(70_reset_and_hazards.md R274). After a LoadError there is no state to run (60_exceptions.md R254). -/
def boot (c : Config) (segments : List (List Byte × Word)) : Except LoadError State :=
  match (State.resetWith c).loadSegments segments with
  | .ok s => .ok (s.loaderSetPc c.entryPc)
  | .error e => .error e

/-- A state made ready to fetch the given word next: RUNNING, the pc as it is where it can be fetched from and
ENTRY_PC where it cannot (as after RESET), and the word stored little-endian at the pc (20_memory.md R35). It
stands for the loader's LOAD_SEGMENT and SET_PC (log 5). -/
def State.placeWord (s : State) (w : Word) : State :=
  let at_ := if InRange s.cfg s.pc 4 then s else s.setPc s.cfg.entryPc
  { at_ with mem := at_.mem.writeBytes at_.pc.toNat (leBytes w), run := .running }

end Sys2Proof.Machine
end

