-- ==== Sys2Proof/Machine/Step.lean ====
section
/-! DEFINITION. STEP (41_engine.md R101): fetch, decode, execute and advance in one, taken only in RUNNING. -/

namespace Sys2Proof.Machine

/-- One step (41_engine.md R101). A fetch outside the region ends the run (R102). In HALTED and FAULTED the
step has no transition (10_state.md R20, 70_reset_and_hazards.md R280; log 21). -/
def step (s : State) : Host.Outcome State Fault Refusal :=
  match s.run with
  | .running =>
    match s.fetch with
    | .ok w => exec (decodeWord w) s
    | .error f => .next (s.raise f)
  | .halted => .fault .stuckHalted
  | .faulted f => .fault (.stuckFaulted f)

/-- `s` with the instruction of a table row stored where `step` fetches next; the loader's work (log 5). -/
def State.withFetchWord (s : State) (nbits w : Nat) : State := s.placeWord (tableWord nbits w)

end Sys2Proof.Machine
end

