-- ==== Sys2Proof/Machine/Diagnostics.lean ====
section
/-! DEFINITION. What the block shows the driver (60_exceptions.md section 6): the register dump and the
diagnostic of a fatal condition. Both are read off a state and change nothing. The wording of messages, the
letter case of digits and the separators are not in the spec and not here (91_not_in_source.md N12; log 25). -/

namespace Sys2Proof.Machine

/-- DUMP's content: the 33 values in index order, the pc last (60_exceptions.md R253). -/
def State.dump (s : State) : List Word := (List.finRange 33).map s.getReg

/-- The names of the entries in index order (10_state.md R16). UNVERIFIED: the spec supplies them from general
knowledge (log 25). -/
def registerNames : List String :=
  ["zero", "ra", "sp", "gp", "tp", "t0", "t1", "t2",
   "s0", "s1", "a0", "a1", "a2", "a3", "a4", "a5",
   "a6", "a7", "s2", "s3", "s4", "s5", "s6", "s7",
   "s8", "s9", "s10", "s11", "t3", "t4", "t5", "t6", "PC"]

/-- A value as eight hexadecimal digits, zero-padded, most significant first (60_exceptions.md R253). -/
def hexDigits (v : Word) : List (BitVec 4) :=
  [extract v 31 28, extract v 27 24, extract v 23 20, extract v 19 16,
   extract v 15 12, extract v 11 8, extract v 7 4, extract v 3 0]

/-- The dump as lines of at most eight named values: four of eight and one with the pc (60_exceptions.md R253). -/
def State.dumpLines (s : State) : List (List (String × List (BitVec 4))) :=
  let entries := registerNames.zip (s.dump.map hexDigits)
  (List.range 5).map (fun k => (entries.drop (8 * k)).take 8)

/-- Which kinds are accompanied by a register dump (60_exceptions.md R240, R251; 90_conflicts.md C10). -/
def Fatal.dumps : Fatal → Bool
  | .outOfBounds _ => true
  | .unsupportedEncoding _ => true
  | .conformanceFailure _ => false

/-- A diagnostic: the fatal condition, and the dump where the kind has one (60_exceptions.md R251). -/
structure Diagnostic where
  kind : Fatal
  dump : Option (List Word)
  deriving DecidableEq, Repr

/-- The diagnostic a faulted run shows, none for any other run state (60_exceptions.md R251). -/
def State.diagnostic (s : State) : Option Diagnostic :=
  match s.run with
  | .running => none
  | .halted => none
  | .faulted f => some ⟨f, if f.dumps then some s.dump else none⟩

end Sys2Proof.Machine
end

