-- ==== Sys2Proof/Machine/Driver.lean ====
section
/-! DEFINITION. The driver (41_engine.md section 2, 70_reset_and_hazards.md R274): it asks for steps until one
does not report CONTINUE, under fuel because a run may have no end (R279; log 28). -/

namespace Sys2Proof.Machine

/-- What a step reports to the driver (41_engine.md R100). -/
inductive Report where
  /-- CONTINUE -/
  | continued
  /-- HALT -/
  | halted
  /-- FATAL(kind, info) -/
  | fatal (kind : Fatal)
  deriving DecidableEq, Repr

/-- The report of the step that left this state (41_engine.md R100, 10_state.md R20). -/
def State.report (s : State) : Report :=
  match s.run with
  | .running => .continued
  | .halted => .halted
  | .faulted f => .fatal f

/-- How far a driver came. -/
inductive DriveResult where
  /-- a step reported HALT or FATAL, or no step could be asked: the last state -/
  | stopped (s : State)
  /-- the fuel ran out with the run still going: the state so far -/
  | outOfFuel (s : State)
  deriving DecidableEq, Repr

/-- `loop: r = STEP; if r != CONTINUE then stop` (41_engine.md R111), at most `fuel` times. -/
def drive : Nat → State → DriveResult
  | 0, s => .outOfFuel s
  | fuel + 1, s =>
    match step s with
    | .next t => if t.report = .continued then drive fuel t else .stopped t
    | .fault _ => .stopped s
    | .refused _ => .stopped s

/-- A whole run: RESET, the segments, SET_PC(ENTRY_PC), then STEP until not CONTINUE
(70_reset_and_hazards.md R274). -/
def runProgram (c : Config) (segments : List (List Byte × Word)) (fuel : Nat) : Except LoadError DriveResult :=
  match boot c segments with
  | .ok s => .ok (drive fuel s)
  | .error e => .error e

end Sys2Proof.Machine
end

