-- ==== Sys2Proof/Safety.lean ====
section
/-! DEFINITION. The terms statements use: what a step changes and what it leaves alone, the invariant of the
machine, and which words are fatal. -/

namespace Sys2Proof.Machine

/-- Register rd holds v (x0 still reads 0, 10_state.md R11) and every other general register is unchanged. -/
def WritesReg (s t : State) (rd : RegIdx) (v : Word) : Prop :=
  (t.x rd = if rd = 0#5 then 0#32 else v) ∧ ∀ r, r ≠ rd → t.x r = s.x r

/-- Every general register is unchanged. -/
def KeepsRegs (s t : State) : Prop := ∀ r, t.x r = s.x r

/-- Every byte of memory is unchanged. -/
def KeepsMemory (s t : State) : Prop := ∀ a, t.mem.read a = s.mem.read a

/-- Every byte of memory outside the n bytes from a is unchanged. -/
def KeepsMemoryOutside (s t : State) (a n : Nat) : Prop :=
  ∀ b, b < a ∨ a + n ≤ b → t.mem.read b = s.mem.read b

/-- The run goes on: parameters and run state unchanged, and just these events emitted. -/
def GoesOn (s t : State) (events : List TraceEvent) : Prop :=
  t.cfg = s.cfg ∧ t.run = s.run ∧ t.trace = s.trace ++ events

/-- The run ends: registers, pc, memory and parameters unchanged, the run state as given, and just these
events emitted (41_engine.md R108, R109). -/
def EndsRun (s t : State) (run : RunState) (events : List TraceEvent) : Prop :=
  KeepsRegs s t ∧ t.pc = s.pc ∧ KeepsMemory s t ∧ t.cfg = s.cfg ∧ t.run = run ∧ t.trace = s.trace ++ events

/-- The instruction wrote a result to rd, advanced the pc by 4 and changed nothing else. -/
def WritesAndAdvances (s t : State) (rd : RegIdx) (v : Word) : Prop :=
  WritesReg s t rd v ∧ t.pc = s.pc + 4#32 ∧ KeepsMemory s t ∧ GoesOn s t []

/-- The instruction put the pc at the given address, emitted just these events and changed nothing else. -/
def OnlyMovesPc (s t : State) (pc : Word) (events : List TraceEvent) : Prop :=
  KeepsRegs s t ∧ t.pc = pc ∧ KeepsMemory s t ∧ GoesOn s t events

/-- The low seven bits of a word. -/
abbrev HasOpcode (w : Word) (opcode : BitVec 7) : Prop := w.extractLsb' 0 7 = opcode

/-- The opcode and funct3 bits of a word (30_encoding.md R51, R52). -/
abbrev HasFunct3 (w : Word) (opcode : BitVec 7) (funct3 : BitVec 3) : Prop :=
  HasOpcode w opcode ∧ w.extractLsb' 12 3 = funct3

/-- The condition a BRANCH word's funct3 names, on two register values (45_control_transfer.md R173 to R178). -/
def BranchTaken (funct3 : BitVec 3) (a b : Word) : Prop :=
  (funct3 = 0b000#3 ∧ a = b) ∨ (funct3 = 0b001#3 ∧ a ≠ b) ∨
    (funct3 = 0b100#3 ∧ a.toInt < b.toInt) ∨ (funct3 = 0b101#3 ∧ b.toInt ≤ a.toInt) ∨
    (funct3 = 0b110#3 ∧ a.toNat < b.toNat) ∨ (funct3 = 0b111#3 ∧ b.toNat ≤ a.toNat)

/-- How many bytes a LOAD or STORE word's funct3 moves, where it names a width (30_encoding.md R64). -/
def AccessBytes (w : Word) (n : Nat) : Prop :=
  (HasOpcode w 0b0000011#7 ∧
      ((w.extractLsb' 12 3 ∈ [0b000#3, 0b100#3] ∧ n = 1) ∨ (w.extractLsb' 12 3 ∈ [0b001#3, 0b101#3] ∧ n = 2) ∨
        (w.extractLsb' 12 3 = 0b010#3 ∧ n = 4))) ∨
    (HasOpcode w 0b0100011#7 ∧
      ((w.extractLsb' 12 3 = 0b000#3 ∧ n = 1) ∨ (w.extractLsb' 12 3 = 0b001#3 ∧ n = 2) ∨
        (w.extractLsb' 12 3 = 0b010#3 ∧ n = 4)))

/-- The S immediate of a word, as 30_encoding.md R55 writes it. -/
def sImmediate (w : Word) : BitVec 12 :=
  (w.extractLsb' 25 7).setWidth 12 <<< 5 ||| (w.extractLsb' 7 5).setWidth 12

/-- The B immediate of a word, as 30_encoding.md R56 writes it. -/
def bImmediate (w : Word) : BitVec 13 :=
  (w.extractLsb' 31 1).setWidth 13 <<< 12 ||| (w.extractLsb' 7 1).setWidth 13 <<< 11 |||
    (w.extractLsb' 25 6).setWidth 13 <<< 5 ||| (w.extractLsb' 8 4).setWidth 13 <<< 1

/-- The J immediate of a word, as 30_encoding.md R58 writes it. -/
def jImmediate (w : Word) : BitVec 21 :=
  (w.extractLsb' 31 1).setWidth 21 <<< 20 ||| (w.extractLsb' 12 8).setWidth 21 <<< 12 |||
    (w.extractLsb' 20 1).setWidth 21 <<< 11 ||| (w.extractLsb' 21 10).setWidth 21 <<< 1

/-- The effective address of a LOAD or STORE word (46_load_store.md R192). -/
def wordAddress (s : State) (w : Word) : Word :=
  s.x (w.extractLsb' 15 5) +
    (if HasOpcode w 0b0100011#7 then sImmediate w else w.extractLsb' 20 12).signExtend 32

/-- The invariant of the machine: the parameters meet their constraints (00_scope.md R5), the memory is in its
canonical form and lists only bytes of the mapped region (20_memory.md R30), entry 0 holds 0 (10_state.md R11). -/
abbrev State.Inv (s : State) : Prop :=
  s.cfg.WellFormed ∧ s.mem.wf = true ∧
    (∀ c ∈ s.mem, s.cfg.memBase ≤ c.1 ∧ c.1 < s.cfg.memBase + s.cfg.memSize) ∧ s.regs[0] = 0#32

/-- The words that are fatal at decode or dispatch under LOADSTORE_MODE = `mode`, read off the word's bits
(30_encoding.md R66). -/
def UnsupportedWord (mode : LoadStoreMode) (w : Word) : Prop :=
  w.extractLsb' 0 7 ∉
      [0x37#7, 0x17#7, 0x6F#7, 0x67#7, 0x63#7, 0x03#7, 0x23#7, 0x13#7, 0x33#7, 0x0F#7, 0x73#7] ∨
    (w.extractLsb' 0 7 = 0x63#7 ∧ w.extractLsb' 12 3 ∈ [2#3, 3#3]) ∨
    (w.extractLsb' 0 7 = 0x73#7 ∧ w.extractLsb' 12 3 = 4#3) ∨
    (mode = .perform ∧ w.extractLsb' 0 7 = 0x03#7 ∧ w.extractLsb' 12 3 ∈ [3#3, 6#3, 7#3]) ∨
    (mode = .perform ∧ w.extractLsb' 0 7 = 0x23#7 ∧ w.extractLsb' 12 3 ∈ [3#3, 4#3, 5#3, 6#3, 7#3])

/-- Steps asked one after another, as the driver asks them while the run goes on (41_engine.md R111): from the
first state the second is reached. -/
inductive Reaches : State → State → Prop where
  /-- no step -/
  | refl (s : State) : Reaches s s
  /-- one more step -/
  | step {s t u : State} : Reaches s t → Machine.step t = .next u → Reaches s u

end Sys2Proof.Machine
end

