-- ==== Sys2Proof/Certificates/Slice0/Obligations.lean ====
section
/-! DEFINITION. The statements for the provers, from the numbered rules of spec/. Addresses of bits in a word
are written out in each (word[11:7] is `extractLsb' 7 5`), and results as arithmetic on BitVec, Nat or Int, so
that a statement does not lean on the model's own helper for the thing it states. The opcode and funct3 numbers
are those of 30_encoding.md R51 and R61 to R64 (log 6). -/

open Sys2Proof Sys2Proof.Machine

/-! ## Primitives and the evaluator (40_primitives.md) -/

/-- R80: the extractor isolates an inclusive bit range, shifted to position 0. -/
def Obligations.ExtractorShiftsAndMasks : Prop :=
  ∀ (w : Word) (hi lo : Nat) (h : lo ≤ hi ∧ hi ≤ 31),
    (extract w hi lo h).toNat = (w.toNat >>> lo) &&& (2 ^ (hi - lo + 1) - 1)

/-- R82, R83: the integer form of sign extension is v - 2^L when the sign bit is set and v otherwise; the word form
is congruent to it, keeps the low bits, copies the sign bit above them and reads back as the same number. That the
word form is the u32 modulo 2^32 is decision D12 of 92_eei_decisions.md; the widths are a domain the functions take as
an argument (log 24). -/
def Obligations.SignExtensionKeepsTheNumber : Prop :=
  ∀ (n : Nat) (h : 1 ≤ n ∧ n ≤ 32) (v : BitVec n),
    (signExtend v h = if v.getLsbD (n - 1) then (v.toNat : Int) - 2 ^ n else (v.toNat : Int)) ∧
    -(2 ^ (n - 1) : Int) ≤ signExtend v h ∧ signExtend v h ≤ 2 ^ (n - 1) - 1 ∧
    ((sext v h).toNat : Int) = signExtend v h % 2 ^ 32 ∧
    (∀ i, i < n → (sext v h).getLsbD i = v.getLsbD i) ∧
    (∀ i, n ≤ i → i < 32 → (sext v h).getLsbD i = v.getLsbD (n - 1)) ∧
    signed (sext v h) = signExtend v h

/-- R85 to R93: what each selector 000 to 111 gives, on Nat, Int and single bits. That a shift amount of 32 or more gives
0 and that 101 is a logical shift are decisions D6 and D5 of 92_eei_decisions.md (log 8, log 9). -/
def Obligations.EvaluatorFollowsItsTable : Prop :=
  ∀ x y : Word,
    (arith (AluOp.ofFunct3 0b000#3) x y).toNat = (x.toNat + y.toNat) % 2 ^ 32 ∧
    (arith (AluOp.ofFunct3 0b001#3) x y).toNat = (if y.toNat < 32 then (x.toNat * 2 ^ y.toNat) % 2 ^ 32 else 0) ∧
    (arith (AluOp.ofFunct3 0b010#3) x y).toNat = (if x.toInt < y.toInt then 1 else 0) ∧
    (arith (AluOp.ofFunct3 0b011#3) x y).toNat = (if x.toNat < y.toNat then 1 else 0) ∧
    (∀ i, (arith (AluOp.ofFunct3 0b100#3) x y).getLsbD i = (x.getLsbD i != y.getLsbD i)) ∧
    (arith (AluOp.ofFunct3 0b101#3) x y).toNat = (if y.toNat < 32 then x.toNat / 2 ^ y.toNat else 0) ∧
    (∀ i, (arith (AluOp.ofFunct3 0b110#3) x y).getLsbD i = (x.getLsbD i || y.getLsbD i)) ∧
    (∀ i, (arith (AluOp.ofFunct3 0b111#3) x y).getLsbD i = (x.getLsbD i && y.getLsbD i))

/-! ## The register file and reset (10_state.md, 70_reset_and_hazards.md) -/

/-- R11, R12, R13: what a get reads after a set, over all 33 indices and any integer value. -/
def Obligations.RegisterFileReadsWhatWasSet : Prop :=
  ∀ (s : State) (i j : Fin 33) (value : Int),
    (((s.setReg i value).getReg j).toNat : Int) =
      (if j = 0 then 0 else if j = i then value % 2 ^ 32 else ((s.getReg j).toNat : Int))

/-- R270: RESET leaves all 33 entries and every byte zero and the run state RUNNING, whatever the parameters; the
reset state is that of the reference configuration. -/
def Obligations.ResetZeroesEverything : Prop :=
  (∀ (c : Config), (∀ i, (State.resetWith c).getReg i = 0#32) ∧ (∀ a, (State.resetWith c).mem.read a = 0x00#8) ∧
    (State.resetWith c).run = .running) ∧
  State.reset = State.resetWith Config.reference

/-- R272, R273, R274: after RESET, any segments and SET_PC the pc is ENTRY_PC, every general register is 0 and the run
state is RUNNING. The parameters kept and the invariant are the model's (log 1, log 30), zero segments are decision
D21 of 92_eei_decisions.md (log 19). -/
def Obligations.BootLeavesAFreshMachineAtTheEntry : Prop :=
  ∀ (c : Config) (segments : List (List Byte × Word)) (s : State), c.WellFormed → boot c segments = .ok s →
    s.pc = c.entryPc ∧ (∀ r, s.x r = 0#32) ∧ s.run = .running ∧ s.cfg = c ∧ s.Inv

/-- The invariant, the model's own (log 30), holds at reset, for every legal choice of the parameters. -/
def Obligations.InvariantHoldsAtReset : Prop :=
  State.reset.Inv ∧ ∀ c : Config, c.WellFormed → (State.resetWith c).Inv

/-- Every step keeps the invariant: legal parameters, canonical memory inside the region, entry 0 zero. The canonical
form and the parameters in the state are the model's (log 29, log 1). -/
def Obligations.EveryStepKeepsTheInvariant : Prop :=
  ∀ s t : State, s.Inv → step s = .next t → t.Inv

/-! ## Memory (20_memory.md) -/

/-- R32: the n bytes at addr are in range exactly when each of them has an address in the region. That addresses do not
wrap is decision D18 of 92_eei_decisions.md (log 16). -/
def Obligations.InRangeMeansEveryByteIsMapped : Prop :=
  ∀ (c : Config) (addr : Word) (n : Nat), 1 ≤ n →
    (InRange c addr n ↔ ∀ k, k < n → c.memBase ≤ addr.toNat + k ∧ addr.toNat + k < c.memBase + c.memSize)

/-- R33: read32 is a little-endian four-byte read at any address in range, and OutOfBounds(address) elsewhere. -/
def Obligations.ReadWordIsLittleEndianOrOutOfBounds : Prop :=
  ∀ (s : State) (a : Word),
    (InRange s.cfg a 4 →
      s.read32 a = .ok ((s.mem.read a.toNat).setWidth 32 ||| (s.mem.read (a.toNat + 1)).setWidth 32 <<< 8 |||
        (s.mem.read (a.toNat + 2)).setWidth 32 <<< 16 ||| (s.mem.read (a.toNat + 3)).setWidth 32 <<< 24)) ∧
    (¬ InRange s.cfg a 4 → s.read32 a = .error (.outOfBounds a))

/-- R36: the loader's write puts byte i at address + i and changes no other byte, or fails with a LoadError
exactly when a non-empty byte string does not lie in the region. That an empty string changes nothing is the spec's
own inference, marked so in R36 (log 19). -/
def Obligations.LoaderWriteIsExact : Prop :=
  ∀ (s : State) (bytes : List Byte) (a : Word), s.mem.wf = true →
    (bytes = [] ∨ InRange s.cfg a bytes.length →
      ∃ t, s.loadSegment bytes a = .ok t ∧
        (∀ i (h : i < bytes.length), t.mem.read (a.toNat + i) = bytes[i]) ∧
        KeepsMemoryOutside s t a.toNat bytes.length ∧
        KeepsRegs s t ∧ t.pc = s.pc ∧ t.cfg = s.cfg ∧ t.run = s.run ∧ t.trace = s.trace) ∧
    (bytes ≠ [] → ¬ InRange s.cfg a bytes.length →
      s.loadSegment bytes a = .error (.outOfRegion a bytes.length))

/-- R37: a MemWrite in range writes the low n bytes little-endian and nothing else, so that a four-byte write then
read32 of the same address gives the word; out of range it is OutOfBounds and answers no state. The byte order is
decision D17 of 92_eei_decisions.md (log 15). -/
def Obligations.MemWriteIsReadBack : Prop :=
  ∀ (s : State) (a v : Word) (n : Width), s.mem.wf = true →
    (InRange s.cfg a n.bytes →
      ∃ t, s.memWrite a n v = .ok t ∧
        (∀ k, k < n.bytes → t.mem.read (a.toNat + k) = v.extractLsb' (8 * k) 8) ∧
        KeepsMemoryOutside s t a.toNat n.bytes ∧ t.regs = s.regs ∧ t.cfg = s.cfg ∧ t.run = s.run ∧
        t.trace = s.trace ∧ (n = .word → t.read32 a = .ok v)) ∧
    (¬ InRange s.cfg a n.bytes → s.memWrite a n v = .error (.outOfBounds a))

/-- R43, the spec's own inference, and decision D22 of 92_eei_decisions.md (log 20): in perform mode the word a store puts
at the next pc is the word the very next step fetches and runs. -/
def Obligations.StoredWordIsFetchedByTheNextStep : Prop :=
  ∀ (s : State) (rs2 rs1 : RegIdx) (imm : BitVec 12), s.Inv → s.run = .running → s.cfg.loadStoreMode = .perform →
    s.x rs1 + imm.signExtend 32 = s.pc + 4#32 → InRange s.cfg (s.pc + 4#32) 4 →
    ∃ t, exec (.sw rs2 rs1 imm) s = .next t ∧ t.pc = s.pc + 4#32 ∧ t.fetch = .ok (s.x rs2) ∧
      step t = exec (decodeWord (s.x rs2)) t

/-- R31, R194, the spec's own inferences: in observe mode no instruction changes memory, over a run of any length from
any state; that the parameters stay is the model's (log 1). -/
def Obligations.ObserveModeNeverChangesMemory : Prop :=
  ∀ s t : State, s.cfg.loadStoreMode = .observe → Reaches s t → t.mem = s.mem ∧ t.cfg = s.cfg

/-! ## The decoder (30_encoding.md) -/

/-- Encoding loses no bit: the decoder gives back every well-formed instruction, all constructors and operands. That
constructors keep the bits the hardware ignores is the model's (log 22). -/
def Obligations.DecodeOfEncodeIsTheInstruction : Prop :=
  ∀ i : Instr, i.WellFormed → decodeWord (encode i) = i

/-- Every 32-bit word decodes to a well-formed instruction that encodes to the word again (log 22). -/
def Obligations.EncodeOfDecodeIsTheWord : Prop :=
  ∀ w : Word, (decodeWord w).WellFormed ∧ encode (decodeWord w) = w

/-- R65, its last sentence, which the spec infers: on every word the decoder agrees with the first matching row of the
opcode table. -/
def Obligations.DecoderAgreesWithTheOpcodeTable : Prop :=
  ∀ w : Word, firstMatch w = some (decodeWord w).mnemonic

/-- R51: exactly one format classifier is true of a word of an enumerated class other than MISC, none of MISC and of
an unenumerated opcode, and each is the format the class fixes; the spec marks it as inferred from its table. -/
def Obligations.OneFormatClassifierIsTrue : Prop :=
  ∀ w : Word,
    (isR w = true ↔ formatOf w = some .r) ∧ (isI w = true ↔ formatOf w = some .i) ∧
    (isS w = true ↔ formatOf w = some .s) ∧ (isB w = true ↔ formatOf w = some .b) ∧
    (isU w = true ↔ formatOf w = some .u) ∧ (isJ w = true ↔ formatOf w = some .j) ∧
    (formatOf w = none ↔ (HasOpcode w 0b0001111#7 ∨ classify (w.extractLsb' 0 7) = none)) ∧
    ([isR w, isI w, isS w, isB w, isU w, isJ w].count true ≤ 1)

/-- R55, R56, R58: what the decoder reads from a STORE, a BRANCH and a JAL word, and of every word the S, B and J
immediates, their parity and their range as signed numbers. -/
def Obligations.ScatteredImmediatesAreAssembled : Prop :=
  ∀ w : Word,
    (HasOpcode w 0b0100011#7 → (fields w).map (fun d => (d.rd, d.rs1, d.rs2, d.funct3, d.imm)) =
      some (none, some (w.extractLsb' 15 5), some (w.extractLsb' 20 5), some (w.extractLsb' 12 3),
        some ((sImmediate w).signExtend 32))) ∧
    (HasOpcode w 0b1100011#7 → (fields w).map (fun d => (d.rd, d.rs1, d.rs2, d.funct3, d.imm)) =
      some (none, some (w.extractLsb' 15 5), some (w.extractLsb' 20 5), some (w.extractLsb' 12 3),
        some ((bImmediate w).signExtend 32))) ∧
    (HasOpcode w 0b1101111#7 → (fields w).map (fun d => (d.rd, d.imm)) =
      some (some (w.extractLsb' 7 5), some ((jImmediate w).signExtend 32))) ∧
    immSOf w = sImmediate w ∧ immBOf w = bImmediate w ∧ immJOf w = jImmediate w ∧
    -2048 ≤ (immSOf w).toInt ∧ (immSOf w).toInt ≤ 2047 ∧
    (immBOf w).toInt % 2 = 0 ∧ -4096 ≤ (immBOf w).toInt ∧ (immBOf w).toInt ≤ 4094 ∧
    (immJOf w).toInt % 2 = 0 ∧ -1048576 ≤ (immJOf w).toInt ∧ (immJOf w).toInt ≤ 1048574

/-- R60: the record the decoder hands to execute has the class and format of the opcode, the register fields at their
bits where the format has them, and the immediate of the format: sign-extended, but raw for U and unsigned for the
CSR field of SYSTEM; a word of no class has no record. The raw U field is conflict C1's resolution, the CSR field
decision D14, and no fields for MISC the model's (log 26). -/
def Obligations.DecodedRecordHasItsFormatsFields : Prop :=
  ∀ w : Word,
    (fields w = none ↔ classify (w.extractLsb' 0 7) = none) ∧
    ∀ d, fields w = some d →
      d.opClass.opcode = w.extractLsb' 0 7 ∧ d.format = d.opClass.format ∧
      d.rd = (if d.format ∈ [none, some .s, some .b] then none else some (w.extractLsb' 7 5)) ∧
      d.rs1 = (if d.format ∈ [none, some .u, some .j] then none else some (w.extractLsb' 15 5)) ∧
      d.rs2 = (if d.format ∈ [some .r, some .s, some .b] then some (w.extractLsb' 20 5) else none) ∧
      d.funct3 = (if d.format ∈ [none, some .u, some .j] then none else some (w.extractLsb' 12 3)) ∧
      d.funct7 = (if d.format = some .r then some (w.extractLsb' 25 7) else none) ∧
      d.imm = (match d.format with
        | none => none
        | some .r => none
        | some .i =>
          if d.opClass = .system then some ((w.extractLsb' 20 12).setWidth 32)
          else some ((w.extractLsb' 20 12).signExtend 32)
        | some .s => some ((sImmediate w).signExtend 32)
        | some .b => some ((bImmediate w).signExtend 32)
        | some .u => some ((w.extractLsb' 12 20).setWidth 32)
        | some .j => some ((jImmediate w).signExtend 32))

/-- One word of each family, written out in the spec, is the instruction it stands for there. -/
def Obligations.SampleWordsDecodeAsWritten : Prop :=
  decodeWord 0x12345537#32 = .lui 10#5 0x12345#20 ∧ decodeWord 0x00001617#32 = .auipc 12#5 1#20 ∧
  decodeWord 0x00C000EF#32 = .jal 1#5 12#21 ∧ decodeWord 0xFFC302E7#32 = .jalr 0#3 5#5 6#5 0xFFC#12 ∧
  decodeWord 0xFE009CE3#32 = .bne 1#5 0#5 0x1FF8#13 ∧ decodeWord 0xFFC0A183#32 = .lw 3#5 1#5 0xFFC#12 ∧
  decodeWord 0x7E20AFA3#32 = .sw 2#5 1#5 0x7FF#12 ∧ decodeWord 0x80028293#32 = .addi 5#5 5#5 0x800#12 ∧
  decodeWord 0x402081B3#32 = .sub 3#5 1#5 2#5 ∧ decodeWord 0x022081B3#32 = .add 1#7 3#5 1#5 2#5 ∧
  decodeWord 0x0FF0000F#32 = .fence 0#3 0x0FF#12 0#5 0#5 ∧ decodeWord 0xC0001073#32 = .csrrw 0#5 0xC00#12 0#5 ∧
  decodeWord 0x00000073#32 = .ecall 0#12 0#5 0#5 ∧ decodeWord 0xFFFFFFFF#32 = .illegal 0xFFFFFFFF#32

/-! ## The engine (41_engine.md) -/

/-- R101: when the bytes at the pc decode to an instruction, the step is exec of it, with nothing around it: the default
advance stands in the meanings (log 23). -/
def Obligations.StepRunsTheDecodedInstruction : Prop :=
  ∀ (s : State) (i : Instr) (rest : List Byte), s.run = .running → InRange s.cfg s.pc 4 →
    decodeBytes (s.mem.readBytes s.pc.toNat 4) = .ok (i, rest) → i.WellFormed ∧ step s = exec i s

/-- R102, R242: a fetch from a pc whose four bytes are not all mapped ends the run with OutOfBounds(pc), whatever
memory holds; R271, the spec's own inference: so ends the first step of the reference configuration where no loader
has set the pc. That a fatal condition is a next state with a FAULTED run state is log 4. -/
def Obligations.FetchOutsideTheRegionIsFatal : Prop :=
  (∀ s : State, s.run = .running → ¬ InRange s.cfg s.pc 4 →
    ∃ t, step s = .next t ∧ EndsRun s t (.faulted (.outOfBounds s.pc)) []) ∧
  ∃ t, step State.reset = .next t ∧ EndsRun State.reset t (.faulted (.outOfBounds 0#32)) []

/-- R20, R280, decision D11 of 92_eei_decisions.md: a step answers a next state exactly in RUNNING; HALTED and FAULTED are
terminal, and the faults that say so are the model's (log 21). -/
def Obligations.StepIsTakenExactlyWhenRunning : Prop :=
  ∀ s : State,
    ((∃ t, step s = .next t) ↔ s.run = .running) ∧ (s.run = .halted → step s = .fault .stuckHalted) ∧
    ∀ f, s.run = .faulted f → step s = .fault (.stuckFaulted f)

/-- R109, R241: a step that ends in a fatal condition leaves every register, the pc, memory and the parameters as
they were before it (the spec's own inference and decision D20; log 18). -/
def Obligations.FatalStepChangesOnlyTheRunState : Prop :=
  ∀ (s t : State) (f : Fatal), step s = .next t → t.run = .faulted f →
    s.run = .running ∧ t.regs = s.regs ∧ t.mem = s.mem ∧ t.cfg = s.cfg

/-- R108: exactly one instruction halts, CSRRW to 3072; then the pc stays and nothing is written. -/
def Obligations.OnlyCsrrwToTheHandshakeHalts : Prop :=
  ∀ (s t : State) (w : Word), s.fetch = .ok w → step s = .next t →
    (t.run = .halted ↔ HasFunct3 w 0b1110011#7 0b001#3 ∧ w.extractLsb' 20 12 = 3072#12) ∧
    (t.run = .halted → EndsRun s t .halted [])

/-- R66: a fetched word is UnsupportedEncoding exactly when it is in the list, the condition carries the word, and no
register, byte or pc changes. -/
def Obligations.UnsupportedWordsAreExactlyTheList : Prop :=
  ∀ (s : State) (w v : Word), s.run = .running → s.fetch = .ok w →
    ((∃ t, step s = .next t ∧ t.run = .faulted (.unsupportedEncoding v)) ↔
      v = w ∧ UnsupportedWord s.cfg.loadStoreMode w) ∧
    (UnsupportedWord s.cfg.loadStoreMode w →
      ∃ t events, step s = .next t ∧ EndsRun s t (.faulted (.unsupportedEncoding w)) events)

/-- R240: a step that ends FATAL has one of the causes of the spec's table and carries its value, and each cause of the
table ends the step with its kind and that value. The values carried are decision D20 of 92_eei_decisions.md
(log 18). -/
def Obligations.FatalKindsHaveTheirCauses : Prop :=
  (∀ (s t : State) (f : Fatal), step s = .next t → t.run = .faulted f →
    (f = .outOfBounds s.pc ∧ ¬ InRange s.cfg s.pc 4) ∨
    ∃ w, s.fetch = .ok w ∧
      ((f = .unsupportedEncoding w ∧ UnsupportedWord s.cfg.loadStoreMode w) ∨
        (s.cfg.loadStoreMode = .perform ∧ f = .outOfBounds (wordAddress s w) ∧
          ∃ n, AccessBytes w n ∧ ¬ InRange s.cfg (wordAddress s w) n) ∨
        (f = .conformanceFailure (s.x s.cfg.ecallReg) ∧ 1 < (s.x s.cfg.ecallReg).toNat ∧
          HasFunct3 w 0b1110011#7 0b000#3))) ∧
  ∀ s : State, s.run = .running →
    (¬ InRange s.cfg s.pc 4 → ∃ t, step s = .next t ∧ t.run = .faulted (.outOfBounds s.pc)) ∧
    ∀ w, s.fetch = .ok w →
      (UnsupportedWord s.cfg.loadStoreMode w →
        ∃ t, step s = .next t ∧ t.run = .faulted (.unsupportedEncoding w)) ∧
      (∀ n, s.cfg.loadStoreMode = .perform → AccessBytes w n → ¬ InRange s.cfg (wordAddress s w) n →
        ∃ t, step s = .next t ∧ t.run = .faulted (.outOfBounds (wordAddress s w))) ∧
      (HasFunct3 w 0b1110011#7 0b000#3 → 1 < (s.x s.cfg.ecallReg).toNat →
        ∃ t, step s = .next t ∧ t.run = .faulted (.conformanceFailure (s.x s.cfg.ecallReg)))

/-- R112: the pc after a step, by the word at the pc. -/
def Obligations.PcFollowsTheSequencerTable : Prop :=
  ∀ (s t : State) (w : Word), s.fetch = .ok w → step s = .next t →
    ((∃ f, t.run = .faulted f) → t.pc = s.pc) ∧
    (t.run = .halted → t.pc = s.pc) ∧
    (t.run = .running →
      (HasOpcode w 0b1101111#7 → t.pc = s.pc + (jImmediate w).signExtend 32) ∧
      (HasOpcode w 0b1100111#7 → t.pc = s.x (w.extractLsb' 15 5) + (w.extractLsb' 20 12).signExtend 32) ∧
      (HasOpcode w 0b1100011#7 →
        (BranchTaken (w.extractLsb' 12 3) (s.x (w.extractLsb' 15 5)) (s.x (w.extractLsb' 20 5)) →
          t.pc = s.pc + (bImmediate w).signExtend 32) ∧
        (¬ BranchTaken (w.extractLsb' 12 3) (s.x (w.extractLsb' 15 5)) (s.x (w.extractLsb' 20 5)) →
          t.pc = s.pc + 4#32)) ∧
      (w.extractLsb' 0 7 ∉ [0b1101111#7, 0b1100111#7, 0b1100011#7] → t.pc = s.pc + 4#32))

/-- R13, R221 and the register operands of every class: a step changes no general register but the one its word
names in bits 11 to 7, and none at all for the classes without a destination; inferred from the rules of the
classes. -/
def Obligations.OnlyTheNamedRegisterIsWritten : Prop :=
  ∀ (s t : State) (w : Word), s.fetch = .ok w → step s = .next t →
    (∀ r, r ≠ w.extractLsb' 7 5 → t.x r = s.x r) ∧
    (w.extractLsb' 0 7 ∈ [0b1100011#7, 0b0100011#7, 0b0001111#7, 0b1110011#7] → KeepsRegs s t) ∧
    (HasOpcode w 0b0000011#7 → s.cfg.loadStoreMode = .observe → KeepsRegs s t)

/-- Memory changes only by a store in perform mode whose funct3 names a width and whose bytes are all in range, and then
only in those bytes: inferred from R31, R37, R204 and R213; the canonical form assumed is the model's (log 29). -/
def Obligations.OnlyStoresChangeMemory : Prop :=
  ∀ (s t : State) (w : Word), s.mem.wf = true → s.fetch = .ok w → step s = .next t →
    (¬ HasOpcode w 0b0100011#7 ∨ s.cfg.loadStoreMode = .observe ∨
        w.extractLsb' 12 3 ∈ [0b011#3, 0b100#3, 0b101#3, 0b110#3, 0b111#3] → KeepsMemory s t) ∧
    ∀ n, HasOpcode w 0b0100011#7 → AccessBytes w n →
      KeepsMemoryOutside s t (wordAddress s w).toNat n ∧
      (¬ InRange s.cfg (wordAddress s w) n → KeepsMemory s t)

/-- R252: which words emit a trace event, one each, and the values it carries. The list in the state is the model's
(log 3), the ECALL event of a failing check decision D19 (log 17). -/
def Obligations.TraceEventsAreOnePerOccurrence : Prop :=
  ∀ (s t : State) (w : Word), s.fetch = .ok w → step s = .next t →
    t.trace = s.trace ++
      (if HasOpcode w 0b0000011#7 then [.load (wordAddress s w)]
       else if HasOpcode w 0b0100011#7 then [.store (wordAddress s w) (s.x (w.extractLsb' 20 5))]
       else if HasFunct3 w 0b1110011#7 0b000#3 then [.ecall (s.x s.cfg.ecallReg)] else [])

/-- R111, R274: the driver asks for one step after another. Either it stops after k of them, at least one and no more
than the fuel, at the state whose report is HALT or FATAL, every report before it CONTINUE; or it has asked for
exactly as many steps as it had fuel and every report was CONTINUE. The fuel is the model's (log 28). -/
def Obligations.DriverStopsAtHaltOrFatal : Prop :=
  ∀ (fuel : Nat) (s : State), s.run = .running →
    (∃ (k : Nat) (t : State), 1 ≤ k ∧ k ≤ fuel ∧ drive fuel s = .stopped t ∧ Host.Core.run core k s = .next t ∧
      (t.report = .halted ∨ ∃ f, t.report = .fatal f) ∧
      ∀ j, j < k → ∃ u : State, Host.Core.run core j s = .next u ∧ u.report = .continued) ∨
    (∃ t : State, drive fuel s = .outOfFuel t ∧ Host.Core.run core fuel s = .next t ∧
      ∀ j, j ≤ fuel → ∃ u : State, Host.Core.run core j s = .next u ∧ u.report = .continued)

/-! ## Upper-immediate instructions (42_upper_immediate.md) -/

/-- R120. -/
def Obligations.LuiLoadsTheShiftedField : Prop :=
  (∀ w, HasOpcode w 0b0110111#7 → decodeWord w = .lui (w.extractLsb' 7 5) (w.extractLsb' 12 20)) ∧
  ∀ rd imm20 s, ∃ t, exec (.lui rd imm20) s = .next t ∧
    WritesAndAdvances s t rd (BitVec.ofNat 32 (imm20.toNat * 2 ^ 12))

/-- R121, R122: AUIPC adds the raw field, or in the other mode the shifted one, to its own address. -/
def Obligations.AuipcAddsTheFieldToThePc : Prop :=
  (∀ w, HasOpcode w 0b0010111#7 → decodeWord w = .auipc (w.extractLsb' 7 5) (w.extractLsb' 12 20)) ∧
  ∀ rd imm20 s,
    (s.cfg.auipcMode = .raw → ∃ t, exec (.auipc rd imm20) s = .next t ∧
      WritesAndAdvances s t rd (BitVec.ofNat 32 (s.pc.toNat + imm20.toNat))) ∧
    (s.cfg.auipcMode = .shifted → ∃ t, exec (.auipc rd imm20) s = .next t ∧
      WritesAndAdvances s t rd (BitVec.ofNat 32 (s.pc.toNat + imm20.toNat * 2 ^ 12)))

/-! ## Register-immediate ALU instructions (43_alu_immediate.md) -/

/-- R130, R150, R161: every word of class IMM evaluates by its funct3, and every word of class OP too, where funct7 is
compared with one value in one case (SUB) and otherwise ignored: decision D7 of 92_eei_decisions.md (log 12). -/
def Obligations.AluClassesEvaluateByFunct3 : Prop :=
  ∀ (w : Word) (s : State),
    (HasOpcode w 0b0010011#7 →
      ∃ t, exec (decodeWord w) s = .next t ∧
        WritesAndAdvances s t (w.extractLsb' 7 5)
          (arith (AluOp.ofFunct3 (w.extractLsb' 12 3)) (s.x (w.extractLsb' 15 5))
            ((w.extractLsb' 20 12).signExtend 32))) ∧
    (HasOpcode w 0b0110011#7 →
      ∃ t, exec (decodeWord w) s = .next t ∧
        WritesAndAdvances s t (w.extractLsb' 7 5)
          (if w.extractLsb' 12 3 = 0b000#3 ∧ w.extractLsb' 25 7 = 0b0100000#7 then
            s.x (w.extractLsb' 15 5) - s.x (w.extractLsb' 20 5)
           else arith (AluOp.ofFunct3 (w.extractLsb' 12 3)) (s.x (w.extractLsb' 15 5)) (s.x (w.extractLsb' 20 5))))

/-- R131. -/
def Obligations.AddiAddsTheImmediate : Prop :=
  (∀ w, HasFunct3 w 0b0010011#7 0b000#3 →
    decodeWord w = .addi (w.extractLsb' 7 5) (w.extractLsb' 15 5) (w.extractLsb' 20 12)) ∧
  ∀ rd rs1 imm s, ∃ t, exec (.addi rd rs1 imm) s = .next t ∧
    WritesAndAdvances s t rd (BitVec.ofInt 32 ((s.x rs1).toNat + imm.toInt))

/-- R132, R133. -/
def Obligations.SltiAndSltiuCompareWithTheImmediate : Prop :=
  (∀ w, HasFunct3 w 0b0010011#7 0b010#3 →
    decodeWord w = .slti (w.extractLsb' 7 5) (w.extractLsb' 15 5) (w.extractLsb' 20 12)) ∧
  (∀ w, HasFunct3 w 0b0010011#7 0b011#3 →
    decodeWord w = .sltiu (w.extractLsb' 7 5) (w.extractLsb' 15 5) (w.extractLsb' 20 12)) ∧
  ∀ rd rs1 imm s,
    (∃ t, exec (.slti rd rs1 imm) s = .next t ∧
      WritesAndAdvances s t rd (if (s.x rs1).toInt < imm.toInt then 1#32 else 0#32)) ∧
    (∃ t, exec (.sltiu rd rs1 imm) s = .next t ∧
      WritesAndAdvances s t rd (if (s.x rs1).toNat < (imm.signExtend 32).toNat then 1#32 else 0#32))

/-- R134, R135, R136. -/
def Obligations.XoriOriAndiAreBitwise : Prop :=
  (∀ w, HasFunct3 w 0b0010011#7 0b100#3 →
    decodeWord w = .xori (w.extractLsb' 7 5) (w.extractLsb' 15 5) (w.extractLsb' 20 12)) ∧
  (∀ w, HasFunct3 w 0b0010011#7 0b110#3 →
    decodeWord w = .ori (w.extractLsb' 7 5) (w.extractLsb' 15 5) (w.extractLsb' 20 12)) ∧
  (∀ w, HasFunct3 w 0b0010011#7 0b111#3 →
    decodeWord w = .andi (w.extractLsb' 7 5) (w.extractLsb' 15 5) (w.extractLsb' 20 12)) ∧
  ∀ rd rs1 imm s,
    (∃ t, exec (.xori rd rs1 imm) s = .next t ∧ WritesAndAdvances s t rd (s.x rs1 ^^^ imm.signExtend 32)) ∧
    (∃ t, exec (.ori rd rs1 imm) s = .next t ∧ WritesAndAdvances s t rd (s.x rs1 ||| imm.signExtend 32)) ∧
    (∃ t, exec (.andi rd rs1 imm) s = .next t ∧ WritesAndAdvances s t rd (s.x rs1 &&& imm.signExtend 32))

/-- R137, R138: the whole sign-extended immediate is the amount; an amount of 32 or more gives 0: decisions D6 and D7 of
92_eei_decisions.md (log 8). -/
def Obligations.SlliAndSrliShiftByTheWholeImmediate : Prop :=
  (∀ w, HasFunct3 w 0b0010011#7 0b001#3 →
    decodeWord w = .slli (w.extractLsb' 7 5) (w.extractLsb' 15 5) (w.extractLsb' 20 12)) ∧
  (∀ w, HasFunct3 w 0b0010011#7 0b101#3 → w.extractLsb' 25 7 ≠ 0b0100000#7 →
    decodeWord w = .srli (w.extractLsb' 7 5) (w.extractLsb' 15 5) (w.extractLsb' 20 12)) ∧
  ∀ rd rs1 imm s,
    (∃ t, exec (.slli rd rs1 imm) s = .next t ∧
      WritesAndAdvances s t rd
        (if imm.toNat < 32 then BitVec.ofNat 32 ((s.x rs1).toNat * 2 ^ imm.toNat) else 0#32)) ∧
    (∃ t, exec (.srli rd rs1 imm) s = .next t ∧
      WritesAndAdvances s t rd
        (if imm.toNat < 32 then BitVec.ofNat 32 ((s.x rs1).toNat / 2 ^ imm.toNat) else 0#32))

/-- R139: the SRAI encoding writes 0 for every source and every shamt: decisions D5 and D6 of 92_eei_decisions.md
(log 8, log 9). -/
def Obligations.SraiEncodingWritesZero : Prop :=
  (∀ w, HasFunct3 w 0b0010011#7 0b101#3 → w.extractLsb' 25 7 = 0b0100000#7 →
    decodeWord w = .srai (w.extractLsb' 7 5) (w.extractLsb' 15 5) (w.extractLsb' 20 5)) ∧
  ∀ rd rs1 shamt s, ∃ t, exec (.srai rd rs1 shamt) s = .next t ∧ WritesAndAdvances s t rd 0#32

/-! ## Register-register ALU instructions (44_alu_register.md) -/

/-- R151, R152. -/
def Obligations.AddAndSubWrap : Prop :=
  (∀ w, HasFunct3 w 0b0110011#7 0b000#3 → w.extractLsb' 25 7 ≠ 0b0100000#7 →
    decodeWord w = .add (w.extractLsb' 25 7) (w.extractLsb' 7 5) (w.extractLsb' 15 5) (w.extractLsb' 20 5)) ∧
  (∀ w, HasFunct3 w 0b0110011#7 0b000#3 → w.extractLsb' 25 7 = 0b0100000#7 →
    decodeWord w = .sub (w.extractLsb' 7 5) (w.extractLsb' 15 5) (w.extractLsb' 20 5)) ∧
  ∀ funct7 rd rs1 rs2 s,
    (∃ t, exec (.add funct7 rd rs1 rs2) s = .next t ∧
      WritesAndAdvances s t rd (BitVec.ofNat 32 ((s.x rs1).toNat + (s.x rs2).toNat))) ∧
    (∃ t, exec (.sub rd rs1 rs2) s = .next t ∧
      WritesAndAdvances s t rd (BitVec.ofInt 32 ((s.x rs1).toNat - (s.x rs2).toNat)))

/-- R153, R157, R158: the whole second operand is the amount, and the SRA encoding is a logical shift: decisions D6 and D5
of 92_eei_decisions.md (log 8, log 9). -/
def Obligations.RegisterShiftsUseTheWholeAmount : Prop :=
  (∀ w, HasFunct3 w 0b0110011#7 0b001#3 →
    decodeWord w = .sll (w.extractLsb' 25 7) (w.extractLsb' 7 5) (w.extractLsb' 15 5) (w.extractLsb' 20 5)) ∧
  (∀ w, HasFunct3 w 0b0110011#7 0b101#3 → w.extractLsb' 25 7 ≠ 0b0100000#7 →
    decodeWord w = .srl (w.extractLsb' 25 7) (w.extractLsb' 7 5) (w.extractLsb' 15 5) (w.extractLsb' 20 5)) ∧
  (∀ w, HasFunct3 w 0b0110011#7 0b101#3 → w.extractLsb' 25 7 = 0b0100000#7 →
    decodeWord w = .sra (w.extractLsb' 7 5) (w.extractLsb' 15 5) (w.extractLsb' 20 5)) ∧
  ∀ funct7 rd rs1 rs2 s,
    (∃ t, exec (.sll funct7 rd rs1 rs2) s = .next t ∧
      WritesAndAdvances s t rd
        (if (s.x rs2).toNat < 32 then BitVec.ofNat 32 ((s.x rs1).toNat * 2 ^ (s.x rs2).toNat) else 0#32)) ∧
    (∃ t, exec (.srl funct7 rd rs1 rs2) s = .next t ∧
      WritesAndAdvances s t rd
        (if (s.x rs2).toNat < 32 then BitVec.ofNat 32 ((s.x rs1).toNat / 2 ^ (s.x rs2).toNat) else 0#32)) ∧
    (∃ t, exec (.sra rd rs1 rs2) s = .next t ∧
      WritesAndAdvances s t rd
        (if (s.x rs2).toNat < 32 then BitVec.ofNat 32 ((s.x rs1).toNat / 2 ^ (s.x rs2).toNat) else 0#32))

/-- R154, R155. -/
def Obligations.SltAndSltuCompareRegisters : Prop :=
  (∀ w, HasFunct3 w 0b0110011#7 0b010#3 →
    decodeWord w = .slt (w.extractLsb' 25 7) (w.extractLsb' 7 5) (w.extractLsb' 15 5) (w.extractLsb' 20 5)) ∧
  (∀ w, HasFunct3 w 0b0110011#7 0b011#3 →
    decodeWord w = .sltu (w.extractLsb' 25 7) (w.extractLsb' 7 5) (w.extractLsb' 15 5) (w.extractLsb' 20 5)) ∧
  ∀ funct7 rd rs1 rs2 s,
    (∃ t, exec (.slt funct7 rd rs1 rs2) s = .next t ∧
      WritesAndAdvances s t rd (if (s.x rs1).toInt < (s.x rs2).toInt then 1#32 else 0#32)) ∧
    (∃ t, exec (.sltu funct7 rd rs1 rs2) s = .next t ∧
      WritesAndAdvances s t rd (if (s.x rs1).toNat < (s.x rs2).toNat then 1#32 else 0#32))

/-- R156, R159, R160. -/
def Obligations.XorOrAndAreBitwise : Prop :=
  (∀ w, HasFunct3 w 0b0110011#7 0b100#3 →
    decodeWord w = .xor (w.extractLsb' 25 7) (w.extractLsb' 7 5) (w.extractLsb' 15 5) (w.extractLsb' 20 5)) ∧
  (∀ w, HasFunct3 w 0b0110011#7 0b110#3 →
    decodeWord w = .or (w.extractLsb' 25 7) (w.extractLsb' 7 5) (w.extractLsb' 15 5) (w.extractLsb' 20 5)) ∧
  (∀ w, HasFunct3 w 0b0110011#7 0b111#3 →
    decodeWord w = .and (w.extractLsb' 25 7) (w.extractLsb' 7 5) (w.extractLsb' 15 5) (w.extractLsb' 20 5)) ∧
  ∀ funct7 rd rs1 rs2 s,
    (∃ t, exec (.xor funct7 rd rs1 rs2) s = .next t ∧ WritesAndAdvances s t rd (s.x rs1 ^^^ s.x rs2)) ∧
    (∃ t, exec (.or funct7 rd rs1 rs2) s = .next t ∧ WritesAndAdvances s t rd (s.x rs1 ||| s.x rs2)) ∧
    (∃ t, exec (.and funct7 rd rs1 rs2) s = .next t ∧ WritesAndAdvances s t rd (s.x rs1 &&& s.x rs2))

/-! ## Control-transfer instructions (45_control_transfer.md) -/

/-- R170. -/
def Obligations.JalLinksAndJumps : Prop :=
  (∀ w, HasOpcode w 0b1101111#7 → decodeWord w = .jal (w.extractLsb' 7 5) (jImmediate w)) ∧
  ∀ rd imm s, ∃ t, exec (.jal rd imm) s = .next t ∧ WritesReg s t rd (s.pc + 4#32) ∧
    t.pc = BitVec.ofInt 32 (s.pc.toNat + imm.toInt) ∧ KeepsMemory s t ∧ GoesOn s t []

/-- R171: the old x[rs1] forms the target, bit 0 is kept, funct3 is not examined: decisions D9 and D10 of
92_eei_decisions.md (log 11). -/
def Obligations.JalrLinksAndJumpsToTheSum : Prop :=
  (∀ w, HasOpcode w 0b1100111#7 →
    decodeWord w = .jalr (w.extractLsb' 12 3) (w.extractLsb' 7 5) (w.extractLsb' 15 5) (w.extractLsb' 20 12)) ∧
  ∀ funct3 rd rs1 imm s, ∃ t, exec (.jalr funct3 rd rs1 imm) s = .next t ∧ WritesReg s t rd (s.pc + 4#32) ∧
    t.pc = BitVec.ofInt 32 ((s.x rs1).toNat + imm.toInt) ∧ KeepsMemory s t ∧ GoesOn s t []

/-- R172 to R178: the six branches move the pc by their immediate when their condition holds, by 4 when it does not,
and change nothing else. -/
def Obligations.BranchesTestTheirConditions : Prop :=
  (∀ w, HasFunct3 w 0b1100011#7 0b000#3 →
    decodeWord w = .beq (w.extractLsb' 15 5) (w.extractLsb' 20 5) (bImmediate w)) ∧
  (∀ w, HasFunct3 w 0b1100011#7 0b001#3 →
    decodeWord w = .bne (w.extractLsb' 15 5) (w.extractLsb' 20 5) (bImmediate w)) ∧
  (∀ w, HasFunct3 w 0b1100011#7 0b100#3 →
    decodeWord w = .blt (w.extractLsb' 15 5) (w.extractLsb' 20 5) (bImmediate w)) ∧
  (∀ w, HasFunct3 w 0b1100011#7 0b101#3 →
    decodeWord w = .bge (w.extractLsb' 15 5) (w.extractLsb' 20 5) (bImmediate w)) ∧
  (∀ w, HasFunct3 w 0b1100011#7 0b110#3 →
    decodeWord w = .bltu (w.extractLsb' 15 5) (w.extractLsb' 20 5) (bImmediate w)) ∧
  (∀ w, HasFunct3 w 0b1100011#7 0b111#3 →
    decodeWord w = .bgeu (w.extractLsb' 15 5) (w.extractLsb' 20 5) (bImmediate w)) ∧
  ∀ rs1 rs2 imm s,
    (∃ t, exec (.beq rs1 rs2 imm) s = .next t ∧
      OnlyMovesPc s t (if s.x rs1 = s.x rs2 then s.pc + imm.signExtend 32 else s.pc + 4#32) []) ∧
    (∃ t, exec (.bne rs1 rs2 imm) s = .next t ∧
      OnlyMovesPc s t (if s.x rs1 = s.x rs2 then s.pc + 4#32 else s.pc + imm.signExtend 32) []) ∧
    (∃ t, exec (.blt rs1 rs2 imm) s = .next t ∧
      OnlyMovesPc s t (if (s.x rs1).toInt < (s.x rs2).toInt then s.pc + imm.signExtend 32 else s.pc + 4#32) []) ∧
    (∃ t, exec (.bge rs1 rs2 imm) s = .next t ∧
      OnlyMovesPc s t (if (s.x rs2).toInt ≤ (s.x rs1).toInt then s.pc + imm.signExtend 32 else s.pc + 4#32) []) ∧
    (∃ t, exec (.bltu rs1 rs2 imm) s = .next t ∧
      OnlyMovesPc s t (if (s.x rs1).toNat < (s.x rs2).toNat then s.pc + imm.signExtend 32 else s.pc + 4#32) []) ∧
    (∃ t, exec (.bgeu rs1 rs2 imm) s = .next t ∧
      OnlyMovesPc s t (if (s.x rs2).toNat ≤ (s.x rs1).toNat then s.pc + imm.signExtend 32 else s.pc + 4#32) [])

/-! ## Load and store instructions (46_load_store.md) -/

/-- R190, R193: in observe mode every LOAD word reports its address and does nothing else. That no address is checked is
the spec's own inference, the event in the state the model's (log 14, log 3). -/
def Obligations.ObservedLoadOnlyReportsTheAddress : Prop :=
  (∀ w, HasOpcode w 0b0000011#7 →
    decodeWord w ∈
      [.lb (w.extractLsb' 7 5) (w.extractLsb' 15 5) (w.extractLsb' 20 12),
       .lh (w.extractLsb' 7 5) (w.extractLsb' 15 5) (w.extractLsb' 20 12),
       .lw (w.extractLsb' 7 5) (w.extractLsb' 15 5) (w.extractLsb' 20 12),
       .lbu (w.extractLsb' 7 5) (w.extractLsb' 15 5) (w.extractLsb' 20 12),
       .lhu (w.extractLsb' 7 5) (w.extractLsb' 15 5) (w.extractLsb' 20 12),
       .loadOther (w.extractLsb' 12 3) (w.extractLsb' 7 5) (w.extractLsb' 15 5) (w.extractLsb' 20 12)]) ∧
  ∀ (funct3 : BitVec 3) (rd rs1 : RegIdx) (imm : BitVec 12) (s : State), s.cfg.loadStoreMode = .observe →
    ∀ i ∈ [Instr.lb rd rs1 imm, .lh rd rs1 imm, .lw rd rs1 imm, .lbu rd rs1 imm, .lhu rd rs1 imm,
        .loadOther funct3 rd rs1 imm],
      ∃ t, exec i s = .next t ∧ OnlyMovesPc s t (s.pc + 4#32) [.load (s.x rs1 + imm.signExtend 32)]

/-- R191, R193: in observe mode every STORE word reports its address and the whole register, and does nothing else. The
whole register is decision D16 (log 14), the event in the state the model's (log 3). -/
def Obligations.ObservedStoreOnlyReportsAddressAndValue : Prop :=
  (∀ w, HasOpcode w 0b0100011#7 →
    decodeWord w ∈
      [.sb (w.extractLsb' 20 5) (w.extractLsb' 15 5) (sImmediate w),
       .sh (w.extractLsb' 20 5) (w.extractLsb' 15 5) (sImmediate w),
       .sw (w.extractLsb' 20 5) (w.extractLsb' 15 5) (sImmediate w),
       .storeOther (w.extractLsb' 12 3) (w.extractLsb' 20 5) (w.extractLsb' 15 5) (sImmediate w)]) ∧
  ∀ (funct3 : BitVec 3) (rs2 rs1 : RegIdx) (imm : BitVec 12) (s : State), s.cfg.loadStoreMode = .observe →
    ∀ i ∈ [Instr.sb rs2 rs1 imm, .sh rs2 rs1 imm, .sw rs2 rs1 imm, .storeOther funct3 rs2 rs1 imm],
      ∃ t, exec i s = .next t ∧
        OnlyMovesPc s t (s.pc + 4#32) [.store (s.x rs1 + imm.signExtend 32) (s.x rs2)]

/-- R205 to R209: a load in perform mode whose bytes are in range writes the sign- or zero-extended little-endian
value at its address: decision D17 of 92_eei_decisions.md (log 15). -/
def Obligations.PerformedLoadsExtendTheirBytes : Prop :=
  (∀ w, HasFunct3 w 0b0000011#7 0b000#3 →
    decodeWord w = .lb (w.extractLsb' 7 5) (w.extractLsb' 15 5) (w.extractLsb' 20 12)) ∧
  (∀ w, HasFunct3 w 0b0000011#7 0b001#3 →
    decodeWord w = .lh (w.extractLsb' 7 5) (w.extractLsb' 15 5) (w.extractLsb' 20 12)) ∧
  (∀ w, HasFunct3 w 0b0000011#7 0b010#3 →
    decodeWord w = .lw (w.extractLsb' 7 5) (w.extractLsb' 15 5) (w.extractLsb' 20 12)) ∧
  (∀ w, HasFunct3 w 0b0000011#7 0b100#3 →
    decodeWord w = .lbu (w.extractLsb' 7 5) (w.extractLsb' 15 5) (w.extractLsb' 20 12)) ∧
  (∀ w, HasFunct3 w 0b0000011#7 0b101#3 →
    decodeWord w = .lhu (w.extractLsb' 7 5) (w.extractLsb' 15 5) (w.extractLsb' 20 12)) ∧
  ∀ (rd rs1 : RegIdx) (imm : BitVec 12) (s : State) (ea : Word) (b : Byte) (h : BitVec 16),
    s.cfg.loadStoreMode = .perform → ea = s.x rs1 + imm.signExtend 32 → b = s.mem.read ea.toNat →
    h = b.setWidth 16 ||| (s.mem.read (ea.toNat + 1)).setWidth 16 <<< 8 →
    (∀ p ∈ [(Instr.lb rd rs1 imm, b.signExtend 32), (.lbu rd rs1 imm, b.setWidth 32)], InRange s.cfg ea 1 →
      ∃ t, exec p.1 s = .next t ∧ WritesReg s t rd p.2 ∧
        t.pc = s.pc + 4#32 ∧ KeepsMemory s t ∧ GoesOn s t [.load ea]) ∧
    (∀ p ∈ [(Instr.lh rd rs1 imm, h.signExtend 32), (.lhu rd rs1 imm, h.setWidth 32)], InRange s.cfg ea 2 →
      ∃ t, exec p.1 s = .next t ∧ WritesReg s t rd p.2 ∧
        t.pc = s.pc + 4#32 ∧ KeepsMemory s t ∧ GoesOn s t [.load ea]) ∧
    (InRange s.cfg ea 4 →
      ∃ t v, exec (.lw rd rs1 imm) s = .next t ∧ s.read32 ea = .ok v ∧ WritesReg s t rd v ∧
        t.pc = s.pc + 4#32 ∧ KeepsMemory s t ∧ GoesOn s t [.load ea])

/-- R210, R211, R212: a store in perform mode puts the low bytes of x[rs2] at the address, lowest first, and changes
no other byte: decision D17 of 92_eei_decisions.md (log 15). -/
def Obligations.PerformedStoresWriteTheLowBytes : Prop :=
  (∀ w, HasFunct3 w 0b0100011#7 0b000#3 →
    decodeWord w = .sb (w.extractLsb' 20 5) (w.extractLsb' 15 5) (sImmediate w)) ∧
  (∀ w, HasFunct3 w 0b0100011#7 0b001#3 →
    decodeWord w = .sh (w.extractLsb' 20 5) (w.extractLsb' 15 5) (sImmediate w)) ∧
  (∀ w, HasFunct3 w 0b0100011#7 0b010#3 →
    decodeWord w = .sw (w.extractLsb' 20 5) (w.extractLsb' 15 5) (sImmediate w)) ∧
  ∀ (rs2 rs1 : RegIdx) (imm : BitVec 12) (s : State) (ea : Word), s.mem.wf = true →
    s.cfg.loadStoreMode = .perform → ea = s.x rs1 + imm.signExtend 32 →
    ∀ p ∈ [(Instr.sb rs2 rs1 imm, 1), (.sh rs2 rs1 imm, 2), (.sw rs2 rs1 imm, 4)], InRange s.cfg ea p.2 →
      ∃ t, exec p.1 s = .next t ∧
        (∀ k, k < p.2 → t.mem.read (ea.toNat + k) = (s.x rs2).extractLsb' (8 * k) 8) ∧
        KeepsMemoryOutside s t ea.toNat p.2 ∧ KeepsRegs s t ∧ t.pc = s.pc + 4#32 ∧ GoesOn s t [.store ea (s.x rs2)]

/-- R204: in perform mode an access that is not wholly in range is OutOfBounds(ea) after the trace event, with no
register and no byte written and the pc on the instruction: decision D17 of 92_eei_decisions.md (log 15). -/
def Obligations.PerformedAccessOutOfRangeIsFatal : Prop :=
  ∀ (rd rs1 : RegIdx) (imm : BitVec 12) (s : State) (ea : Word), s.cfg.loadStoreMode = .perform →
    ea = s.x rs1 + imm.signExtend 32 →
    (∀ p ∈ [(Instr.lb rd rs1 imm, 1), (.lh rd rs1 imm, 2), (.lw rd rs1 imm, 4), (.lbu rd rs1 imm, 1),
        (.lhu rd rs1 imm, 2)], ¬ InRange s.cfg ea p.2 →
      ∃ t, exec p.1 s = .next t ∧ EndsRun s t (.faulted (.outOfBounds ea)) [.load ea]) ∧
    (∀ p ∈ [(Instr.sb rd rs1 imm, 1), (.sh rd rs1 imm, 2), (.sw rd rs1 imm, 4)], ¬ InRange s.cfg ea p.2 →
      ∃ t, exec p.1 s = .next t ∧ EndsRun s t (.faulted (.outOfBounds ea)) [.store ea (s.x rd)])

/-- R213, decision D17 of 92_eei_decisions.md (log 15): in perform mode a LOAD or STORE word whose funct3 names no width
is UnsupportedEncoding after its event. -/
def Obligations.PerformedAccessOfNoWidthIsUnsupported : Prop :=
  ∀ (w : Word) (s : State), s.cfg.loadStoreMode = .perform →
    (HasOpcode w 0b0000011#7 → w.extractLsb' 12 3 ∈ [0b011#3, 0b110#3, 0b111#3] →
      ∃ t, exec (decodeWord w) s = .next t ∧
        EndsRun s t (.faulted (.unsupportedEncoding w)) [.load (wordAddress s w)]) ∧
    (HasOpcode w 0b0100011#7 → w.extractLsb' 12 3 ∈ [0b011#3, 0b100#3, 0b101#3, 0b110#3, 0b111#3] →
      ∃ t, exec (decodeWord w) s = .next t ∧
        EndsRun s t (.faulted (.unsupportedEncoding w)) [.store (wordAddress s w) (s.x (w.extractLsb' 20 5))])

/-! ## MISC and SYSTEM (47_misc_system.md) -/

/-- R220: every MISC word is a no-op, whatever its fields. -/
def Obligations.FencesOnlyAdvance : Prop :=
  (∀ (w : Word) (s : State), HasOpcode w 0b0001111#7 →
    ∃ t, exec (decodeWord w) s = .next t ∧ OnlyMovesPc s t (s.pc + 4#32) []) ∧
  ∀ (funct3 : BitVec 3) (imm : BitVec 12) (rs1 rd : RegIdx) (s : State),
    ∀ i ∈ [Instr.fenceI imm rs1 rd, .fence funct3 imm rs1 rd],
      ∃ t, exec i s = .next t ∧ OnlyMovesPc s t (s.pc + 4#32) []

/-- R222, R230, R244: every SYSTEM word with funct3 000, the EBREAK, SRET, MRET and WFI words among them, reports the
code of the ECALL register; with code 0 or 1 the run goes on at pc + 4, with a code above 1, compared unsigned, it
ends in ConformanceFailure(code). All SYSTEM words with funct3 000 alike is decision D15 (log 13), the event before the
check D19 (log 17). -/
def Obligations.EcallChecksTheCode : Prop :=
  ∀ (s : State) (code : Word), code = s.x s.cfg.ecallReg →
    (code.toNat ≤ 1 →
      (∀ w, HasFunct3 w 0b1110011#7 0b000#3 →
        ∃ t, exec (decodeWord w) s = .next t ∧ OnlyMovesPc s t (s.pc + 4#32) [.ecall code]) ∧
      ∀ (imm : BitVec 12) (rs1 rd : RegIdx), ∀ i ∈ [Instr.ecall imm rs1 rd, .ebreak, .sret, .mret, .wfi],
        ∃ t, exec i s = .next t ∧ OnlyMovesPc s t (s.pc + 4#32) [.ecall code]) ∧
    (1 < code.toNat →
      (∀ w, HasFunct3 w 0b1110011#7 0b000#3 →
        ∃ t, exec (decodeWord w) s = .next t ∧
          EndsRun s t (.faulted (.conformanceFailure code)) [.ecall code]) ∧
      ∀ (imm : BitVec 12) (rs1 rd : RegIdx), ∀ i ∈ [Instr.ecall imm rs1 rd, .ebreak, .sret, .mret, .wfi],
        ∃ t, exec i s = .next t ∧ EndsRun s t (.faulted (.conformanceFailure code)) [.ecall code])

/-- R223, R224, R225: CSRRW halts for csr 3072 and is otherwise observed only, whatever rd and rs1 are; CSRRS and CSRRC
have no effect for every csr value, 3072 included. -/
def Obligations.RegisterCsrInstructionsHaltOrHaveNoEffect : Prop :=
  (∀ w, HasFunct3 w 0b1110011#7 0b001#3 →
    decodeWord w = .csrrw (w.extractLsb' 7 5) (w.extractLsb' 20 12) (w.extractLsb' 15 5)) ∧
  (∀ w, HasFunct3 w 0b1110011#7 0b010#3 →
    decodeWord w = .csrrs (w.extractLsb' 7 5) (w.extractLsb' 20 12) (w.extractLsb' 15 5)) ∧
  (∀ w, HasFunct3 w 0b1110011#7 0b011#3 →
    decodeWord w = .csrrc (w.extractLsb' 7 5) (w.extractLsb' 20 12) (w.extractLsb' 15 5)) ∧
  ∀ (rd rs1 : RegIdx) (csr : BitVec 12) (s : State),
    (∃ t, exec (.csrrw rd csr rs1) s = .next t ∧
      (csr.toNat = 3072 → EndsRun s t .halted []) ∧ (csr.toNat ≠ 3072 → OnlyMovesPc s t (s.pc + 4#32) [])) ∧
    ∀ i ∈ [Instr.csrrs rd csr rs1, .csrrc rd csr rs1],
      ∃ t, exec i s = .next t ∧ OnlyMovesPc s t (s.pc + 4#32) []

/-- R226 to R228: the three immediate CSR instructions have no effect for every csr value. That this holds at 3072 too
is decision D14 of 92_eei_decisions.md (log 7). -/
def Obligations.ImmediateCsrInstructionsHaveNoEffect : Prop :=
  (∀ w, HasFunct3 w 0b1110011#7 0b101#3 →
    decodeWord w = .csrrwi (w.extractLsb' 7 5) (w.extractLsb' 20 12) (w.extractLsb' 15 5)) ∧
  (∀ w, HasFunct3 w 0b1110011#7 0b110#3 →
    decodeWord w = .csrrsi (w.extractLsb' 7 5) (w.extractLsb' 20 12) (w.extractLsb' 15 5)) ∧
  (∀ w, HasFunct3 w 0b1110011#7 0b111#3 →
    decodeWord w = .csrrci (w.extractLsb' 7 5) (w.extractLsb' 20 12) (w.extractLsb' 15 5)) ∧
  ∀ (rd : RegIdx) (csr : BitVec 12) (uimm : BitVec 5) (s : State),
    ∀ i ∈ [Instr.csrrwi rd csr uimm, .csrrsi rd csr uimm, .csrrci rd csr uimm],
      ∃ t, exec i s = .next t ∧ OnlyMovesPc s t (s.pc + 4#32) []

/-- R179, R229: a BRANCH word with funct3 010 or 011 and a SYSTEM word with funct3 100 end the run with
UnsupportedEncoding of the word, and no register, byte or pc changes; the diagnostic has the register dump. The same
of a word with an unenumerated opcode (R66 (a)). That exec carries the encoding of the instruction, for every operand,
is the model's (log 27, log 22), and so is the diagnostic's form (log 25). -/
def Obligations.UnsupportedWordsEndTheRun : Prop :=
  ∀ (w : Word) (s : State),
    (HasOpcode w 0b1100011#7 → w.extractLsb' 12 3 ∈ [0b010#3, 0b011#3] →
      decodeWord w =
        .branchReserved (w.extractLsb' 12 3) (w.extractLsb' 15 5) (w.extractLsb' 20 5) (bImmediate w) ∧
      ∃ t, exec (decodeWord w) s = .next t ∧ EndsRun s t (.faulted (.unsupportedEncoding w)) [] ∧
        t.diagnostic = some ⟨.unsupportedEncoding w, some s.dump⟩) ∧
    (HasFunct3 w 0b1110011#7 0b100#3 →
      decodeWord w = .systemReserved (w.extractLsb' 20 12) (w.extractLsb' 15 5) (w.extractLsb' 7 5) ∧
      ∃ t, exec (decodeWord w) s = .next t ∧ EndsRun s t (.faulted (.unsupportedEncoding w)) [] ∧
        t.diagnostic = some ⟨.unsupportedEncoding w, some s.dump⟩) ∧
    (w.extractLsb' 0 7 ∉
        [0x37#7, 0x17#7, 0x6F#7, 0x67#7, 0x63#7, 0x03#7, 0x23#7, 0x13#7, 0x33#7, 0x0F#7, 0x73#7] →
      decodeWord w = .illegal w) ∧
    (∃ t, exec (.illegal w) s = .next t ∧ EndsRun s t (.faulted (.unsupportedEncoding w)) [] ∧
      t.diagnostic = some ⟨.unsupportedEncoding w, some s.dump⟩) ∧
    ∀ (funct3 : BitVec 3) (rs1 rs2 rd : RegIdx) (imm : BitVec 13) (imm12 : BitVec 12),
      ∀ i ∈ [Instr.branchReserved funct3 rs1 rs2 imm, .systemReserved imm12 rs1 rd],
        ∃ t, exec i s = .next t ∧ EndsRun s t (.faulted (.unsupportedEncoding (encode i))) [] ∧
          t.diagnostic = some ⟨.unsupportedEncoding (encode i), some s.dump⟩

/-! ## Diagnostics (60_exceptions.md section 6) -/

/-- R253: the dump shows the 33 entries in index order, eight to a line, each under its name of R16 and as eight digits
that spell its value; R251: a run that ended OutOfBounds or UnsupportedEncoding shows it, one that ended
ConformanceFailure shows a diagnostic without it, and a run that goes on or halted shows none. The names and the lines
are the spec's own additions, the diagnostic's form the model's (log 25). -/
def Obligations.DumpShowsTheRegisterFile : Prop :=
  ∀ s : State,
    s.dump.length = 33 ∧ (∀ i : Fin 33, s.dump[i.val]? = some (s.getReg i)) ∧ s.dump[32]? = some s.pc ∧
    s.dumpLines.map List.length = [8, 8, 8, 8, 1] ∧
    s.dumpLines.flatten =
      ["zero", "ra", "sp", "gp", "tp", "t0", "t1", "t2", "s0", "s1", "a0", "a1", "a2", "a3", "a4", "a5", "a6", "a7",
        "s2", "s3", "s4", "s5", "s6", "s7", "s8", "s9", "s10", "s11", "t3", "t4", "t5", "t6", "PC"].zip
        (s.dump.map hexDigits) ∧
    (∀ v : Word, (hexDigits v).length = 8 ∧ (hexDigits v).foldl (fun n d => 16 * n + d.toNat) 0 = v.toNat) ∧
    (∀ a, s.run = .faulted (.outOfBounds a) → s.diagnostic = some ⟨.outOfBounds a, some s.dump⟩) ∧
    (∀ w, s.run = .faulted (.unsupportedEncoding w) → s.diagnostic = some ⟨.unsupportedEncoding w, some s.dump⟩) ∧
    (∀ c, s.run = .faulted (.conformanceFailure c) → s.diagnostic = some ⟨.conformanceFailure c, none⟩) ∧
    (s.run = .running ∨ s.run = .halted → s.diagnostic = none)
end

