-- ==== Sys2Proof/Laws/Decode.lean ====
section
/-! SUPPORT. The formats and the fields are inverse to each other (30_encoding.md R52 to R59): what each field
reads in a word built by a format, and that a format rebuilds a word from its fields. Then the opcode
numbers: each class's number decodes to the class, and no other number to any (R51). -/

namespace Sys2Proof.Machine

/-! ## The fields as bit ranges -/

theorem opcodeOf_eq (w : Word) : opcodeOf w = w.extractLsb' 0 7 := rfl
theorem rdOf_eq (w : Word) : rdOf w = w.extractLsb' 7 5 := rfl
theorem funct3Of_eq (w : Word) : funct3Of w = w.extractLsb' 12 3 := rfl
theorem rs1Of_eq (w : Word) : rs1Of w = w.extractLsb' 15 5 := rfl
theorem rs2Of_eq (w : Word) : rs2Of w = w.extractLsb' 20 5 := rfl
theorem funct7Of_eq (w : Word) : funct7Of w = w.extractLsb' 25 7 := rfl
theorem immIOf_eq (w : Word) : immIOf w = w.extractLsb' 20 12 := rfl
theorem immUOf_eq (w : Word) : immUOf w = w.extractLsb' 12 20 := rfl
theorem immSOf_eq (w : Word) :
    immSOf w = (w.extractLsb' 25 7).setWidth 12 <<< 5 ||| (w.extractLsb' 7 5).setWidth 12 := rfl
theorem immBOf_eq (w : Word) :
    immBOf w = (w.extractLsb' 31 1).setWidth 13 <<< 12 ||| (w.extractLsb' 7 1).setWidth 13 <<< 11 |||
      (w.extractLsb' 25 6).setWidth 13 <<< 5 ||| (w.extractLsb' 8 4).setWidth 13 <<< 1 := rfl
theorem immJOf_eq (w : Word) :
    immJOf w = (w.extractLsb' 31 1).setWidth 21 <<< 20 ||| (w.extractLsb' 12 8).setWidth 21 <<< 12 |||
      (w.extractLsb' 20 1).setWidth 21 <<< 11 ||| (w.extractLsb' 21 10).setWidth 21 <<< 1 := rfl

/-! ## A field of a word built by a format -/

@[simp] theorem opcodeOf_encR (funct7 : BitVec 7) (rs2 rs1 : RegIdx) (funct3 : BitVec 3) (rd : RegIdx) (c : OpClass) :
    opcodeOf (encR funct7 rs2 rs1 funct3 rd c) = c.opcode := by
  rw [opcodeOf_eq]
  apply BitVec.eq_of_getLsbD_eq
  intro i hi
  interval_cases i <;> simp [encR, place]

@[simp] theorem rdOf_encR (funct7 : BitVec 7) (rs2 rs1 : RegIdx) (funct3 : BitVec 3) (rd : RegIdx) (c : OpClass) :
    rdOf (encR funct7 rs2 rs1 funct3 rd c) = rd := by
  rw [rdOf_eq]
  apply BitVec.eq_of_getLsbD_eq
  intro i hi
  interval_cases i <;> simp [encR, place]

@[simp] theorem funct3Of_encR (funct7 : BitVec 7) (rs2 rs1 : RegIdx) (funct3 : BitVec 3) (rd : RegIdx) (c : OpClass) :
    funct3Of (encR funct7 rs2 rs1 funct3 rd c) = funct3 := by
  rw [funct3Of_eq]
  apply BitVec.eq_of_getLsbD_eq
  intro i hi
  interval_cases i <;> simp [encR, place]

@[simp] theorem rs1Of_encR (funct7 : BitVec 7) (rs2 rs1 : RegIdx) (funct3 : BitVec 3) (rd : RegIdx) (c : OpClass) :
    rs1Of (encR funct7 rs2 rs1 funct3 rd c) = rs1 := by
  rw [rs1Of_eq]
  apply BitVec.eq_of_getLsbD_eq
  intro i hi
  interval_cases i <;> simp [encR, place]

@[simp] theorem rs2Of_encR (funct7 : BitVec 7) (rs2 rs1 : RegIdx) (funct3 : BitVec 3) (rd : RegIdx) (c : OpClass) :
    rs2Of (encR funct7 rs2 rs1 funct3 rd c) = rs2 := by
  rw [rs2Of_eq]
  apply BitVec.eq_of_getLsbD_eq
  intro i hi
  interval_cases i <;> simp [encR, place]

@[simp] theorem funct7Of_encR (funct7 : BitVec 7) (rs2 rs1 : RegIdx) (funct3 : BitVec 3) (rd : RegIdx) (c : OpClass) :
    funct7Of (encR funct7 rs2 rs1 funct3 rd c) = funct7 := by
  rw [funct7Of_eq]
  apply BitVec.eq_of_getLsbD_eq
  intro i hi
  interval_cases i <;> simp [encR, place]

@[simp] theorem opcodeOf_encI (imm : BitVec 12) (rs1 : RegIdx) (funct3 : BitVec 3) (rd : RegIdx) (c : OpClass) :
    opcodeOf (encI imm rs1 funct3 rd c) = c.opcode := by
  rw [opcodeOf_eq]
  apply BitVec.eq_of_getLsbD_eq
  intro i hi
  interval_cases i <;> simp [encI, place]

@[simp] theorem rdOf_encI (imm : BitVec 12) (rs1 : RegIdx) (funct3 : BitVec 3) (rd : RegIdx) (c : OpClass) :
    rdOf (encI imm rs1 funct3 rd c) = rd := by
  rw [rdOf_eq]
  apply BitVec.eq_of_getLsbD_eq
  intro i hi
  interval_cases i <;> simp [encI, place]

@[simp] theorem funct3Of_encI (imm : BitVec 12) (rs1 : RegIdx) (funct3 : BitVec 3) (rd : RegIdx) (c : OpClass) :
    funct3Of (encI imm rs1 funct3 rd c) = funct3 := by
  rw [funct3Of_eq]
  apply BitVec.eq_of_getLsbD_eq
  intro i hi
  interval_cases i <;> simp [encI, place]

@[simp] theorem rs1Of_encI (imm : BitVec 12) (rs1 : RegIdx) (funct3 : BitVec 3) (rd : RegIdx) (c : OpClass) :
    rs1Of (encI imm rs1 funct3 rd c) = rs1 := by
  rw [rs1Of_eq]
  apply BitVec.eq_of_getLsbD_eq
  intro i hi
  interval_cases i <;> simp [encI, place]

@[simp] theorem immIOf_encI (imm : BitVec 12) (rs1 : RegIdx) (funct3 : BitVec 3) (rd : RegIdx) (c : OpClass) :
    immIOf (encI imm rs1 funct3 rd c) = imm := by
  rw [immIOf_eq]
  apply BitVec.eq_of_getLsbD_eq
  intro i hi
  interval_cases i <;> simp [encI, place]

@[simp] theorem funct7Of_encI (imm : BitVec 12) (rs1 : RegIdx) (funct3 : BitVec 3) (rd : RegIdx) (c : OpClass) :
    funct7Of (encI imm rs1 funct3 rd c) = imm.extractLsb' 5 7 := by
  rw [funct7Of_eq]
  apply BitVec.eq_of_getLsbD_eq
  intro i hi
  interval_cases i <;> simp [encI, place]

@[simp] theorem rs2Of_encI (imm : BitVec 12) (rs1 : RegIdx) (funct3 : BitVec 3) (rd : RegIdx) (c : OpClass) :
    rs2Of (encI imm rs1 funct3 rd c) = imm.extractLsb' 0 5 := by
  rw [rs2Of_eq]
  apply BitVec.eq_of_getLsbD_eq
  intro i hi
  interval_cases i <;> simp [encI, place]

@[simp] theorem opcodeOf_encS (imm : BitVec 12) (rs2 rs1 : RegIdx) (funct3 : BitVec 3) (c : OpClass) :
    opcodeOf (encS imm rs2 rs1 funct3 c) = c.opcode := by
  rw [opcodeOf_eq]
  apply BitVec.eq_of_getLsbD_eq
  intro i hi
  interval_cases i <;> simp [encS, place]

@[simp] theorem funct3Of_encS (imm : BitVec 12) (rs2 rs1 : RegIdx) (funct3 : BitVec 3) (c : OpClass) :
    funct3Of (encS imm rs2 rs1 funct3 c) = funct3 := by
  rw [funct3Of_eq]
  apply BitVec.eq_of_getLsbD_eq
  intro i hi
  interval_cases i <;> simp [encS, place]

@[simp] theorem rs1Of_encS (imm : BitVec 12) (rs2 rs1 : RegIdx) (funct3 : BitVec 3) (c : OpClass) :
    rs1Of (encS imm rs2 rs1 funct3 c) = rs1 := by
  rw [rs1Of_eq]
  apply BitVec.eq_of_getLsbD_eq
  intro i hi
  interval_cases i <;> simp [encS, place]

@[simp] theorem rs2Of_encS (imm : BitVec 12) (rs2 rs1 : RegIdx) (funct3 : BitVec 3) (c : OpClass) :
    rs2Of (encS imm rs2 rs1 funct3 c) = rs2 := by
  rw [rs2Of_eq]
  apply BitVec.eq_of_getLsbD_eq
  intro i hi
  interval_cases i <;> simp [encS, place]

@[simp] theorem immSOf_encS (imm : BitVec 12) (rs2 rs1 : RegIdx) (funct3 : BitVec 3) (c : OpClass) :
    immSOf (encS imm rs2 rs1 funct3 c) = imm := by
  rw [immSOf_eq]
  apply BitVec.eq_of_getLsbD_eq
  intro i hi
  interval_cases i <;> simp [encS, place]

@[simp] theorem opcodeOf_encB (imm : BitVec 13) (rs2 rs1 : RegIdx) (funct3 : BitVec 3) (c : OpClass) :
    opcodeOf (encB imm rs2 rs1 funct3 c) = c.opcode := by
  rw [opcodeOf_eq]
  apply BitVec.eq_of_getLsbD_eq
  intro i hi
  interval_cases i <;> simp [encB, place]

@[simp] theorem funct3Of_encB (imm : BitVec 13) (rs2 rs1 : RegIdx) (funct3 : BitVec 3) (c : OpClass) :
    funct3Of (encB imm rs2 rs1 funct3 c) = funct3 := by
  rw [funct3Of_eq]
  apply BitVec.eq_of_getLsbD_eq
  intro i hi
  interval_cases i <;> simp [encB, place]

@[simp] theorem rs1Of_encB (imm : BitVec 13) (rs2 rs1 : RegIdx) (funct3 : BitVec 3) (c : OpClass) :
    rs1Of (encB imm rs2 rs1 funct3 c) = rs1 := by
  rw [rs1Of_eq]
  apply BitVec.eq_of_getLsbD_eq
  intro i hi
  interval_cases i <;> simp [encB, place]

@[simp] theorem rs2Of_encB (imm : BitVec 13) (rs2 rs1 : RegIdx) (funct3 : BitVec 3) (c : OpClass) :
    rs2Of (encB imm rs2 rs1 funct3 c) = rs2 := by
  rw [rs2Of_eq]
  apply BitVec.eq_of_getLsbD_eq
  intro i hi
  interval_cases i <;> simp [encB, place]

@[simp] theorem opcodeOf_encU (imm : BitVec 20) (rd : RegIdx) (c : OpClass) :
    opcodeOf (encU imm rd c) = c.opcode := by
  rw [opcodeOf_eq]
  apply BitVec.eq_of_getLsbD_eq
  intro i hi
  interval_cases i <;> simp [encU, place]

@[simp] theorem rdOf_encU (imm : BitVec 20) (rd : RegIdx) (c : OpClass) :
    rdOf (encU imm rd c) = rd := by
  rw [rdOf_eq]
  apply BitVec.eq_of_getLsbD_eq
  intro i hi
  interval_cases i <;> simp [encU, place]

@[simp] theorem immUOf_encU (imm : BitVec 20) (rd : RegIdx) (c : OpClass) :
    immUOf (encU imm rd c) = imm := by
  rw [immUOf_eq]
  apply BitVec.eq_of_getLsbD_eq
  intro i hi
  interval_cases i <;> simp [encU, place]

@[simp] theorem opcodeOf_encJ (imm : BitVec 21) (rd : RegIdx) (c : OpClass) :
    opcodeOf (encJ imm rd c) = c.opcode := by
  rw [opcodeOf_eq]
  apply BitVec.eq_of_getLsbD_eq
  intro i hi
  interval_cases i <;> simp [encJ, place]

@[simp] theorem rdOf_encJ (imm : BitVec 21) (rd : RegIdx) (c : OpClass) :
    rdOf (encJ imm rd c) = rd := by
  rw [rdOf_eq]
  apply BitVec.eq_of_getLsbD_eq
  intro i hi
  interval_cases i <;> simp [encJ, place]

theorem immBOf_encB (imm : BitVec 13) (rs2 rs1 : RegIdx) (funct3 : BitVec 3) (c : OpClass) (even : imm.getLsbD 0 = false) :
    immBOf (encB imm rs2 rs1 funct3 c) = imm := by
  rw [immBOf_eq]
  apply BitVec.eq_of_getLsbD_eq
  intro i hi
  rcases Nat.eq_zero_or_pos i with rfl | hpos
  · rw [even]; simp
  · interval_cases i <;> simp [encB, place]

theorem immJOf_encJ (imm : BitVec 21) (rd : RegIdx) (c : OpClass) (even : imm.getLsbD 0 = false) :
    immJOf (encJ imm rd c) = imm := by
  rw [immJOf_eq]
  apply BitVec.eq_of_getLsbD_eq
  intro i hi
  rcases Nat.eq_zero_or_pos i with rfl | hpos
  · rw [even]; simp
  · interval_cases i <;> simp [encJ, place]

/-! ## A format rebuilds a word from its fields -/

theorem encR_fields {w : Word} {c : OpClass} (h : opcodeOf w = c.opcode) :
    encR (funct7Of w) (rs2Of w) (rs1Of w) (funct3Of w) (rdOf w) c = w := by
  simp only [encR, place, ← h, opcodeOf_eq, rdOf_eq, funct3Of_eq, rs1Of_eq, rs2Of_eq, funct7Of_eq]
  apply BitVec.eq_of_getLsbD_eq
  intro i hi
  interval_cases i <;> simp

theorem encI_fields {w : Word} {c : OpClass} (h : opcodeOf w = c.opcode) :
    encI (immIOf w) (rs1Of w) (funct3Of w) (rdOf w) c = w := by
  simp only [encI, place, ← h, opcodeOf_eq, rdOf_eq, funct3Of_eq, rs1Of_eq, immIOf_eq]
  apply BitVec.eq_of_getLsbD_eq
  intro i hi
  interval_cases i <;> simp

theorem encS_fields {w : Word} {c : OpClass} (h : opcodeOf w = c.opcode) :
    encS (immSOf w) (rs2Of w) (rs1Of w) (funct3Of w) c = w := by
  simp only [encS, place, ← h, opcodeOf_eq, funct3Of_eq, rs1Of_eq, rs2Of_eq, immSOf_eq]
  apply BitVec.eq_of_getLsbD_eq
  intro i hi
  interval_cases i <;> simp

theorem encB_fields {w : Word} {c : OpClass} (h : opcodeOf w = c.opcode) :
    encB (immBOf w) (rs2Of w) (rs1Of w) (funct3Of w) c = w := by
  simp only [encB, place, ← h, opcodeOf_eq, funct3Of_eq, rs1Of_eq, rs2Of_eq, immBOf_eq]
  apply BitVec.eq_of_getLsbD_eq
  intro i hi
  interval_cases i <;> simp

theorem encU_fields {w : Word} {c : OpClass} (h : opcodeOf w = c.opcode) :
    encU (immUOf w) (rdOf w) c = w := by
  simp only [encU, place, ← h, opcodeOf_eq, rdOf_eq, immUOf_eq]
  apply BitVec.eq_of_getLsbD_eq
  intro i hi
  interval_cases i <;> simp

theorem encJ_fields {w : Word} {c : OpClass} (h : opcodeOf w = c.opcode) :
    encJ (immJOf w) (rdOf w) c = w := by
  simp only [encJ, place, ← h, opcodeOf_eq, rdOf_eq, immJOf_eq]
  apply BitVec.eq_of_getLsbD_eq
  intro i hi
  interval_cases i <;> simp

/-- The immediate of a B word is even (30_encoding.md R56). -/
@[simp] theorem immBOf_even (w : Word) : (immBOf w)[0] = false := by
  rw [immBOf_eq]; simp

/-- The immediate of a J word is even (30_encoding.md R58). -/
@[simp] theorem immJOf_even (w : Word) : (immJOf w)[0] = false := by
  rw [immJOf_eq]; simp

/-- An I immediate is its high seven bits, in funct7's place, and its low five, in rs2's place (43_alu_immediate.md R139). -/
theorem immIOf_split (w : Word) (h : funct7Of w = 0b0100000#7) : immIOf w = sraiImm (rs2Of w) := by
  have hb : ∀ i, i < 7 → w.getLsbD (25 + i) = (0b0100000#7).getLsbD i := by
    intro i hi
    rw [← h, funct7Of_eq]
    simp [hi]
  rw [immIOf_eq, rs2Of_eq, sraiImm]
  apply BitVec.eq_of_getLsbD_eq
  intro i hi
  have h0 := hb 0 (by decide); have h1 := hb 1 (by decide); have h2 := hb 2 (by decide)
  have h3 := hb 3 (by decide); have h4 := hb 4 (by decide); have h5 := hb 5 (by decide)
  have h6 := hb 6 (by decide)
  simp at h0 h1 h2 h3 h4 h5 h6
  interval_cases i <;> simp [*]

/-! ## The opcode numbers -/

/-- Each class's number decodes to the class (30_encoding.md R51). -/
@[simp] theorem classify_opcode (c : OpClass) : classify c.opcode = some c := by cases c <;> decide

/-- A number that decodes to a class is the class's own (30_encoding.md R51). -/
theorem opcode_of_classify {o : BitVec 7} {c : OpClass} (h : classify o = some c) : o = c.opcode := by
  unfold classify at h
  repeat' split at h
  all_goals first
    | (injection h with h; subst h; assumption)
    | exact absurd h (by simp)

theorem classify_iff {o : BitVec 7} {c : OpClass} : classify o = some c ↔ o = c.opcode :=
  ⟨opcode_of_classify, fun h => h ▸ classify_opcode c⟩

/-- What the decoder answers for a word of a class. -/
theorem decodeWord_of_class {w : Word} {c : OpClass} (h : opcodeOf w = c.opcode) :
    decodeWord w = decodeClass c w := by
  rw [decodeWord, h, classify_opcode]

/-- What the decoder answers for a word of no class. -/
theorem decodeWord_of_none {w : Word} (h : classify (opcodeOf w) = none) : decodeWord w = .illegal w := by
  rw [decodeWord, h]

end Sys2Proof.Machine
end

