-- ==== Sys2Proof/Laws/State.lean ====
section
/-! SUPPORT. One lemma per field and update of State, and the read-after-write laws of the register file, so
that no later proof unfolds a record update or a register write. -/

namespace Sys2Proof.Machine

/-! ## The register index -/

theorem regIndex_inj {r q : RegIdx} : regIndex r = regIndex q ↔ r = q := by
  simp [regIndex, Fin.ext_iff, BitVec.toNat_inj]

@[simp] theorem regIndex_eq_zero {r : RegIdx} : regIndex r = 0 ↔ r = 0#5 := by
  simp [regIndex, Fin.ext_iff, BitVec.toNat_eq]

@[simp] theorem regIndex_ne_pcIndex (r : RegIdx) : regIndex r ≠ pcIndex := by
  have := r.isLt
  simp [regIndex, pcIndex, Fin.ext_iff]; omega

@[simp] theorem pcIndex_ne_regIndex (r : RegIdx) : pcIndex ≠ regIndex r := (regIndex_ne_pcIndex r).symm

@[simp] theorem pcIndex_ne_zero : pcIndex ≠ 0 := by decide

/-! ## setWord -/

@[simp] theorem cfg_setWord (s : State) (i : Fin 33) (v : Word) : (s.setWord i v).cfg = s.cfg := by
  unfold State.setWord; split <;> rfl
@[simp] theorem mem_setWord (s : State) (i : Fin 33) (v : Word) : (s.setWord i v).mem = s.mem := by
  unfold State.setWord; split <;> rfl
@[simp] theorem run_setWord (s : State) (i : Fin 33) (v : Word) : (s.setWord i v).run = s.run := by
  unfold State.setWord; split <;> rfl
@[simp] theorem trace_setWord (s : State) (i : Fin 33) (v : Word) : (s.setWord i v).trace = s.trace := by
  unfold State.setWord; split <;> rfl

/-- The register file's read after write (10_state.md R11, R12): entry 0 stays 0, the entry written holds the
value, every other entry is as before. -/
theorem getReg_setWord (s : State) (i j : Fin 33) (v : Word) :
    (s.setWord i v).getReg j = if j = 0 then 0#32 else if j = i then v else s.getReg j := by
  unfold State.getReg State.setWord
  by_cases hj : j = 0
  · simp [hj]
  · by_cases hi : i = 0
    · subst hi; simp [hj]
    · by_cases hij : j = i
      · subst hij; simp [hj]
      · have : ¬ (i : Nat) = j := fun h => hij (Fin.ext h.symm)
        simp [hj, hi, hij, this]

/-- Entry 0 as stored is never written (10_state.md R11). -/
@[simp] theorem regs_zero_setWord (s : State) (i : Fin 33) (v : Word) : (s.setWord i v).regs[0] = s.regs[0] := by
  unfold State.setWord
  split
  · rfl
  · rename_i h
    have : ¬ (i : Nat) = 0 := fun e => h (Fin.ext e)
    simp [this]

/-! ## setX and setPc -/

@[simp] theorem cfg_setX (s : State) (r : RegIdx) (v : Word) : (s.setX r v).cfg = s.cfg := cfg_setWord ..
@[simp] theorem mem_setX (s : State) (r : RegIdx) (v : Word) : (s.setX r v).mem = s.mem := mem_setWord ..
@[simp] theorem run_setX (s : State) (r : RegIdx) (v : Word) : (s.setX r v).run = s.run := run_setWord ..
@[simp] theorem trace_setX (s : State) (r : RegIdx) (v : Word) : (s.setX r v).trace = s.trace := trace_setWord ..
@[simp] theorem regs_zero_setX (s : State) (r : RegIdx) (v : Word) : (s.setX r v).regs[0] = s.regs[0] :=
  regs_zero_setWord ..
@[simp] theorem cfg_setPc (s : State) (v : Word) : (s.setPc v).cfg = s.cfg := cfg_setWord ..
@[simp] theorem mem_setPc (s : State) (v : Word) : (s.setPc v).mem = s.mem := mem_setWord ..
@[simp] theorem run_setPc (s : State) (v : Word) : (s.setPc v).run = s.run := run_setWord ..
@[simp] theorem trace_setPc (s : State) (v : Word) : (s.setPc v).trace = s.trace := trace_setWord ..
@[simp] theorem regs_zero_setPc (s : State) (v : Word) : (s.setPc v).regs[0] = s.regs[0] := regs_zero_setWord ..

/-- x0 reads zero in every state (10_state.md R11). -/
@[simp] theorem x_zero (s : State) : s.x 0#5 = 0#32 := by simp [State.x, State.getReg]

theorem x_setX (s : State) (r q : RegIdx) (v : Word) :
    (s.setX r v).x q = if q = 0#5 then 0#32 else if q = r then v else s.x q := by
  simp [State.x, State.setX, getReg_setWord, regIndex_inj]

@[simp] theorem x_setPc (s : State) (q : RegIdx) (v : Word) : (s.setPc v).x q = s.x q := by
  by_cases h : q = 0#5
  · subst h; simp
  · simp [State.x, State.setPc, getReg_setWord, h]

@[simp] theorem pc_setX (s : State) (r : RegIdx) (v : Word) : (s.setX r v).pc = s.pc := by
  simp [State.pc, State.setX, getReg_setWord]

@[simp] theorem pc_setPc (s : State) (v : Word) : (s.setPc v).pc = v := by
  simp [State.pc, State.setPc, getReg_setWord]

/-! ## advance, transfer, finish -/

@[simp] theorem cfg_advance (s : State) : s.advance.cfg = s.cfg := cfg_setPc ..
@[simp] theorem mem_advance (s : State) : s.advance.mem = s.mem := mem_setPc ..
@[simp] theorem run_advance (s : State) : s.advance.run = s.run := run_setPc ..
@[simp] theorem trace_advance (s : State) : s.advance.trace = s.trace := trace_setPc ..
@[simp] theorem regs_zero_advance (s : State) : s.advance.regs[0] = s.regs[0] := regs_zero_setPc ..
@[simp] theorem x_advance (s : State) (r : RegIdx) : s.advance.x r = s.x r := x_setPc ..
@[simp] theorem pc_advance (s : State) : s.advance.pc = s.pc + 4#32 := pc_setPc ..

@[simp] theorem cfg_transfer (s : State) (v : Word) : (s.transfer v).cfg = s.cfg := cfg_setPc ..
@[simp] theorem mem_transfer (s : State) (v : Word) : (s.transfer v).mem = s.mem := mem_setPc ..
@[simp] theorem run_transfer (s : State) (v : Word) : (s.transfer v).run = s.run := run_setPc ..
@[simp] theorem trace_transfer (s : State) (v : Word) : (s.transfer v).trace = s.trace := trace_setPc ..
@[simp] theorem regs_zero_transfer (s : State) (v : Word) : (s.transfer v).regs[0] = s.regs[0] := regs_zero_setPc ..
@[simp] theorem x_transfer (s : State) (v : Word) (r : RegIdx) : (s.transfer v).x r = s.x r := x_setPc ..
@[simp] theorem pc_transfer (s : State) (v : Word) : (s.transfer v).pc = v := pc_setPc ..

@[simp] theorem cfg_finish (s : State) (rd : RegIdx) (v : Word) : (s.finish rd v).cfg = s.cfg := by
  simp [State.finish]
@[simp] theorem mem_finish (s : State) (rd : RegIdx) (v : Word) : (s.finish rd v).mem = s.mem := by
  simp [State.finish]
@[simp] theorem run_finish (s : State) (rd : RegIdx) (v : Word) : (s.finish rd v).run = s.run := by
  simp [State.finish]
@[simp] theorem trace_finish (s : State) (rd : RegIdx) (v : Word) : (s.finish rd v).trace = s.trace := by
  simp [State.finish]
@[simp] theorem regs_zero_finish (s : State) (rd : RegIdx) (v : Word) : (s.finish rd v).regs[0] = s.regs[0] := by
  simp [State.finish]
@[simp] theorem pc_finish (s : State) (rd : RegIdx) (v : Word) : (s.finish rd v).pc = s.pc + 4#32 := by
  simp [State.finish]
theorem x_finish (s : State) (rd q : RegIdx) (v : Word) :
    (s.finish rd v).x q = if q = 0#5 then 0#32 else if q = rd then v else s.x q := by
  simp [State.finish, x_setX]

/-! ## emit, raise, halt -/

@[simp] theorem cfg_emit (s : State) (e : TraceEvent) : (s.emit e).cfg = s.cfg := rfl
@[simp] theorem regs_emit (s : State) (e : TraceEvent) : (s.emit e).regs = s.regs := rfl
@[simp] theorem mem_emit (s : State) (e : TraceEvent) : (s.emit e).mem = s.mem := rfl
@[simp] theorem run_emit (s : State) (e : TraceEvent) : (s.emit e).run = s.run := rfl
@[simp] theorem trace_emit (s : State) (e : TraceEvent) : (s.emit e).trace = s.trace ++ [e] := rfl
@[simp] theorem x_emit (s : State) (e : TraceEvent) (r : RegIdx) : (s.emit e).x r = s.x r := rfl
@[simp] theorem pc_emit (s : State) (e : TraceEvent) : (s.emit e).pc = s.pc := rfl

@[simp] theorem cfg_raise (s : State) (f : Fatal) : (s.raise f).cfg = s.cfg := rfl
@[simp] theorem regs_raise (s : State) (f : Fatal) : (s.raise f).regs = s.regs := rfl
@[simp] theorem mem_raise (s : State) (f : Fatal) : (s.raise f).mem = s.mem := rfl
@[simp] theorem run_raise (s : State) (f : Fatal) : (s.raise f).run = .faulted f := rfl
@[simp] theorem trace_raise (s : State) (f : Fatal) : (s.raise f).trace = s.trace := rfl
@[simp] theorem x_raise (s : State) (f : Fatal) (r : RegIdx) : (s.raise f).x r = s.x r := rfl
@[simp] theorem pc_raise (s : State) (f : Fatal) : (s.raise f).pc = s.pc := rfl

@[simp] theorem cfg_halt (s : State) : s.halt.cfg = s.cfg := rfl
@[simp] theorem regs_halt (s : State) : s.halt.regs = s.regs := rfl
@[simp] theorem mem_halt (s : State) : s.halt.mem = s.mem := rfl
@[simp] theorem run_halt (s : State) : s.halt.run = .halted := rfl
@[simp] theorem trace_halt (s : State) : s.halt.trace = s.trace := rfl
@[simp] theorem x_halt (s : State) (r : RegIdx) : s.halt.x r = s.x r := rfl
@[simp] theorem pc_halt (s : State) : s.halt.pc = s.pc := rfl

end Sys2Proof.Machine
end

