-- ==== Sys2Proof/Laws/Memory.lean ====
section
/-! SUPPORT. The laws of the flat memory: read after write, the canonical form kept by every operation, the
listed addresses after a write, and one spec lemma for each shared access (20_memory.md). -/

namespace Sys2Proof.Machine

/-! ## The canonical form, as propositions -/

theorem Memory.wf_iff (m : Memory) :
    m.wf = true ↔ m.Pairwise (fun c d => c.1 < d.1) ∧ ∀ c ∈ m, c.2 ≠ Memory.unlisted := by
  simp [Memory.wf]

theorem Memory.wf_nil : Memory.wf [] = true := by decide

theorem Memory.wf_cons_iff (k : Nat) (c : Byte) (m : Memory) :
    Memory.wf ((k, c) :: m) = true ↔ (∀ d ∈ m, k < d.1) ∧ c ≠ Memory.unlisted ∧ m.wf = true := by
  simp only [Memory.wf_iff, List.pairwise_cons, List.forall_mem_cons]
  tauto

theorem Memory.mem_cons {a : Nat} {b : Byte} {m : Memory} {c : Host.Cell} (h : c ∈ Memory.cons a b m) :
    c = (a, b) ∨ c ∈ m := by
  unfold Memory.cons at h
  split at h
  · exact .inr h
  · simpa using h

/-- A write lists no address but the one written and those listed before. -/
theorem Memory.mem_write {m : Memory} {a : Nat} {b : Byte} {c : Host.Cell} (h : c ∈ m.write a b) :
    c = (a, b) ∨ c ∈ m := by
  induction m with
  | nil => simpa using Memory.mem_cons h
  | cons d rest ih =>
    obtain ⟨k, e⟩ := d
    simp only [Memory.write] at h
    split at h
    · exact Memory.mem_cons h
    · split at h
      · rcases Memory.mem_cons h with h | h
        · exact .inl h
        · exact .inr (List.mem_cons_of_mem _ h)
      · rcases List.mem_cons.mp h with h | h
        · exact .inr (h ▸ List.mem_cons_self)
        · rcases ih h with h | h
          · exact .inl h
          · exact .inr (List.mem_cons_of_mem _ h)

theorem Memory.wf_consOp {a : Nat} {b : Byte} {m : Memory} (hm : m.wf = true) (ha : ∀ d ∈ m, a < d.1) :
    (Memory.cons a b m).wf = true := by
  unfold Memory.cons
  split
  · exact hm
  · exact (Memory.wf_cons_iff ..).mpr ⟨ha, ‹_›, hm⟩

/-- Writing a byte keeps the canonical form. -/
theorem Memory.wf_write (m : Memory) (a : Nat) (b : Byte) (hm : m.wf = true) : (m.write a b).wf = true := by
  induction m with
  | nil => exact Memory.wf_consOp Memory.wf_nil (by simp)
  | cons d rest ih =>
    obtain ⟨k, c⟩ := d
    have h := (Memory.wf_cons_iff k c rest).mp hm
    simp only [Memory.write]
    split
    · rename_i hlt
      exact Memory.wf_consOp hm (by simpa using ⟨hlt, fun a' b' hd => Nat.lt_trans hlt (h.1 _ hd)⟩)
    · split
      · rename_i heq
        exact Memory.wf_consOp h.2.2 (heq ▸ h.1)
      · refine (Memory.wf_cons_iff ..).mpr ⟨fun d hd => ?_, h.2.1, ih h.2.2⟩
        rcases Memory.mem_write hd with rfl | hd
        · show k < a; omega
        · exact h.1 d hd

/-- An address below every listed one reads as an unlisted address. -/
theorem Memory.read_below {m : Memory} {a : Nat} (h : ∀ d ∈ m, a < d.1) : m.read a = Memory.unlisted := by
  induction m with
  | nil => rfl
  | cons d rest ih =>
    obtain ⟨k, c⟩ := d
    have hk : a < k := h _ List.mem_cons_self
    simp only [Memory.read]
    rw [if_neg (by omega)]
    exact ih (fun d hd => h d (List.mem_cons_of_mem _ hd))

theorem Memory.read_consOp {a : Nat} {b : Byte} {m : Memory} (x : Nat) (ha : ∀ d ∈ m, a < d.1) :
    (Memory.cons a b m).read x = if x = a then b else m.read x := by
  unfold Memory.cons
  split
  · rename_i hb
    split
    · rename_i hx; subst hx; subst hb; exact Memory.read_below ha
    · rfl
  · simp only [Memory.read, eq_comm]

/-- Read after write, in a memory of canonical form. -/
theorem Memory.read_write (m : Memory) (a x : Nat) (b : Byte) (hm : m.wf = true) :
    (m.write a b).read x = if x = a then b else m.read x := by
  induction m with
  | nil => exact Memory.read_consOp x (by simp)
  | cons d rest ih =>
    obtain ⟨k, c⟩ := d
    have h := (Memory.wf_cons_iff k c rest).mp hm
    simp only [Memory.write]
    split
    · rename_i hlt
      exact Memory.read_consOp x (by simpa using ⟨hlt, fun a' b' hd => Nat.lt_trans hlt (h.1 _ hd)⟩)
    · split
      · rename_i heq
        subst heq
        rw [Memory.read_consOp x h.1]
        simp only [Memory.read]
        split
        · rfl
        · rw [if_neg (by omega)]
      · simp only [Memory.read]
        rw [ih h.2.2]
        split
        · rw [if_neg (by omega)]
        · rfl

/-! ## Byte strings -/

/-- Writing a byte string keeps the canonical form. -/
theorem Memory.wf_writeBytes (bs : List Byte) : ∀ (m : Memory) (a : Nat), m.wf = true →
    (m.writeBytes a bs).wf = true := by
  induction bs with
  | nil => intro m a h; exact h
  | cons b bs ih => intro m a h; exact ih _ _ (Memory.wf_write m a b h)

/-- Every address listed after writing a byte string is one of those written or was listed before. -/
theorem Memory.mem_writeBytes (bs : List Byte) : ∀ (m : Memory) (a : Nat) (c : Host.Cell),
    c ∈ m.writeBytes a bs → (a ≤ c.1 ∧ c.1 < a + bs.length) ∨ c ∈ m := by
  induction bs with
  | nil => intro m a c h; exact .inr h
  | cons b bs ih =>
    intro m a c h
    simp only [List.length_cons]
    rcases ih _ _ c h with h | h
    · left; omega
    · rcases Memory.mem_write h with rfl | h
      · left; exact ⟨Nat.le_refl _, by show a < _; omega⟩
      · exact .inr h

/-- What each address reads after writing a byte string (20_memory.md R36): byte i at a + i, the rest as
before. -/
theorem Memory.read_writeBytes (bs : List Byte) : ∀ (m : Memory) (a x : Nat), m.wf = true →
    (m.writeBytes a bs).read x = if a ≤ x then (bs[x - a]?).getD (m.read x) else m.read x := by
  induction bs with
  | nil => intro m a x _; simp [Memory.writeBytes]
  | cons b bs ih =>
    intro m a x hm
    rw [Memory.writeBytes, ih _ _ _ (Memory.wf_write m a b hm), Memory.read_write m a x b hm]
    rcases Nat.lt_trichotomy x a with h | h | h
    · rw [if_neg (by omega), if_neg (by omega), if_neg (by omega)]
    · subst h; simp
    · obtain ⟨k, rfl⟩ : ∃ k, x = a + 1 + k := ⟨x - (a + 1), by omega⟩
      have e1 : a + 1 + k - (a + 1) = k := by omega
      have e2 : a + 1 + k - a = k + 1 := by omega
      rw [if_pos (by omega), if_neg (by omega), if_pos (by omega), e1, e2, List.getElem?_cons_succ]

/-- Outside the bytes written nothing changes. -/
theorem Memory.read_writeBytes_outside (bs : List Byte) (m : Memory) (a x : Nat) (hm : m.wf = true)
    (hx : x < a ∨ a + bs.length ≤ x) : (m.writeBytes a bs).read x = m.read x := by
  rw [Memory.read_writeBytes bs m a x hm]
  split
  · rw [List.getElem?_eq_none (by omega)]; rfl
  · rfl

/-- Reading back exactly the bytes written. -/
theorem Memory.readBytes_writeBytes (bs : List Byte) : ∀ (m : Memory) (a : Nat), m.wf = true →
    (m.writeBytes a bs).readBytes a bs.length = bs := by
  induction bs with
  | nil => intro m a _; rfl
  | cons b bs ih =>
    intro m a hm
    have hw := Memory.wf_write m a b hm
    rw [List.length_cons, Memory.readBytes, Memory.writeBytes, ih _ _ hw,
      Memory.read_writeBytes_outside bs _ _ _ hw (.inl (Nat.lt_succ_self a)), Memory.read_write m a a b hm, if_pos rfl]

theorem Memory.length_readBytes (m : Memory) (a n : Nat) : (m.readBytes a n).length = n := by
  induction n generalizing a with
  | zero => rfl
  | succ n ih => simp [Memory.readBytes, ih]

/-! ## Little-endian words -/

theorem leBytes_length (w : Word) : (leBytes w).length = 4 := rfl

theorem length_take_leBytes (n : Width) (w : Word) : ((leBytes w).take n.bytes).length = n.bytes := by
  cases n <;> rfl

/-- A little-endian byte string stands for a number below 256 to its length (20_memory.md R34). -/
theorem leValue_lt (bs : List Byte) : leValue bs < 256 ^ bs.length := by
  induction bs with
  | nil => simp [leValue]
  | cons b bs ih =>
    have hb := b.isLt
    simp only [leValue, List.length_cons, Nat.pow_succ]
    omega

/-- The bytes of a word, read back, are the word (20_memory.md R35). -/
theorem leValue_leBytes (w : Word) : leValue (leBytes w) = w.toNat := by
  have h := w.isLt
  simp only [leBytes, leValue, extract, BitVec.extractLsb, BitVec.extractLsb'_toNat, Nat.shiftRight_eq_div_pow]
  omega

/-! ## The shared accesses: everything each can do -/

theorem memRead_eq (s : State) (addr : Word) (n : Width) :
    (InRange s.cfg addr n.bytes ∧ s.memRead addr n = .ok (leValue (s.mem.readBytes addr.toNat n.bytes))) ∨
    (¬ InRange s.cfg addr n.bytes ∧ s.memRead addr n = .error (.outOfBounds addr)) := by
  by_cases h : InRange s.cfg addr n.bytes
  · exact .inl ⟨h, if_pos h⟩
  · exact .inr ⟨h, if_neg h⟩

theorem memWrite_eq (s : State) (addr : Word) (n : Width) (v : Word) :
    (InRange s.cfg addr n.bytes ∧
      s.memWrite addr n v = .ok { s with mem := s.mem.writeBytes addr.toNat ((leBytes v).take n.bytes) }) ∨
    (¬ InRange s.cfg addr n.bytes ∧ s.memWrite addr n v = .error (.outOfBounds addr)) := by
  by_cases h : InRange s.cfg addr n.bytes
  · exact .inl ⟨h, if_pos h⟩
  · exact .inr ⟨h, if_neg h⟩

theorem read32_eq (s : State) (addr : Word) :
    (InRange s.cfg addr 4 ∧ s.read32 addr = .ok (BitVec.ofNat 32 (leValue (s.mem.readBytes addr.toNat 4)))) ∨
    (¬ InRange s.cfg addr 4 ∧ s.read32 addr = .error (.outOfBounds addr)) := by
  unfold State.read32
  rcases memRead_eq s addr .word with ⟨h, e⟩ | ⟨h, e⟩ <;> rw [e]
  · exact .inl ⟨h, rfl⟩
  · exact .inr ⟨h, rfl⟩

/-- Fetch answers the word at the pc or OutOfBounds(pc) (41_engine.md R102). -/
theorem fetch_eq (s : State) :
    (InRange s.cfg s.pc 4 ∧ s.fetch = .ok (BitVec.ofNat 32 (leValue (s.mem.readBytes s.pc.toNat 4)))) ∨
    (¬ InRange s.cfg s.pc 4 ∧ s.fetch = .error (.outOfBounds s.pc)) := read32_eq s s.pc

theorem loadSegment_eq (s : State) (bytes : List Byte) (addr : Word) :
    ((bytes = [] ∨ InRange s.cfg addr bytes.length) ∧
      s.loadSegment bytes addr = .ok { s with mem := s.mem.writeBytes addr.toNat bytes }) ∨
    (¬ (bytes = [] ∨ InRange s.cfg addr bytes.length) ∧
      s.loadSegment bytes addr = .error (.outOfRegion addr bytes.length)) := by
  by_cases h : bytes = [] ∨ InRange s.cfg addr bytes.length
  · exact .inl ⟨h, if_pos h⟩
  · exact .inr ⟨h, if_neg h⟩

end Sys2Proof.Machine
end

