-- ==== Sys2Proof/Laws/Exec.lean ====
section
/-! SUPPORT. One lemma per shared operation of the meanings, saying everything it can do, in the terms of
Safety; then the step taken apart once. -/

namespace Sys2Proof.Machine

/-! ## Sign extension and comparisons in core terms -/

theorem signExtend_eq_toInt {n : Nat} (v : BitVec n) (h : 1 ≤ n ∧ n ≤ 32) : signExtend v h = v.toInt := by
  rw [signExtend, BitVec.toInt_eq_msb_cond]
  push_cast
  rfl

theorem sext_eq {n : Nat} (v : BitVec n) (h : 1 ≤ n ∧ n ≤ 32) : sext v h = v.signExtend 32 := by
  have h1 := BitVec.le_toInt v
  have h2 := BitVec.toInt_lt (x := v)
  have h3 : (2 : Int) ^ (n - 1) ≤ 2 ^ 31 := by exact_mod_cast Nat.pow_le_pow_right (by decide) (by omega)
  have h4 : (2 : Int) ^ 31 = 2147483648 := by norm_num
  rw [sext, signExtend_eq_toInt]
  apply BitVec.eq_of_toInt_eq
  rw [BitVec.toInt_signExtend_of_le h.2, BitVec.toInt_ofInt, Int.bmod_eq_of_le] <;> omega

theorem signed_eq_toInt (v : Word) : signed v = v.toInt := signExtend_eq_toInt v (by decide)

theorem signedLess_iff (x y : Word) : signedLess x y = true ↔ x.toInt < y.toInt := by
  simp [signedLess, signed_eq_toInt]

theorem unsignedLess_iff (x y : Word) : unsignedLess x y = true ↔ x.toNat < y.toNat := by
  simp [unsignedLess]

/-! ## Results and transfers -/

theorem writesReg_setX (s : State) (rd : RegIdx) (v : Word) : WritesReg s (s.setX rd v) rd v := by
  refine ⟨?_, fun r hr => ?_⟩
  · rw [x_setX]; split <;> simp
  · rw [x_setX, if_neg hr]
    split
    · rename_i h; subst h; simp
    · rfl

/-- Writing a result and advancing (41_engine.md R106). -/
theorem finish_spec (s : State) (rd : RegIdx) (v : Word) : WritesAndAdvances s (s.finish rd v) rd v := by
  refine ⟨?_, pc_finish .., fun a => by simp, by simp [GoesOn]⟩
  have h := writesReg_setX s rd v
  exact ⟨by simpa [State.finish] using h.1, fun r hr => by simpa [State.finish] using h.2 r hr⟩

/-- The default advance alone. -/
theorem advance_spec (s : State) : OnlyMovesPc s s.advance (s.pc + 4#32) [] :=
  ⟨fun r => by simp, by simp, fun a => by simp, by simp [GoesOn]⟩

/-- The default advance after a trace event. -/
theorem emit_advance_spec (s : State) (e : TraceEvent) : OnlyMovesPc s (s.emit e).advance (s.pc + 4#32) [e] :=
  ⟨fun r => by simp, by simp, fun a => by simp, by simp [GoesOn]⟩

/-- A control transfer without a link. -/
theorem transfer_spec (s : State) (v : Word) : OnlyMovesPc s (s.transfer v) v [] :=
  ⟨fun r => by simp, by simp, fun a => by simp, by simp [GoesOn]⟩

/-- A control transfer with a link (45_control_transfer.md R170, R171). -/
theorem link_spec (s : State) (rd : RegIdx) (link target : Word) :
    WritesReg s ((s.setX rd link).transfer target) rd link ∧ ((s.setX rd link).transfer target).pc = target ∧
      KeepsMemory s ((s.setX rd link).transfer target) ∧ GoesOn s ((s.setX rd link).transfer target) [] := by
  have h := writesReg_setX s rd link
  exact ⟨⟨by simpa using h.1, fun r hr => by simpa using h.2 r hr⟩, by simp, fun a => by simp, by simp [GoesOn]⟩

/-- A fatal condition (41_engine.md R109). -/
theorem raise_spec (s : State) (f : Fatal) : EndsRun s (s.raise f) (.faulted f) [] :=
  ⟨fun r => by simp, by simp, fun a => by simp, by simp, by simp, by simp⟩

/-- A fatal condition after a trace event. -/
theorem emit_raise_spec (s : State) (e : TraceEvent) (f : Fatal) :
    EndsRun s ((s.emit e).raise f) (.faulted f) [e] :=
  ⟨fun r => by simp, by simp, fun a => by simp, by simp, by simp, by simp⟩

/-- HALT (41_engine.md R108). -/
theorem halt_spec (s : State) : EndsRun s s.halt .halted [] :=
  ⟨fun r => by simp, by simp, fun a => by simp, by simp, by simp, by simp⟩

/-! ## The shapes instructions share -/

/-- Class IMM (43_alu_immediate.md R130). -/
theorem aluImmediate_spec (op : AluOp) (rd rs1 : RegIdx) (imm : BitVec 12) (s : State) :
    ∃ t, aluImmediate op rd rs1 imm s = .next t ∧
      WritesAndAdvances s t rd (arith op (s.x rs1) (imm.signExtend 32)) :=
  ⟨_, rfl, by rw [sext_eq]; exact finish_spec ..⟩

/-- Class OP but SUB (44_alu_register.md R150). -/
theorem aluRegister_spec (op : AluOp) (rd rs1 rs2 : RegIdx) (s : State) :
    ∃ t, aluRegister op rd rs1 rs2 s = .next t ∧ WritesAndAdvances s t rd (arith op (s.x rs1) (s.x rs2)) :=
  ⟨_, rfl, finish_spec ..⟩

/-- Class BRANCH with a condition (45_control_transfer.md R172). -/
theorem branchOn_spec (cond : Word → Word → Bool) (rs1 rs2 : RegIdx) (imm : BitVec 13) (s : State) :
    ∃ t, branchOn cond rs1 rs2 imm s = .next t ∧
      OnlyMovesPc s t (if cond (s.x rs1) (s.x rs2) then s.pc + imm.signExtend 32 else s.pc + 4#32) [] := by
  unfold branchOn
  split
  · exact ⟨_, rfl, by rw [sext_eq]; exact transfer_spec ..⟩
  · exact ⟨_, rfl, advance_spec s⟩

/-- UnsupportedEncoding (60_exceptions.md R243). -/
theorem unsupported_spec (w : Word) (s : State) :
    ∃ t, unsupported w s = .next t ∧ EndsRun s t (.faulted (.unsupportedEncoding w)) [] :=
  ⟨_, rfl, raise_spec ..⟩

/-- An instruction without effect (47_misc_system.md R220). -/
theorem noEffect_spec (s : State) : ∃ t, noEffect s = .next t ∧ OnlyMovesPc s t (s.pc + 4#32) [] :=
  ⟨_, rfl, advance_spec s⟩

/-- The ECALL check (47_misc_system.md R222). -/
theorem ecallCheck_spec (s : State) :
    ∃ t, ecallCheck s = .next t ∧
      if ecallLimit < (s.x s.cfg.ecallReg).toNat then
        EndsRun s t (.faulted (.conformanceFailure (s.x s.cfg.ecallReg))) [.ecall (s.x s.cfg.ecallReg)]
      else OnlyMovesPc s t (s.pc + 4#32) [.ecall (s.x s.cfg.ecallReg)] := by
  unfold ecallCheck
  by_cases h : ecallLimit < (s.x s.cfg.ecallReg).toNat
  · simp only [h, if_true]
    exact ⟨_, rfl, emit_raise_spec ..⟩
  · simp only [h, if_false]
    exact ⟨_, rfl, emit_advance_spec ..⟩

theorem effectiveAddress_eq (s : State) (rs1 : RegIdx) (imm : BitVec 12) :
    s.effectiveAddress rs1 imm = s.x rs1 + imm.signExtend 32 := by
  rw [State.effectiveAddress, sext_eq]

/-- A load: observed, or performed in range, or out of range (46_load_store.md R190, R204). -/
theorem load_spec (n : Width) (extend : Width → Nat → Word) (rd rs1 : RegIdx) (imm : BitVec 12) (s : State) :
    ∃ t, load n extend rd rs1 imm s = .next t ∧
      ((s.cfg.loadStoreMode = .observe ∧ OnlyMovesPc s t (s.pc + 4#32) [.load (s.effectiveAddress rs1 imm)]) ∨
       (s.cfg.loadStoreMode = .perform ∧ InRange s.cfg (s.effectiveAddress rs1 imm) n.bytes ∧
          WritesReg s t rd (extend n (leValue (s.mem.readBytes (s.effectiveAddress rs1 imm).toNat n.bytes))) ∧
          t.pc = s.pc + 4#32 ∧ KeepsMemory s t ∧ GoesOn s t [.load (s.effectiveAddress rs1 imm)]) ∨
       (s.cfg.loadStoreMode = .perform ∧ ¬ InRange s.cfg (s.effectiveAddress rs1 imm) n.bytes ∧
          EndsRun s t (.faulted (.outOfBounds (s.effectiveAddress rs1 imm)))
            [.load (s.effectiveAddress rs1 imm)])) := by
  unfold load
  simp only
  generalize s.effectiveAddress rs1 imm = ea
  cases hm : s.cfg.loadStoreMode
  · exact ⟨_, rfl, .inl ⟨rfl, emit_advance_spec ..⟩⟩
  · refine ⟨_, rfl, .inr ?_⟩
    unfold State.performLoad
    rcases memRead_eq (s.emit (.load ea)) ea n with ⟨hr, e⟩ | ⟨hr, e⟩ <;> rw [e]
    · refine .inl ⟨rfl, hr, ?_⟩
      have h := finish_spec (s.emit (.load ea)) rd (extend n (leValue (s.mem.readBytes ea.toNat n.bytes)))
      exact ⟨⟨h.1.1, h.1.2⟩, h.2.1, h.2.2.1, by simp [GoesOn]⟩
    · exact .inr ⟨rfl, hr, emit_raise_spec ..⟩

/-- A store: observed, or performed in range, or out of range (46_load_store.md R191, R204). -/
theorem store_spec (n : Width) (rs2 rs1 : RegIdx) (imm : BitVec 12) (s : State) :
    ∃ t, store n rs2 rs1 imm s = .next t ∧
      ((s.cfg.loadStoreMode = .observe ∧
          OnlyMovesPc s t (s.pc + 4#32) [.store (s.effectiveAddress rs1 imm) (s.x rs2)]) ∨
       (s.cfg.loadStoreMode = .perform ∧ InRange s.cfg (s.effectiveAddress rs1 imm) n.bytes ∧
          t.mem = s.mem.writeBytes (s.effectiveAddress rs1 imm).toNat ((leBytes (s.x rs2)).take n.bytes) ∧
          KeepsRegs s t ∧ t.pc = s.pc + 4#32 ∧ GoesOn s t [.store (s.effectiveAddress rs1 imm) (s.x rs2)]) ∨
       (s.cfg.loadStoreMode = .perform ∧ ¬ InRange s.cfg (s.effectiveAddress rs1 imm) n.bytes ∧
          EndsRun s t (.faulted (.outOfBounds (s.effectiveAddress rs1 imm)))
            [.store (s.effectiveAddress rs1 imm) (s.x rs2)])) := by
  unfold store
  simp only
  generalize s.effectiveAddress rs1 imm = ea
  cases hm : s.cfg.loadStoreMode
  · exact ⟨_, rfl, .inl ⟨rfl, emit_advance_spec ..⟩⟩
  · refine ⟨_, rfl, .inr ?_⟩
    unfold State.performStore
    rcases memWrite_eq (s.emit (.store ea (s.x rs2))) ea n (s.x rs2) with ⟨hr, e⟩ | ⟨hr, e⟩ <;> rw [e]
    · exact .inl ⟨rfl, hr, by simp, fun r => x_advance .., pc_advance .., by simp [GoesOn]⟩
    · exact .inr ⟨rfl, hr, emit_raise_spec ..⟩

end Sys2Proof.Machine
end

