-- ==== Sys2Proof/Laws/Classes.lean ====
section
/-! SUPPORT. What a word of each opcode class does when it is decoded and executed, one lemma per class, read
off the word's bits: the lemmas that rules over all words go through (41_engine.md R105). Then the step taken
apart once. -/

namespace Sys2Proof.Machine

/-- LUI and AUIPC (42_upper_immediate.md R120 to R122). -/
theorem upper_word {w : Word} (s : State) (h : HasOpcode w 0b0110111#7 ∨ HasOpcode w 0b0010111#7) :
    ∃ t v, exec (decodeWord w) s = .next t ∧ WritesAndAdvances s t (w.extractLsb' 7 5) v := by
  rcases h with h | h
  · rw [decodeWord_of_class (c := .lui) h]
    exact ⟨_, _, rfl, finish_spec ..⟩
  · rw [decodeWord_of_class (c := .auipc) h]
    exact ⟨_, _, rfl, finish_spec ..⟩

/-- JAL (45_control_transfer.md R170). -/
theorem jal_word {w : Word} (s : State) (h : HasOpcode w 0b1101111#7) :
    ∃ t, exec (decodeWord w) s = .next t ∧ WritesReg s t (w.extractLsb' 7 5) (s.pc + 4#32) ∧
      t.pc = s.pc + (jImmediate w).signExtend 32 ∧ KeepsMemory s t ∧ GoesOn s t [] := by
  rw [decodeWord_of_class (c := .jal) h]
  refine ⟨_, rfl, ?_⟩
  rw [sext_eq]
  exact link_spec ..

/-- JALR (45_control_transfer.md R171). -/
theorem jalr_word {w : Word} (s : State) (h : HasOpcode w 0b1100111#7) :
    ∃ t, exec (decodeWord w) s = .next t ∧ WritesReg s t (w.extractLsb' 7 5) (s.pc + 4#32) ∧
      t.pc = s.x (w.extractLsb' 15 5) + (w.extractLsb' 20 12).signExtend 32 ∧ KeepsMemory s t ∧ GoesOn s t [] := by
  rw [decodeWord_of_class (c := .jalr) h]
  refine ⟨_, rfl, ?_⟩
  rw [sext_eq]
  exact link_spec ..

/-- The eight values of a three-bit field. -/
theorem funct3_cases (f : BitVec 3) :
    f = 0#3 ∨ f = 1#3 ∨ f = 2#3 ∨ f = 3#3 ∨ f = 4#3 ∨ f = 5#3 ∨ f = 6#3 ∨ f = 7#3 := by
  revert f; decide

/-- A condition of Flags.lean is the one BranchTaken names. -/
theorem branchTaken_iff (f : BitVec 3) (a b : Word) :
    (f = 0#3 → (BranchTaken f a b ↔ condEq a b = true)) ∧ (f = 1#3 → (BranchTaken f a b ↔ condNe a b = true)) ∧
    (f = 4#3 → (BranchTaken f a b ↔ condLt a b = true)) ∧ (f = 5#3 → (BranchTaken f a b ↔ condGe a b = true)) ∧
    (f = 6#3 → (BranchTaken f a b ↔ condLtu a b = true)) ∧ (f = 7#3 → (BranchTaken f a b ↔ condGeu a b = true)) := by
  refine ⟨?_, ?_, ?_, ?_, ?_, ?_⟩ <;> rintro rfl <;>
    simp [BranchTaken, condEq, condNe, condLt, condGe, condLtu, condGeu, signedLess, signed_eq_toInt, unsignedLess]

theorem onlyMovesPc_of_cond {s t : State} {p q : Word} {c : Bool} {P : Prop} (hp : P ↔ c = true)
    (h : OnlyMovesPc s t (if c = true then p else q) []) :
    (P → OnlyMovesPc s t p []) ∧ (¬ P → OnlyMovesPc s t q []) := by
  cases c <;> simp_all

/-- BRANCH (45_control_transfer.md R172 to R179). -/
theorem branch_word {w : Word} (s : State) (h : HasOpcode w 0b1100011#7) :
    ∃ t, exec (decodeWord w) s = .next t ∧
      (w.extractLsb' 12 3 ∈ [2#3, 3#3] → EndsRun s t (.faulted (.unsupportedEncoding w)) []) ∧
      (w.extractLsb' 12 3 ∉ [2#3, 3#3] →
        (BranchTaken (w.extractLsb' 12 3) (s.x (w.extractLsb' 15 5)) (s.x (w.extractLsb' 20 5)) →
          OnlyMovesPc s t (s.pc + (bImmediate w).signExtend 32) []) ∧
        (¬ BranchTaken (w.extractLsb' 12 3) (s.x (w.extractLsb' 15 5)) (s.x (w.extractLsb' 20 5)) →
          OnlyMovesPc s t (s.pc + 4#32) [])) := by
  rw [decodeWord_of_class (c := .branch) h]
  have hb := branchTaken_iff (w.extractLsb' 12 3) (s.x (w.extractLsb' 15 5)) (s.x (w.extractLsb' 20 5))
  have he := encB_fields (w := w) (c := .branch) h
  unfold decodeClass decodeBranch
  rcases funct3_cases (funct3Of w) with h3 | h3 | h3 | h3 | h3 | h3 | h3 | h3 <;>
    simp only [h3] <;> rw [funct3Of_eq] at h3
  · obtain ⟨t, e, ht⟩ := branchOn_spec condEq (rs1Of w) (rs2Of w) (immBOf w) s
    exact ⟨t, e, by simp [h3], fun _ => onlyMovesPc_of_cond (hb.1 h3) ht⟩
  · obtain ⟨t, e, ht⟩ := branchOn_spec condNe (rs1Of w) (rs2Of w) (immBOf w) s
    exact ⟨t, e, by simp [h3], fun _ => onlyMovesPc_of_cond (hb.2.1 h3) ht⟩
  · obtain ⟨t, e, ht⟩ := unsupported_spec (encode (.branchReserved 2#3 (rs1Of w) (rs2Of w) (immBOf w))) s
    refine ⟨t, e, fun _ => ?_, by simp [h3]⟩
    rwa [show encode (.branchReserved 2#3 (rs1Of w) (rs2Of w) (immBOf w)) = w by rw [← h3]; exact he] at ht
  · obtain ⟨t, e, ht⟩ := unsupported_spec (encode (.branchReserved 3#3 (rs1Of w) (rs2Of w) (immBOf w))) s
    refine ⟨t, e, fun _ => ?_, by simp [h3]⟩
    rwa [show encode (.branchReserved 3#3 (rs1Of w) (rs2Of w) (immBOf w)) = w by rw [← h3]; exact he] at ht
  · obtain ⟨t, e, ht⟩ := branchOn_spec condLt (rs1Of w) (rs2Of w) (immBOf w) s
    exact ⟨t, e, by simp [h3], fun _ => onlyMovesPc_of_cond (hb.2.2.1 h3) ht⟩
  · obtain ⟨t, e, ht⟩ := branchOn_spec condGe (rs1Of w) (rs2Of w) (immBOf w) s
    exact ⟨t, e, by simp [h3], fun _ => onlyMovesPc_of_cond (hb.2.2.2.1 h3) ht⟩
  · obtain ⟨t, e, ht⟩ := branchOn_spec condLtu (rs1Of w) (rs2Of w) (immBOf w) s
    exact ⟨t, e, by simp [h3], fun _ => onlyMovesPc_of_cond (hb.2.2.2.2.1 h3) ht⟩
  · obtain ⟨t, e, ht⟩ := branchOn_spec condGeu (rs1Of w) (rs2Of w) (immBOf w) s
    exact ⟨t, e, by simp [h3], fun _ => onlyMovesPc_of_cond (hb.2.2.2.2.2 h3) ht⟩

theorem wordAddress_load {w : Word} (s : State) (h : HasOpcode w 0b0000011#7) :
    wordAddress s w = s.x (w.extractLsb' 15 5) + (w.extractLsb' 20 12).signExtend 32 := by
  have : ¬ HasOpcode w 0b0100011#7 := by intro e; exact absurd (h.symm.trans e) (by decide)
  rw [wordAddress, if_neg this]

theorem wordAddress_store {w : Word} (s : State) (h : HasOpcode w 0b0100011#7) :
    wordAddress s w = s.x (w.extractLsb' 15 5) + (sImmediate w).signExtend 32 := by
  rw [wordAddress, if_pos h]

/-- A width's byte count is the one a word's funct3 names. -/
def NamesWidth (w : Word) (n : Width) : Prop := ∀ k, AccessBytes w k ↔ k = n.bytes

/-- Everything a LOAD word can do: observed, performed, out of range, or of no width. -/
def LoadDoes (s : State) (w : Word) (t : State) : Prop :=
  (s.cfg.loadStoreMode = .observe ∧ OnlyMovesPc s t (s.pc + 4#32) [.load (wordAddress s w)]) ∨
    (s.cfg.loadStoreMode = .perform ∧ ∃ n v, NamesWidth w n ∧ w.extractLsb' 12 3 ∉ [3#3, 6#3, 7#3] ∧
       InRange s.cfg (wordAddress s w) n.bytes ∧ WritesReg s t (w.extractLsb' 7 5) v ∧ t.pc = s.pc + 4#32 ∧
       KeepsMemory s t ∧ GoesOn s t [.load (wordAddress s w)]) ∨
    (s.cfg.loadStoreMode = .perform ∧ ∃ n, NamesWidth w n ∧ w.extractLsb' 12 3 ∉ [3#3, 6#3, 7#3] ∧
       ¬ InRange s.cfg (wordAddress s w) n.bytes ∧
       EndsRun s t (.faulted (.outOfBounds (wordAddress s w))) [.load (wordAddress s w)]) ∨
    (s.cfg.loadStoreMode = .perform ∧ w.extractLsb' 12 3 ∈ [3#3, 6#3, 7#3] ∧
       EndsRun s t (.faulted (.unsupportedEncoding w)) [.load (wordAddress s w)])

/-- LOAD (46_load_store.md R190, R193, R204, R213). -/
theorem load_word {w : Word} (s : State) (h : HasOpcode w 0b0000011#7) :
    ∃ t, exec (decodeWord w) s = .next t ∧ LoadDoes s w t := by
  have ho : w.extractLsb' 0 7 = 0b0000011#7 := h
  have hea : s.effectiveAddress (rs1Of w) (immIOf w) = wordAddress s w := by
    rw [effectiveAddress_eq, wordAddress_load s h, rs1Of_eq, immIOf_eq]
  have he := encI_fields (w := w) (c := .load) h
  rw [decodeWord_of_class (c := .load) h]
  unfold decodeClass decodeLoad
  have wide : ∀ (n : Width) (extend : Width → Nat → Word), NamesWidth w n → w.extractLsb' 12 3 ∉ [3#3, 6#3, 7#3] →
      ∃ t, load n extend (rdOf w) (rs1Of w) (immIOf w) s = .next t ∧ LoadDoes s w t := fun n extend hn hf => by
    obtain ⟨t, e, ht⟩ := load_spec n extend (rdOf w) (rs1Of w) (immIOf w) s
    rw [hea] at ht
    refine ⟨t, e, ?_⟩
    rcases ht with ht | ⟨h1, h2, h3⟩ | ⟨h1, h2, h3⟩
    · exact .inl ht
    · exact .inr (.inl ⟨h1, n, _, hn, hf, h2, h3⟩)
    · exact .inr (.inr (.inl ⟨h1, n, hn, hf, h2, h3⟩))
  have other : ∀ f, w.extractLsb' 12 3 = f → f ∈ [3#3, 6#3, 7#3] →
      ∃ t, execLoadOther f (rdOf w) (rs1Of w) (immIOf w) s = .next t ∧ LoadDoes s w t := fun f hf hm => by
    have hw : encode (.loadOther f (rdOf w) (rs1Of w) (immIOf w)) = w := by
      rw [← hf]; exact he
    unfold execLoadOther
    simp only [hea, hw]
    cases hc : s.cfg.loadStoreMode
    · exact ⟨_, rfl, .inl ⟨hc, emit_advance_spec ..⟩⟩
    · exact ⟨_, rfl, .inr (.inr (.inr ⟨hc, hf ▸ hm, emit_raise_spec ..⟩))⟩
  rcases funct3_cases (funct3Of w) with h3 | h3 | h3 | h3 | h3 | h3 | h3 | h3 <;>
    simp only [h3] <;> rw [funct3Of_eq] at h3
  · exact wide .byte signExtended (fun k => by simp [AccessBytes, HasOpcode, ho, h3, Width.bytes]) (by simp [h3])
  · exact wide .half signExtended (fun k => by simp [AccessBytes, HasOpcode, ho, h3, Width.bytes]) (by simp [h3])
  · exact wide .word signExtended (fun k => by simp [AccessBytes, HasOpcode, ho, h3, Width.bytes]) (by simp [h3])
  · exact other _ h3 (by simp)
  · exact wide .byte zeroExtended (fun k => by simp [AccessBytes, HasOpcode, ho, h3, Width.bytes]) (by simp [h3])
  · exact wide .half zeroExtended (fun k => by simp [AccessBytes, HasOpcode, ho, h3, Width.bytes]) (by simp [h3])
  · exact other _ h3 (by simp)
  · exact other _ h3 (by simp)

/-- Everything a STORE word can do: observed, performed, out of range, or of no width. -/
def StoreDoes (s : State) (w : Word) (t : State) : Prop :=
  (s.cfg.loadStoreMode = .observe ∧
       OnlyMovesPc s t (s.pc + 4#32) [.store (wordAddress s w) (s.x (w.extractLsb' 20 5))]) ∨
    (s.cfg.loadStoreMode = .perform ∧ ∃ n, NamesWidth w n ∧ w.extractLsb' 12 3 ∉ [3#3, 4#3, 5#3, 6#3, 7#3] ∧
       InRange s.cfg (wordAddress s w) n.bytes ∧
       t.mem = s.mem.writeBytes (wordAddress s w).toNat ((leBytes (s.x (w.extractLsb' 20 5))).take n.bytes) ∧
       KeepsRegs s t ∧ t.pc = s.pc + 4#32 ∧
       GoesOn s t [.store (wordAddress s w) (s.x (w.extractLsb' 20 5))]) ∨
    (s.cfg.loadStoreMode = .perform ∧ ∃ n, NamesWidth w n ∧ w.extractLsb' 12 3 ∉ [3#3, 4#3, 5#3, 6#3, 7#3] ∧
       ¬ InRange s.cfg (wordAddress s w) n.bytes ∧
       EndsRun s t (.faulted (.outOfBounds (wordAddress s w)))
         [.store (wordAddress s w) (s.x (w.extractLsb' 20 5))]) ∨
    (s.cfg.loadStoreMode = .perform ∧ w.extractLsb' 12 3 ∈ [3#3, 4#3, 5#3, 6#3, 7#3] ∧
       EndsRun s t (.faulted (.unsupportedEncoding w))
         [.store (wordAddress s w) (s.x (w.extractLsb' 20 5))])

/-- STORE (46_load_store.md R191, R193, R204, R213). -/
theorem store_word {w : Word} (s : State) (h : HasOpcode w 0b0100011#7) :
    ∃ t, exec (decodeWord w) s = .next t ∧ StoreDoes s w t := by
  have ho : w.extractLsb' 0 7 = 0b0100011#7 := h
  have hea : s.effectiveAddress (rs1Of w) (immSOf w) = wordAddress s w := by
    rw [effectiveAddress_eq, wordAddress_store s h]; rfl
  have he := encS_fields (w := w) (c := .store) h
  rw [decodeWord_of_class (c := .store) h]
  unfold decodeClass decodeStore
  have wide : ∀ (n : Width), NamesWidth w n → w.extractLsb' 12 3 ∉ [3#3, 4#3, 5#3, 6#3, 7#3] →
      ∃ t, store n (rs2Of w) (rs1Of w) (immSOf w) s = .next t ∧ StoreDoes s w t := fun n hn hf => by
    obtain ⟨t, e, ht⟩ := store_spec n (rs2Of w) (rs1Of w) (immSOf w) s
    rw [hea] at ht
    refine ⟨t, e, ?_⟩
    rcases ht with ht | ⟨h1, h2, h3⟩ | ⟨h1, h2, h3⟩
    · exact .inl ht
    · exact .inr (.inl ⟨h1, n, hn, hf, h2, h3⟩)
    · exact .inr (.inr (.inl ⟨h1, n, hn, hf, h2, h3⟩))
  have other : ∀ f, w.extractLsb' 12 3 = f → f ∈ [3#3, 4#3, 5#3, 6#3, 7#3] →
      ∃ t, execStoreOther f (rs2Of w) (rs1Of w) (immSOf w) s = .next t ∧ StoreDoes s w t := fun f hf hm => by
    have hw : encode (.storeOther f (rs2Of w) (rs1Of w) (immSOf w)) = w := by
      rw [← hf]; exact he
    unfold execStoreOther
    simp only [hea, hw]
    cases hc : s.cfg.loadStoreMode
    · exact ⟨_, rfl, .inl ⟨hc, emit_advance_spec ..⟩⟩
    · exact ⟨_, rfl, .inr (.inr (.inr ⟨hc, hf ▸ hm, emit_raise_spec ..⟩))⟩
  rcases funct3_cases (funct3Of w) with h3 | h3 | h3 | h3 | h3 | h3 | h3 | h3 <;>
    simp only [h3] <;> rw [funct3Of_eq] at h3
  · exact wide .byte (fun k => by simp [AccessBytes, HasOpcode, ho, h3, Width.bytes]) (by simp [h3])
  · exact wide .half (fun k => by simp [AccessBytes, HasOpcode, ho, h3, Width.bytes]) (by simp [h3])
  · exact wide .word (fun k => by simp [AccessBytes, HasOpcode, ho, h3, Width.bytes]) (by simp [h3])
  all_goals exact other _ h3 (by simp)

/-- IMM (43_alu_immediate.md R130). -/
theorem imm_word {w : Word} (s : State) (h : HasOpcode w 0b0010011#7) :
    ∃ t v, exec (decodeWord w) s = .next t ∧ WritesAndAdvances s t (w.extractLsb' 7 5) v := by
  rw [decodeWord_of_class (c := .imm) h, show decodeClass .imm w = decodeImm w from rfl, decodeImm]
  repeat' split
  all_goals exact ⟨_, _, rfl, finish_spec ..⟩

/-- OP (44_alu_register.md R150). -/
theorem op_word {w : Word} (s : State) (h : HasOpcode w 0b0110011#7) :
    ∃ t v, exec (decodeWord w) s = .next t ∧ WritesAndAdvances s t (w.extractLsb' 7 5) v := by
  rw [decodeWord_of_class (c := .op) h, show decodeClass .op w = decodeOp w from rfl, decodeOp]
  repeat' split
  all_goals exact ⟨_, _, rfl, finish_spec ..⟩

/-- MISC (47_misc_system.md R220). -/
theorem misc_word {w : Word} (s : State) (h : HasOpcode w 0b0001111#7) :
    ∃ t, exec (decodeWord w) s = .next t ∧ OnlyMovesPc s t (s.pc + 4#32) [] := by
  rw [decodeWord_of_class (c := .misc) h, show decodeClass .misc w = decodeMisc w from rfl, decodeMisc]
  split
  all_goals exact noEffect_spec s

/-- Everything a SYSTEM word can do (47_misc_system.md R221). -/
def SystemDoes (s : State) (w : Word) (t : State) : Prop :=
  (w.extractLsb' 12 3 = 0#3 ∧ (s.x s.cfg.ecallReg).toNat ≤ 1 ∧
      OnlyMovesPc s t (s.pc + 4#32) [.ecall (s.x s.cfg.ecallReg)]) ∨
    (w.extractLsb' 12 3 = 0#3 ∧ 1 < (s.x s.cfg.ecallReg).toNat ∧
      EndsRun s t (.faulted (.conformanceFailure (s.x s.cfg.ecallReg))) [.ecall (s.x s.cfg.ecallReg)]) ∨
    (w.extractLsb' 12 3 = 1#3 ∧ w.extractLsb' 20 12 = 3072#12 ∧ EndsRun s t .halted []) ∨
    (w.extractLsb' 12 3 = 4#3 ∧ EndsRun s t (.faulted (.unsupportedEncoding w)) []) ∨
    (w.extractLsb' 12 3 ∉ [0#3, 4#3] ∧ ¬ (w.extractLsb' 12 3 = 1#3 ∧ w.extractLsb' 20 12 = 3072#12) ∧
      OnlyMovesPc s t (s.pc + 4#32) [])

/-- SYSTEM (47_misc_system.md R221 to R230). -/
theorem system_word {w : Word} (s : State) (h : HasOpcode w 0b1110011#7) :
    ∃ t, exec (decodeWord w) s = .next t ∧ SystemDoes s w t := by
  have he := encI_fields (w := w) (c := .system) h
  rw [decodeWord_of_class (c := .system) h]
  unfold decodeClass decodeSystem
  have quiet : ∀ f, w.extractLsb' 12 3 = f → f ∉ [0#3, 1#3, 4#3] →
      ∃ t, noEffect s = .next t ∧ SystemDoes s w t := fun f hf hm => by
    obtain ⟨t, e, ht⟩ := noEffect_spec s
    simp at hm
    exact ⟨t, e, .inr (.inr (.inr (.inr ⟨by simp [hf, hm], by simp [hf, hm], ht⟩)))⟩
  rcases funct3_cases (funct3Of w) with h3 | h3 | h3 | h3 | h3 | h3 | h3 | h3 <;>
    simp only [h3] <;> rw [funct3Of_eq] at h3
  · have hd : exec (decodeEcall w) s = ecallCheck s := by
      unfold decodeEcall
      repeat' split
      all_goals rfl
    obtain ⟨t, e, ht⟩ := ecallCheck_spec s
    refine ⟨t, hd.trans e, ?_⟩
    split at ht
    · rename_i hc
      exact .inr (.inl ⟨h3, hc, ht⟩)
    · rename_i hc
      exact .inl ⟨h3, Nat.le_of_not_lt hc, ht⟩
  · by_cases hc : immIOf w = haltCsr
    · exact ⟨_, if_pos hc, .inr (.inr (.inl ⟨h3, hc, halt_spec s⟩))⟩
    · exact ⟨_, if_neg hc, .inr (.inr (.inr (.inr ⟨by simp [h3], fun h => hc h.2, advance_spec s⟩)))⟩
  · exact quiet _ h3 (by simp)
  · exact quiet _ h3 (by simp)
  · obtain ⟨t, e, ht⟩ := unsupported_spec (encode (.systemReserved (immIOf w) (rs1Of w) (rdOf w))) s
    refine ⟨t, e, .inr (.inr (.inr (.inl ⟨h3, ?_⟩)))⟩
    rwa [show encode (.systemReserved (immIOf w) (rs1Of w) (rdOf w)) = w by
      show encI _ _ 4#3 _ _ = w
      rw [← h3]; exact he] at ht
  · exact quiet _ h3 (by simp)
  · exact quiet _ h3 (by simp)
  · exact quiet _ h3 (by simp)

/-- The eleven opcode numbers (30_encoding.md R51). -/
theorem classify_none_iff (o : BitVec 7) :
    classify o = none ↔
      o ∉ [0x37#7, 0x17#7, 0x6F#7, 0x67#7, 0x63#7, 0x03#7, 0x23#7, 0x13#7, 0x33#7, 0x0F#7, 0x73#7] := by
  revert o; decide

/-- A word of no class (30_encoding.md R66). -/
theorem illegal_word {w : Word} (s : State) (h : classify (w.extractLsb' 0 7) = none) :
    ∃ t, exec (decodeWord w) s = .next t ∧ EndsRun s t (.faulted (.unsupportedEncoding w)) [] := by
  rw [decodeWord_of_none h]
  exact unsupported_spec w s

/-- Every word has one of the eleven opcodes or is of no class (30_encoding.md R51). -/
theorem opcode_cases (w : Word) :
    (HasOpcode w 0b0110111#7 ∨ HasOpcode w 0b0010111#7) ∨ HasOpcode w 0b1101111#7 ∨ HasOpcode w 0b1100111#7 ∨
      HasOpcode w 0b1100011#7 ∨ HasOpcode w 0b0000011#7 ∨ HasOpcode w 0b0100011#7 ∨ HasOpcode w 0b0010011#7 ∨
      HasOpcode w 0b0110011#7 ∨ HasOpcode w 0b0001111#7 ∨ HasOpcode w 0b1110011#7 ∨
      classify (w.extractLsb' 0 7) = none := by
  rw [classify_none_iff]
  simp only [HasOpcode, List.mem_cons, List.not_mem_nil]
  tauto

/-- A step that answers a next state ran: it executed the fetched word, or the fetch failed (41_engine.md R101). -/
theorem step_cases {s t : State} (h : step s = .next t) :
    s.run = .running ∧
      ((∃ w, InRange s.cfg s.pc 4 ∧ s.fetch = .ok w ∧ exec (decodeWord w) s = .next t) ∨
       (¬ InRange s.cfg s.pc 4 ∧ s.fetch = .error (.outOfBounds s.pc) ∧ t = s.raise (.outOfBounds s.pc))) := by
  unfold step at h
  split at h
  · rename_i hr
    refine ⟨hr, ?_⟩
    rcases fetch_eq s with ⟨hi, e⟩ | ⟨hi, e⟩ <;> rw [e] at h
    · exact .inl ⟨_, hi, e, h⟩
    · exact .inr ⟨hi, e, by injection h with h; exact h.symm⟩
  · cases h
  · cases h

/-- The step of a running machine is exec of the fetched word (41_engine.md R101). -/
theorem step_of_fetch {s : State} {w : Word} (hr : s.run = .running) (hf : s.fetch = .ok w) :
    step s = exec (decodeWord w) s := by
  unfold step
  rw [hr, hf]

/-! ## Everything a step can do -/

/-- Everything executing a word can do, by its opcode class. -/
def WordDoes (s : State) (w : Word) (t : State) : Prop :=
  (w.extractLsb' 0 7 ∈ [0x37#7, 0x17#7, 0x13#7, 0x33#7] ∧ ∃ v, WritesAndAdvances s t (w.extractLsb' 7 5) v) ∨
    (w.extractLsb' 0 7 = 0x6F#7 ∧ WritesReg s t (w.extractLsb' 7 5) (s.pc + 4#32) ∧
      t.pc = s.pc + (jImmediate w).signExtend 32 ∧ KeepsMemory s t ∧ GoesOn s t []) ∨
    (w.extractLsb' 0 7 = 0x67#7 ∧ WritesReg s t (w.extractLsb' 7 5) (s.pc + 4#32) ∧
      t.pc = s.x (w.extractLsb' 15 5) + (w.extractLsb' 20 12).signExtend 32 ∧ KeepsMemory s t ∧ GoesOn s t []) ∨
    (w.extractLsb' 0 7 = 0x63#7 ∧
      (w.extractLsb' 12 3 ∈ [2#3, 3#3] → EndsRun s t (.faulted (.unsupportedEncoding w)) []) ∧
      (w.extractLsb' 12 3 ∉ [2#3, 3#3] →
        (BranchTaken (w.extractLsb' 12 3) (s.x (w.extractLsb' 15 5)) (s.x (w.extractLsb' 20 5)) →
          OnlyMovesPc s t (s.pc + (bImmediate w).signExtend 32) []) ∧
        (¬ BranchTaken (w.extractLsb' 12 3) (s.x (w.extractLsb' 15 5)) (s.x (w.extractLsb' 20 5)) →
          OnlyMovesPc s t (s.pc + 4#32) []))) ∨
    (w.extractLsb' 0 7 = 0x03#7 ∧ LoadDoes s w t) ∨
    (w.extractLsb' 0 7 = 0x23#7 ∧ StoreDoes s w t) ∨
    (w.extractLsb' 0 7 = 0x0F#7 ∧ OnlyMovesPc s t (s.pc + 4#32) []) ∨
    (w.extractLsb' 0 7 = 0x73#7 ∧ SystemDoes s w t) ∨
    (w.extractLsb' 0 7 ∉
        [0x37#7, 0x17#7, 0x6F#7, 0x67#7, 0x63#7, 0x03#7, 0x23#7, 0x13#7, 0x33#7, 0x0F#7, 0x73#7] ∧
      EndsRun s t (.faulted (.unsupportedEncoding w)) [])

/-- Executing a word answers a next state, and does what its class does (41_engine.md R105). -/
theorem exec_word (w : Word) (s : State) : ∃ t, exec (decodeWord w) s = .next t ∧ WordDoes s w t := by
  unfold WordDoes
  rcases opcode_cases w with h | h | h | h | h | h | h | h | h | h | h
  · obtain ⟨u, v, e, p⟩ := upper_word s h
    exact ⟨u, e, .inl ⟨by rcases h with h | h <;> simp only [HasOpcode] at h <;> simp [h], v, p⟩⟩
  · obtain ⟨u, e, p⟩ := jal_word s h
    exact ⟨u, e, .inr (.inl ⟨h, p⟩)⟩
  · obtain ⟨u, e, p⟩ := jalr_word s h
    exact ⟨u, e, .inr (.inr (.inl ⟨h, p⟩))⟩
  · obtain ⟨u, e, p⟩ := branch_word s h
    exact ⟨u, e, .inr (.inr (.inr (.inl ⟨h, p⟩)))⟩
  · obtain ⟨u, e, p⟩ := load_word s h
    exact ⟨u, e, .inr (.inr (.inr (.inr (.inl ⟨h, p⟩))))⟩
  · obtain ⟨u, e, p⟩ := store_word s h
    exact ⟨u, e, .inr (.inr (.inr (.inr (.inr (.inl ⟨h, p⟩)))))⟩
  · obtain ⟨u, v, e, p⟩ := imm_word s h
    exact ⟨u, e, .inl ⟨by simp only [HasOpcode] at h; simp [h], v, p⟩⟩
  · obtain ⟨u, v, e, p⟩ := op_word s h
    exact ⟨u, e, .inl ⟨by simp only [HasOpcode] at h; simp [h], v, p⟩⟩
  · obtain ⟨u, e, p⟩ := misc_word s h
    exact ⟨u, e, .inr (.inr (.inr (.inr (.inr (.inr (.inl ⟨h, p⟩))))))⟩
  · obtain ⟨u, e, p⟩ := system_word s h
    exact ⟨u, e, .inr (.inr (.inr (.inr (.inr (.inr (.inr (.inl ⟨h, p⟩)))))))⟩
  · obtain ⟨u, e, p⟩ := illegal_word s h
    exact ⟨u, e, .inr (.inr (.inr (.inr (.inr (.inr (.inr (.inr ⟨(classify_none_iff _).mp h, p⟩)))))))⟩

/-- What a step did, where the fetched word is known. -/
theorem step_word {s t : State} {w : Word} (hf : s.fetch = .ok w) (h : step s = .next t) :
    s.run = .running ∧ WordDoes s w t := by
  obtain ⟨hr, ⟨w', _, hf', h⟩ | ⟨_, hf', _⟩⟩ := step_cases h
  · rw [hf] at hf'
    injection hf' with hf'
    subst hf'
    obtain ⟨u, e, p⟩ := exec_word w s
    rw [h] at e
    injection e with e
    exact ⟨hr, e ▸ p⟩
  · rw [hf] at hf'
    cases hf'

end Sys2Proof.Machine
end

