-- ==== Sys2Proof/Laws/Driver.lean ====
section
/-! SUPPORT. One more step of a run and of the driver's loop, and that a running machine answers every step. -/

namespace Sys2Proof.Machine

/-- A RUNNING machine answers a next state. -/
theorem step_answers {s : State} (h : s.run = .running) : ∃ t, step s = .next t := by
  rcases fetch_eq s with ⟨_, e⟩ | ⟨_, e⟩
  · obtain ⟨t, ht, _⟩ := exec_word _ s
    exact ⟨t, (step_of_fetch h e).trans ht⟩
  · exact ⟨_, by unfold step; rw [h, e]⟩

/-- The first step of a run of several. -/
theorem run_succ {s t : State} (h : step s = .next t) (k : Nat) :
    Host.Core.run core (k + 1) s = Host.Core.run core k t := by
  have h' : Host.Core.step core s = .next t := h
  simp only [Host.Core.run, h']

/-- The driver's loop with fuel for one more step. -/
theorem drive_succ {s t : State} (h : step s = .next t) (fuel : Nat) :
    drive (fuel + 1) s = if t.report = .continued then drive fuel t else .stopped t := by
  conv => lhs; unfold drive
  rw [h]

/-- CONTINUE is reported exactly in RUNNING. -/
theorem report_continued_iff (s : State) : s.report = .continued ↔ s.run = .running := by
  unfold State.report
  cases s.run <;> simp

end Sys2Proof.Machine
end

