-- ==== Sys2Proof/Laws/Frames.lean ====
section
/-! SUPPORT. What every instruction, every step and the load phase leave alone, said once. -/

namespace Sys2Proof.Machine

/-- Memory is unchanged, or one byte string has been stored at an address in range, in perform mode. -/
def StoresAtMost (s t : State) : Prop :=
  t.mem = s.mem ∨ (s.cfg.loadStoreMode = .perform ∧
    ∃ (a : Word) (bs : List Byte), InRange s.cfg a bs.length ∧ t.mem = s.mem.writeBytes a.toNat bs)

/-- What every instruction leaves alone: the parameters, entry 0, and memory but for one store in range. -/
theorem exec_frame (i : Instr) (s t : State) (h : exec i s = .next t) :
    t.cfg = s.cfg ∧ t.regs[0] = s.regs[0] ∧
    StoresAtMost s t := by
  have st : ∀ n rs2 rs1 imm, store n rs2 rs1 imm s = .next t →
      t.cfg = s.cfg ∧ t.regs[0] = s.regs[0] ∧
    StoresAtMost s t := by
    intro n rs2 rs1 imm h
    unfold store at h
    simp only at h
    cases hm : s.cfg.loadStoreMode <;> rw [hm] at h
    · injection h with h; subst h; exact ⟨by simp, by simp, .inl (by simp)⟩
    · injection h with h
      unfold State.performStore at h
      generalize s.effectiveAddress rs1 imm = ea at h
      rcases memWrite_eq (s.emit (.store ea (s.x rs2))) ea n (s.x rs2) with ⟨hr, e⟩ | ⟨hr, e⟩ <;>
        rw [e] at h <;> subst h
      · refine ⟨by simp, by simp, .inr ⟨hm, ea, _, ?_, by simp; rfl⟩⟩
        rw [length_take_leBytes]; exact hr
      · exact ⟨by simp, by simp, .inl (by simp)⟩
  have ld : ∀ n ext rd rs1 imm, load n ext rd rs1 imm s = .next t →
      t.cfg = s.cfg ∧ t.regs[0] = s.regs[0] ∧ t.mem = s.mem := by
    intro n ext rd rs1 imm h
    unfold load at h
    simp only at h
    cases hm : s.cfg.loadStoreMode <;> rw [hm] at h
    · injection h with h; subst h; simp
    · injection h with h
      unfold State.performLoad at h
      split at h <;> subst h <;> simp
  have br : ∀ c rs1 rs2 imm, branchOn c rs1 rs2 imm s = .next t →
      t.cfg = s.cfg ∧ t.regs[0] = s.regs[0] ∧ t.mem = s.mem := by
    intro c rs1 rs2 imm h
    unfold branchOn at h
    split at h <;> injection h with h <;> subst h <;> simp
  have ec : ecallCheck s = .next t → t.cfg = s.cfg ∧ t.regs[0] = s.regs[0] ∧ t.mem = s.mem := by
    intro h
    unfold ecallCheck at h
    simp only at h
    split at h <;> injection h with h <;> subst h <;> simp
  have up : ∀ {P Q : Prop}, P ∧ Q ∧ t.mem = s.mem → P ∧ Q ∧ StoresAtMost s t :=
    fun ⟨a, b, c⟩ => ⟨a, b, .inl c⟩
  cases i
  case sb | sh | sw => exact st _ _ _ _ h
  all_goals apply up
  case lb | lh | lw | lbu | lhu => exact ld _ _ _ _ _ h
  case beq | bne | blt | bge | bltu | bgeu => exact br _ _ _ _ h
  case ecall | ebreak | sret | mret | wfi => exact ec h
  case loadOther =>
    simp only [exec, execLoadOther] at h
    split at h <;> injection h with h <;> subst h <;> simp
  case storeOther =>
    simp only [exec, execStoreOther] at h
    split at h <;> injection h with h <;> subst h <;> simp
  case csrrw =>
    simp only [exec, execCsrrw] at h
    split at h <;> injection h with h <;> subst h <;> simp
  all_goals
    injection h with h
    subst h
    simp

/-- The same of a step. -/
theorem step_frame (s t : State) (h : step s = .next t) :
    t.cfg = s.cfg ∧ t.regs[0] = s.regs[0] ∧
    StoresAtMost s t := by
  obtain ⟨_, ⟨w, _, _, h⟩ | ⟨_, _, rfl⟩⟩ := step_cases h
  · exact exec_frame _ _ _ h
  · exact ⟨by simp, by simp, .inl (by simp)⟩

/-- The load phase keeps the invariant and touches memory alone. -/
theorem loadSegments_frame (segs : List (List Byte × Word)) :
    ∀ (s t : State), s.loadSegments segs = .ok t → s.Inv →
      t.Inv ∧ t.regs = s.regs ∧ t.cfg = s.cfg ∧ t.run = s.run := by
  induction segs with
  | nil => intro s t h hi; injection h with h; subst h; exact ⟨hi, rfl, rfl, rfl⟩
  | cons p rest ih =>
    intro s t h hi
    obtain ⟨bytes, addr⟩ := p
    unfold State.loadSegments at h
    rcases loadSegment_eq s bytes addr with ⟨hr, e⟩ | ⟨hr, e⟩ <;> rw [e] at h
    · refine ih { s with mem := s.mem.writeBytes addr.toNat bytes } t h
        ⟨hi.1, Memory.wf_writeBytes _ _ _ hi.2.1, ?_, hi.2.2.2⟩
      intro c hc
      rcases Memory.mem_writeBytes _ _ _ _ hc with h' | h'
      · rcases hr with rfl | hr
        · simp at h'; omega
        · unfold InRange at hr; show s.cfg.memBase ≤ _ ∧ _ < s.cfg.memBase + s.cfg.memSize; omega
      · exact hi.2.2.1 c h'
    · cases h

/-- A run that ended shows the register file it ended with: general registers and the pc are all of it. -/
theorem dump_of_endsRun {s t : State} {run : RunState} {events : List TraceEvent} (h : EndsRun s t run events) :
    t.dump = s.dump := by
  refine List.map_congr_left fun i _ => ?_
  by_cases hi : i.val < 32
  · have := h.1 (BitVec.ofNat 5 i.val)
    have e : regIndex (BitVec.ofNat 5 i.val) = i := by
      apply Fin.ext
      show (BitVec.ofNat 5 i.val).toNat = i.val
      simp only [BitVec.toNat_ofNat]; omega
    simpa [State.x, e] using this
  · have e : i = pcIndex := Fin.ext (by show i.val = 32; omega)
    rw [e]; exact h.2.1

end Sys2Proof.Machine
end

