-- ==== Sys2Proof/Laws/PerInstr.lean ====
section
/-! SUPPORT. Per-instruction statements, one lemma per constructor. EncodesClass: the word of a well-formed
instruction has its opcode class's number in bits 6 to 0, and `illegal` stands for no class (30_encoding.md
R51, R66). -/

/-- The opcode class of an instruction, none for `illegal`. -/
def Sys2Proof.Laws.classOf : Sys2Proof.Instr → Option Sys2Proof.Machine.OpClass
  | .lui _ _ => some .lui
  | .auipc _ _ => some .auipc
  | .jal _ _ => some .jal
  | .jalr _ _ _ _ => some .jalr
  | .beq _ _ _ => some .branch
  | .bne _ _ _ => some .branch
  | .blt _ _ _ => some .branch
  | .bge _ _ _ => some .branch
  | .bltu _ _ _ => some .branch
  | .bgeu _ _ _ => some .branch
  | .branchReserved _ _ _ _ => some .branch
  | .lb _ _ _ => some .load
  | .lh _ _ _ => some .load
  | .lw _ _ _ => some .load
  | .lbu _ _ _ => some .load
  | .lhu _ _ _ => some .load
  | .loadOther _ _ _ _ => some .load
  | .sb _ _ _ => some .store
  | .sh _ _ _ => some .store
  | .sw _ _ _ => some .store
  | .storeOther _ _ _ _ => some .store
  | .addi _ _ _ => some .imm
  | .slti _ _ _ => some .imm
  | .sltiu _ _ _ => some .imm
  | .xori _ _ _ => some .imm
  | .ori _ _ _ => some .imm
  | .andi _ _ _ => some .imm
  | .slli _ _ _ => some .imm
  | .srai _ _ _ => some .imm
  | .srli _ _ _ => some .imm
  | .sub _ _ _ => some .op
  | .add _ _ _ _ => some .op
  | .sll _ _ _ _ => some .op
  | .slt _ _ _ _ => some .op
  | .sltu _ _ _ _ => some .op
  | .xor _ _ _ _ => some .op
  | .sra _ _ _ => some .op
  | .srl _ _ _ _ => some .op
  | .or _ _ _ _ => some .op
  | .and _ _ _ _ => some .op
  | .fenceI _ _ _ => some .misc
  | .fence _ _ _ _ => some .misc
  | .ebreak => some .system
  | .sret => some .system
  | .mret => some .system
  | .wfi => some .system
  | .ecall _ _ _ => some .system
  | .csrrw _ _ _ => some .system
  | .csrrs _ _ _ => some .system
  | .csrrc _ _ _ => some .system
  | .csrrwi _ _ _ => some .system
  | .csrrsi _ _ _ => some .system
  | .csrrci _ _ _ => some .system
  | .systemReserved _ _ _ => some .system
  | .illegal _ => none

/-- A well-formed instruction's word decodes to its class. -/
def Sys2Proof.Laws.EncodesClass.Statement (i : Sys2Proof.Instr) : Prop :=
  i.WellFormed → Sys2Proof.Machine.classify (Sys2Proof.Machine.opcodeOf (Sys2Proof.encode i)) =
    Sys2Proof.Laws.classOf i

open Sys2Proof Sys2Proof.Machine Sys2Proof.Laws

theorem Sys2Proof.Laws.EncodesClass.lui (rd : RegIdx) (imm20 : BitVec 20) :
    EncodesClass.Statement (.lui rd imm20) :=
  fun _ => (congrArg classify (opcodeOf_encU ..)).trans (classify_opcode _)

theorem Sys2Proof.Laws.EncodesClass.auipc (rd : RegIdx) (imm20 : BitVec 20) :
    EncodesClass.Statement (.auipc rd imm20) :=
  fun _ => (congrArg classify (opcodeOf_encU ..)).trans (classify_opcode _)

theorem Sys2Proof.Laws.EncodesClass.jal (rd : RegIdx) (imm : BitVec 21) :
    EncodesClass.Statement (.jal rd imm) :=
  fun _ => (congrArg classify (opcodeOf_encJ ..)).trans (classify_opcode _)

theorem Sys2Proof.Laws.EncodesClass.jalr (funct3 : BitVec 3) (rd rs1 : RegIdx) (imm : BitVec 12) :
    EncodesClass.Statement (.jalr funct3 rd rs1 imm) :=
  fun _ => (congrArg classify (opcodeOf_encI ..)).trans (classify_opcode _)

theorem Sys2Proof.Laws.EncodesClass.beq (rs1 rs2 : RegIdx) (imm : BitVec 13) :
    EncodesClass.Statement (.beq rs1 rs2 imm) :=
  fun _ => (congrArg classify (opcodeOf_encB ..)).trans (classify_opcode _)

theorem Sys2Proof.Laws.EncodesClass.bne (rs1 rs2 : RegIdx) (imm : BitVec 13) :
    EncodesClass.Statement (.bne rs1 rs2 imm) :=
  fun _ => (congrArg classify (opcodeOf_encB ..)).trans (classify_opcode _)

theorem Sys2Proof.Laws.EncodesClass.blt (rs1 rs2 : RegIdx) (imm : BitVec 13) :
    EncodesClass.Statement (.blt rs1 rs2 imm) :=
  fun _ => (congrArg classify (opcodeOf_encB ..)).trans (classify_opcode _)

theorem Sys2Proof.Laws.EncodesClass.bge (rs1 rs2 : RegIdx) (imm : BitVec 13) :
    EncodesClass.Statement (.bge rs1 rs2 imm) :=
  fun _ => (congrArg classify (opcodeOf_encB ..)).trans (classify_opcode _)

theorem Sys2Proof.Laws.EncodesClass.bltu (rs1 rs2 : RegIdx) (imm : BitVec 13) :
    EncodesClass.Statement (.bltu rs1 rs2 imm) :=
  fun _ => (congrArg classify (opcodeOf_encB ..)).trans (classify_opcode _)

theorem Sys2Proof.Laws.EncodesClass.bgeu (rs1 rs2 : RegIdx) (imm : BitVec 13) :
    EncodesClass.Statement (.bgeu rs1 rs2 imm) :=
  fun _ => (congrArg classify (opcodeOf_encB ..)).trans (classify_opcode _)

theorem Sys2Proof.Laws.EncodesClass.branchReserved (funct3 : BitVec 3) (rs1 rs2 : RegIdx) (imm : BitVec 13) :
    EncodesClass.Statement (.branchReserved funct3 rs1 rs2 imm) :=
  fun _ => (congrArg classify (opcodeOf_encB ..)).trans (classify_opcode _)

theorem Sys2Proof.Laws.EncodesClass.lb (rd rs1 : RegIdx) (imm : BitVec 12) :
    EncodesClass.Statement (.lb rd rs1 imm) :=
  fun _ => (congrArg classify (opcodeOf_encI ..)).trans (classify_opcode _)

theorem Sys2Proof.Laws.EncodesClass.lh (rd rs1 : RegIdx) (imm : BitVec 12) :
    EncodesClass.Statement (.lh rd rs1 imm) :=
  fun _ => (congrArg classify (opcodeOf_encI ..)).trans (classify_opcode _)

theorem Sys2Proof.Laws.EncodesClass.lw (rd rs1 : RegIdx) (imm : BitVec 12) :
    EncodesClass.Statement (.lw rd rs1 imm) :=
  fun _ => (congrArg classify (opcodeOf_encI ..)).trans (classify_opcode _)

theorem Sys2Proof.Laws.EncodesClass.lbu (rd rs1 : RegIdx) (imm : BitVec 12) :
    EncodesClass.Statement (.lbu rd rs1 imm) :=
  fun _ => (congrArg classify (opcodeOf_encI ..)).trans (classify_opcode _)

theorem Sys2Proof.Laws.EncodesClass.lhu (rd rs1 : RegIdx) (imm : BitVec 12) :
    EncodesClass.Statement (.lhu rd rs1 imm) :=
  fun _ => (congrArg classify (opcodeOf_encI ..)).trans (classify_opcode _)

theorem Sys2Proof.Laws.EncodesClass.loadOther (funct3 : BitVec 3) (rd rs1 : RegIdx) (imm : BitVec 12) :
    EncodesClass.Statement (.loadOther funct3 rd rs1 imm) :=
  fun _ => (congrArg classify (opcodeOf_encI ..)).trans (classify_opcode _)

theorem Sys2Proof.Laws.EncodesClass.sb (rs2 rs1 : RegIdx) (imm : BitVec 12) :
    EncodesClass.Statement (.sb rs2 rs1 imm) :=
  fun _ => (congrArg classify (opcodeOf_encS ..)).trans (classify_opcode _)

theorem Sys2Proof.Laws.EncodesClass.sh (rs2 rs1 : RegIdx) (imm : BitVec 12) :
    EncodesClass.Statement (.sh rs2 rs1 imm) :=
  fun _ => (congrArg classify (opcodeOf_encS ..)).trans (classify_opcode _)

theorem Sys2Proof.Laws.EncodesClass.sw (rs2 rs1 : RegIdx) (imm : BitVec 12) :
    EncodesClass.Statement (.sw rs2 rs1 imm) :=
  fun _ => (congrArg classify (opcodeOf_encS ..)).trans (classify_opcode _)

theorem Sys2Proof.Laws.EncodesClass.storeOther (funct3 : BitVec 3) (rs2 rs1 : RegIdx) (imm : BitVec 12) :
    EncodesClass.Statement (.storeOther funct3 rs2 rs1 imm) :=
  fun _ => (congrArg classify (opcodeOf_encS ..)).trans (classify_opcode _)

theorem Sys2Proof.Laws.EncodesClass.addi (rd rs1 : RegIdx) (imm : BitVec 12) :
    EncodesClass.Statement (.addi rd rs1 imm) :=
  fun _ => (congrArg classify (opcodeOf_encI ..)).trans (classify_opcode _)

theorem Sys2Proof.Laws.EncodesClass.slti (rd rs1 : RegIdx) (imm : BitVec 12) :
    EncodesClass.Statement (.slti rd rs1 imm) :=
  fun _ => (congrArg classify (opcodeOf_encI ..)).trans (classify_opcode _)

theorem Sys2Proof.Laws.EncodesClass.sltiu (rd rs1 : RegIdx) (imm : BitVec 12) :
    EncodesClass.Statement (.sltiu rd rs1 imm) :=
  fun _ => (congrArg classify (opcodeOf_encI ..)).trans (classify_opcode _)

theorem Sys2Proof.Laws.EncodesClass.xori (rd rs1 : RegIdx) (imm : BitVec 12) :
    EncodesClass.Statement (.xori rd rs1 imm) :=
  fun _ => (congrArg classify (opcodeOf_encI ..)).trans (classify_opcode _)

theorem Sys2Proof.Laws.EncodesClass.ori (rd rs1 : RegIdx) (imm : BitVec 12) :
    EncodesClass.Statement (.ori rd rs1 imm) :=
  fun _ => (congrArg classify (opcodeOf_encI ..)).trans (classify_opcode _)

theorem Sys2Proof.Laws.EncodesClass.andi (rd rs1 : RegIdx) (imm : BitVec 12) :
    EncodesClass.Statement (.andi rd rs1 imm) :=
  fun _ => (congrArg classify (opcodeOf_encI ..)).trans (classify_opcode _)

theorem Sys2Proof.Laws.EncodesClass.slli (rd rs1 : RegIdx) (imm : BitVec 12) :
    EncodesClass.Statement (.slli rd rs1 imm) :=
  fun _ => (congrArg classify (opcodeOf_encI ..)).trans (classify_opcode _)

theorem Sys2Proof.Laws.EncodesClass.srai (rd rs1 : RegIdx) (shamt : BitVec 5) :
    EncodesClass.Statement (.srai rd rs1 shamt) :=
  fun _ => (congrArg classify (opcodeOf_encI ..)).trans (classify_opcode _)

theorem Sys2Proof.Laws.EncodesClass.srli (rd rs1 : RegIdx) (imm : BitVec 12) :
    EncodesClass.Statement (.srli rd rs1 imm) :=
  fun _ => (congrArg classify (opcodeOf_encI ..)).trans (classify_opcode _)

theorem Sys2Proof.Laws.EncodesClass.sub (rd rs1 rs2 : RegIdx) :
    EncodesClass.Statement (.sub rd rs1 rs2) :=
  fun _ => (congrArg classify (opcodeOf_encR ..)).trans (classify_opcode _)

theorem Sys2Proof.Laws.EncodesClass.add (funct7 : BitVec 7) (rd rs1 rs2 : RegIdx) :
    EncodesClass.Statement (.add funct7 rd rs1 rs2) :=
  fun _ => (congrArg classify (opcodeOf_encR ..)).trans (classify_opcode _)

theorem Sys2Proof.Laws.EncodesClass.sll (funct7 : BitVec 7) (rd rs1 rs2 : RegIdx) :
    EncodesClass.Statement (.sll funct7 rd rs1 rs2) :=
  fun _ => (congrArg classify (opcodeOf_encR ..)).trans (classify_opcode _)

theorem Sys2Proof.Laws.EncodesClass.slt (funct7 : BitVec 7) (rd rs1 rs2 : RegIdx) :
    EncodesClass.Statement (.slt funct7 rd rs1 rs2) :=
  fun _ => (congrArg classify (opcodeOf_encR ..)).trans (classify_opcode _)

theorem Sys2Proof.Laws.EncodesClass.sltu (funct7 : BitVec 7) (rd rs1 rs2 : RegIdx) :
    EncodesClass.Statement (.sltu funct7 rd rs1 rs2) :=
  fun _ => (congrArg classify (opcodeOf_encR ..)).trans (classify_opcode _)

theorem Sys2Proof.Laws.EncodesClass.xor (funct7 : BitVec 7) (rd rs1 rs2 : RegIdx) :
    EncodesClass.Statement (.xor funct7 rd rs1 rs2) :=
  fun _ => (congrArg classify (opcodeOf_encR ..)).trans (classify_opcode _)

theorem Sys2Proof.Laws.EncodesClass.sra (rd rs1 rs2 : RegIdx) :
    EncodesClass.Statement (.sra rd rs1 rs2) :=
  fun _ => (congrArg classify (opcodeOf_encR ..)).trans (classify_opcode _)

theorem Sys2Proof.Laws.EncodesClass.srl (funct7 : BitVec 7) (rd rs1 rs2 : RegIdx) :
    EncodesClass.Statement (.srl funct7 rd rs1 rs2) :=
  fun _ => (congrArg classify (opcodeOf_encR ..)).trans (classify_opcode _)

theorem Sys2Proof.Laws.EncodesClass.or (funct7 : BitVec 7) (rd rs1 rs2 : RegIdx) :
    EncodesClass.Statement (.or funct7 rd rs1 rs2) :=
  fun _ => (congrArg classify (opcodeOf_encR ..)).trans (classify_opcode _)

theorem Sys2Proof.Laws.EncodesClass.and (funct7 : BitVec 7) (rd rs1 rs2 : RegIdx) :
    EncodesClass.Statement (.and funct7 rd rs1 rs2) :=
  fun _ => (congrArg classify (opcodeOf_encR ..)).trans (classify_opcode _)

theorem Sys2Proof.Laws.EncodesClass.fenceI (imm : BitVec 12) (rs1 rd : RegIdx) :
    EncodesClass.Statement (.fenceI imm rs1 rd) :=
  fun _ => (congrArg classify (opcodeOf_encI ..)).trans (classify_opcode _)

theorem Sys2Proof.Laws.EncodesClass.fence (funct3 : BitVec 3) (imm : BitVec 12) (rs1 rd : RegIdx) :
    EncodesClass.Statement (.fence funct3 imm rs1 rd) :=
  fun _ => (congrArg classify (opcodeOf_encI ..)).trans (classify_opcode _)

theorem Sys2Proof.Laws.EncodesClass.ebreak :
    EncodesClass.Statement (.ebreak) :=
  fun _ => by decide

theorem Sys2Proof.Laws.EncodesClass.sret :
    EncodesClass.Statement (.sret) :=
  fun _ => by decide

theorem Sys2Proof.Laws.EncodesClass.mret :
    EncodesClass.Statement (.mret) :=
  fun _ => by decide

theorem Sys2Proof.Laws.EncodesClass.wfi :
    EncodesClass.Statement (.wfi) :=
  fun _ => by decide

theorem Sys2Proof.Laws.EncodesClass.ecall (imm : BitVec 12) (rs1 rd : RegIdx) :
    EncodesClass.Statement (.ecall imm rs1 rd) :=
  fun _ => (congrArg classify (opcodeOf_encI ..)).trans (classify_opcode _)

theorem Sys2Proof.Laws.EncodesClass.csrrw (rd : RegIdx) (csr : BitVec 12) (rs1 : RegIdx) :
    EncodesClass.Statement (.csrrw rd csr rs1) :=
  fun _ => (congrArg classify (opcodeOf_encI ..)).trans (classify_opcode _)

theorem Sys2Proof.Laws.EncodesClass.csrrs (rd : RegIdx) (csr : BitVec 12) (rs1 : RegIdx) :
    EncodesClass.Statement (.csrrs rd csr rs1) :=
  fun _ => (congrArg classify (opcodeOf_encI ..)).trans (classify_opcode _)

theorem Sys2Proof.Laws.EncodesClass.csrrc (rd : RegIdx) (csr : BitVec 12) (rs1 : RegIdx) :
    EncodesClass.Statement (.csrrc rd csr rs1) :=
  fun _ => (congrArg classify (opcodeOf_encI ..)).trans (classify_opcode _)

theorem Sys2Proof.Laws.EncodesClass.csrrwi (rd : RegIdx) (csr : BitVec 12) (uimm : BitVec 5) :
    EncodesClass.Statement (.csrrwi rd csr uimm) :=
  fun _ => (congrArg classify (opcodeOf_encI ..)).trans (classify_opcode _)

theorem Sys2Proof.Laws.EncodesClass.csrrsi (rd : RegIdx) (csr : BitVec 12) (uimm : BitVec 5) :
    EncodesClass.Statement (.csrrsi rd csr uimm) :=
  fun _ => (congrArg classify (opcodeOf_encI ..)).trans (classify_opcode _)

theorem Sys2Proof.Laws.EncodesClass.csrrci (rd : RegIdx) (csr : BitVec 12) (uimm : BitVec 5) :
    EncodesClass.Statement (.csrrci rd csr uimm) :=
  fun _ => (congrArg classify (opcodeOf_encI ..)).trans (classify_opcode _)

theorem Sys2Proof.Laws.EncodesClass.systemReserved (imm : BitVec 12) (rs1 rd : RegIdx) :
    EncodesClass.Statement (.systemReserved imm rs1 rd) :=
  fun _ => (congrArg classify (opcodeOf_encI ..)).trans (classify_opcode _)

theorem Sys2Proof.Laws.EncodesClass.illegal (word : Word) :
    EncodesClass.Statement (.illegal word) :=
  fun h => Option.isNone_iff_eq_none.mp h
end

