-- ==== Sys2Proof/Tests/Slice0.lean ====
section
/-! SUPPORT. The model's own tests. Expected results come from the spec: the worked examples of the rules and
the vectors of 95_test_vectors.md, cited in each section. Every step test is one step from the reset state with
the named registers set and the word stored at the pc. Last come the witnesses: for every statement with
hypotheses, concrete states and operands that meet them, one for each clause. -/

namespace Sys2Proof.Tests

open Sys2Proof.Machine

/-! ## Helpers -/

/-- The reset state of a configuration with a pc, the word at it, and some registers set. -/
def start (c : Config) (pc word : Word) (regs : List (RegIdx × Word)) : State :=
  regs.foldl (fun s p => s.setX p.1 p.2) (((State.resetWith c).setPc pc).placeWord word)

/-- The reference configuration with LOADSTORE_MODE = `perform`. -/
def performing : Config := { Config.reference with loadStoreMode := .perform }

/-- The reference configuration with AUIPC_MODE = `shifted`. -/
def shifting : Config := { Config.reference with auipcMode := .shifted }

/-- The reference configuration with ECALL_REG = 10. -/
def askingTen : Config := { Config.reference with ecallReg := 10#5 }

/-- The state after one step, none where the step answers no next state. -/
def after (s : State) : Option State :=
  match step s with
  | .next t => some t
  | .fault _ => none
  | .refused _ => none

/-- The run goes on with this pc, these registers and just these events. -/
def goesOn (s : State) (pc : Word) (regs : List (RegIdx × Word)) (events : List TraceEvent := []) : Bool :=
  match after s with
  | some t => t.run == .running && t.pc == pc && regs.all (fun p => t.x p.1 == p.2) && t.trace == events
  | none => false

/-- The run ends so, with registers, pc and memory as they were and just these events. -/
def ends (s : State) (run : RunState) (events : List TraceEvent := []) : Bool :=
  match after s with
  | some t => t.run == run && t.regs == s.regs && t.mem == s.mem && t.trace == events
  | none => false

/-- The bytes at an address after one step. -/
def bytesAfter (s : State) (a : Nat) (n : Nat) : List Byte :=
  match after s with
  | some t => t.mem.readBytes a n
  | none => []

/-- A state with some bytes stored. -/
def withBytes (s : State) (a : Nat) (bytes : List Byte) : State := { s with mem := s.mem.writeBytes a bytes }

/-! ## WellFormed refuses an ill-formed term for each check (30_encoding.md R56, R58, R65, R66) -/

theorem test_wf_odd_jump : ¬ (Instr.jal 1#5 1#21).WellFormed := by decide
theorem test_wf_odd_branches :
    ¬ (Instr.beq 1#5 2#5 1#13).WellFormed ∧ ¬ (Instr.bne 1#5 2#5 3#13).WellFormed ∧
    ¬ (Instr.blt 1#5 2#5 5#13).WellFormed ∧ ¬ (Instr.bge 1#5 2#5 7#13).WellFormed ∧
    ¬ (Instr.bltu 1#5 2#5 9#13).WellFormed ∧ ¬ (Instr.bgeu 1#5 2#5 11#13).WellFormed := by decide
theorem test_wf_branch_reserved :
    ¬ (Instr.branchReserved 0#3 1#5 2#5 0#13).WellFormed ∧ ¬ (Instr.branchReserved 2#3 1#5 2#5 1#13).WellFormed := by
  decide
theorem test_wf_load_other : ¬ (Instr.loadOther 2#3 1#5 2#5 0#12).WellFormed := by decide
theorem test_wf_store_other : ¬ (Instr.storeOther 2#3 1#5 2#5 0#12).WellFormed := by decide
theorem test_wf_srli_is_not_srai : ¬ (Instr.srli 1#5 2#5 0x404#12).WellFormed := by decide
theorem test_wf_add_is_not_sub : ¬ (Instr.add 0x20#7 1#5 2#5 3#5).WellFormed := by decide
theorem test_wf_srl_is_not_sra : ¬ (Instr.srl 0x20#7 1#5 2#5 3#5).WellFormed := by decide
theorem test_wf_fence_is_not_fenceI : ¬ (Instr.fence 1#3 0#12 0#5 0#5).WellFormed := by decide
theorem test_wf_ecall_is_no_named_word :
    ¬ (Instr.ecall 0x001#12 0#5 0#5).WellFormed ∧ ¬ (Instr.ecall 0x102#12 0#5 0#5).WellFormed ∧
    ¬ (Instr.ecall 0x302#12 0#5 0#5).WellFormed ∧ ¬ (Instr.ecall 0x105#12 0#5 0#5).WellFormed := by decide
theorem test_wf_illegal_has_no_class : ¬ (Instr.illegal 0x00000013#32).WellFormed := by decide

/-! ## Decoding: a word of every constructor, from the spec's encodings (95_test_vectors.md, the family files) -/

theorem test_decode_upper :
    decodeWord 0x12345537#32 = .lui 10#5 0x12345#20 ∧ decodeWord 0xFFFFF297#32 = .auipc 5#5 0xFFFFF#20 := by decide
theorem test_decode_jumps :
    decodeWord 0x00C000EF#32 = .jal 1#5 12#21 ∧ decodeWord 0x800000EF#32 = .jal 1#5 0x100000#21 ∧
    decodeWord 0x7FFFF0EF#32 = .jal 1#5 0x0FFFFE#21 ∧ decodeWord 0xFFC302E7#32 = .jalr 0#3 5#5 6#5 0xFFC#12 ∧
    decodeWord 0x00009067#32 = .jalr 1#3 0#5 1#5 0#12 := by decide
theorem test_decode_branches :
    decodeWord 0x00208863#32 = .beq 1#5 2#5 16#13 ∧ decodeWord 0xFE009CE3#32 = .bne 1#5 0#5 0x1FF8#13 ∧
    decodeWord 0x0020C863#32 = .blt 1#5 2#5 16#13 ∧ decodeWord 0x0020D863#32 = .bge 1#5 2#5 16#13 ∧
    decodeWord 0x0020E863#32 = .bltu 1#5 2#5 16#13 ∧ decodeWord 0x0020F863#32 = .bgeu 1#5 2#5 16#13 ∧
    decodeWord 0x0020A863#32 = .branchReserved 2#3 1#5 2#5 16#13 ∧
    decodeWord 0x7E000FE3#32 = .beq 0#5 0#5 0x0FFE#13 ∧ decodeWord 0x80000063#32 = .beq 0#5 0#5 0x1000#13 := by decide
theorem test_decode_loads :
    decodeWord 0xFFC08183#32 = .lb 3#5 1#5 0xFFC#12 ∧ decodeWord 0xFFC09183#32 = .lh 3#5 1#5 0xFFC#12 ∧
    decodeWord 0xFFC0A183#32 = .lw 3#5 1#5 0xFFC#12 ∧ decodeWord 0xFFC0C183#32 = .lbu 3#5 1#5 0xFFC#12 ∧
    decodeWord 0xFFC0D183#32 = .lhu 3#5 1#5 0xFFC#12 ∧ decodeWord 0x0000B183#32 = .loadOther 3#3 3#5 1#5 0#12 := by
  decide
theorem test_decode_stores :
    decodeWord 0xFE208E23#32 = .sb 2#5 1#5 0xFFC#12 ∧ decodeWord 0xFE209E23#32 = .sh 2#5 1#5 0xFFC#12 ∧
    decodeWord 0x7E20AFA3#32 = .sw 2#5 1#5 0x7FF#12 ∧ decodeWord 0x8020A023#32 = .sw 2#5 1#5 0x800#12 ∧
    decodeWord 0x0020B023#32 = .storeOther 3#3 2#5 1#5 0#12 := by decide
theorem test_decode_imm :
    decodeWord 0x80028293#32 = .addi 5#5 5#5 0x800#12 ∧ decodeWord 0xFFF0A113#32 = .slti 2#5 1#5 0xFFF#12 ∧
    decodeWord 0x0010B113#32 = .sltiu 2#5 1#5 1#12 ∧ decodeWord 0xFFF0C113#32 = .xori 2#5 1#5 0xFFF#12 ∧
    decodeWord 0x0F00E113#32 = .ori 2#5 1#5 0x0F0#12 ∧ decodeWord 0xFF00F113#32 = .andi 2#5 1#5 0xFF0#12 ∧
    decodeWord 0x00409113#32 = .slli 2#5 1#5 4#12 ∧ decodeWord 0x4040D293#32 = .srai 5#5 1#5 4#5 ∧
    decodeWord 0x0040D213#32 = .srli 4#5 1#5 4#12 := by decide
theorem test_decode_op :
    decodeWord 0x402081B3#32 = .sub 3#5 1#5 2#5 ∧ decodeWord 0x022081B3#32 = .add 1#7 3#5 1#5 2#5 ∧
    decodeWord 0x002091B3#32 = .sll 0#7 3#5 1#5 2#5 ∧ decodeWord 0x0020A1B3#32 = .slt 0#7 3#5 1#5 2#5 ∧
    decodeWord 0x0000B1B3#32 = .sltu 0#7 3#5 1#5 0#5 ∧ decodeWord 0x0020C1B3#32 = .xor 0#7 3#5 1#5 2#5 ∧
    decodeWord 0x4060D4B3#32 = .sra 9#5 1#5 6#5 ∧ decodeWord 0x0020D1B3#32 = .srl 0#7 3#5 1#5 2#5 ∧
    decodeWord 0x0020E1B3#32 = .or 0#7 3#5 1#5 2#5 ∧ decodeWord 0x0020F1B3#32 = .and 0#7 3#5 1#5 2#5 := by decide
theorem test_decode_misc :
    decodeWord 0x0FF0000F#32 = .fence 0#3 0x0FF#12 0#5 0#5 ∧ decodeWord 0x0000100F#32 = .fenceI 0#12 0#5 0#5 := by
  decide
theorem test_decode_system :
    decodeWord 0x00000073#32 = .ecall 0#12 0#5 0#5 ∧ decodeWord 0x00100073#32 = .ebreak ∧
    decodeWord 0x10200073#32 = .sret ∧ decodeWord 0x30200073#32 = .mret ∧ decodeWord 0x10500073#32 = .wfi ∧
    decodeWord 0xC00312F3#32 = .csrrw 5#5 0xC00#12 6#5 ∧ decodeWord 0x300322F3#32 = .csrrs 5#5 0x300#12 6#5 ∧
    decodeWord 0x300332F3#32 = .csrrc 5#5 0x300#12 6#5 ∧ decodeWord 0x300352F3#32 = .csrrwi 5#5 0x300#12 6#5 ∧
    decodeWord 0x300362F3#32 = .csrrsi 5#5 0x300#12 6#5 ∧ decodeWord 0x300372F3#32 = .csrrci 5#5 0x300#12 6#5 ∧
    decodeWord 0xC0004073#32 = .systemReserved 0xC00#12 0#5 0#5 := by decide
theorem test_decode_illegal :
    decodeWord 0x00000000#32 = .illegal 0#32 ∧ decodeWord 0xFFFFFFFF#32 = .illegal 0xFFFFFFFF#32 ∧
    decodeWord 0x0000202F#32 = .illegal 0x202F#32 ∧ decodeWord 0x00000053#32 = .illegal 0x53#32 ∧
    decodeWord 0x0000000B#32 = .illegal 0xB#32 ∧ decodeWord 0x00000012#32 = .illegal 0x12#32 ∧
    decodeWord 0x00000007#32 = .illegal 7#32 := by decide
theorem test_decode_short_bytes : decodeBytes [0x13#8, 0x00#8, 0x00#8] = .error .truncated := by decide
theorem test_decode_bytes_are_little_endian :
    decodeBytes [0x93#8, 0x00#8, 0x50#8, 0x00#8, 0xAA#8] = .ok (.addi 1#5 0#5 5#12, [0xAA#8]) := by decide
theorem test_decode_table_word : decodeTableWord 32 0x00500093 = some (.addi 1#5 0#5 5#12) := by decide
theorem test_encode_words :
    encode (.sw 2#5 1#5 0x7FF#12) = 0x7E20AFA3#32 ∧ encode (.bne 1#5 0#5 0x1FF8#13) = 0xFE009CE3#32 ∧
    encode (.jal 0#5 0x1FFFFC#21) = 0xFFDFF06F#32 ∧ encode (.srai 5#5 1#5 4#5) = 0x4040D293#32 := by decide

/-! ## Primitives (95_test_vectors.md 2.1 to 2.3, E1, E2) -/

theorem test_extract :
    extract 0xFE009CE3#32 30 25 = 0x3F#6 ∧ extract 0xFE009CE3#32 11 8 = 0xC#4 ∧
    extract 0x12345678#32 31 12 = 0x12345#20 ∧ extract 0x80000000#32 31 31 = 1#1 := by decide
theorem test_sign_extend :
    signExtend 0x7FF#12 = 2047 ∧ signExtend 0x800#12 = -2048 ∧ signExtend 0xFFF#12 = -1 ∧
    signExtend 0x100000#21 = -1048576 ∧ signExtend 0x80000000#32 = -2147483648 := by decide
theorem test_sext :
    sext 0x800#12 = 0xFFFFF800#32 ∧ sext 0x0FFE#13 = 0x00000FFE#32 ∧ sext 0x1FFFFC#21 = 0xFFFFFFFC#32 ∧
    sext 0x80#8 = 0xFFFFFF80#32 ∧ sext 0x80000000#32 = 0x80000000#32 := by decide
theorem test_arith_shifts :
    arith .sll 0xFFFFFFFF#32 0x20#32 = 0#32 ∧ arith .sll 0x00000003#32 0x1F#32 = 0x80000000#32 ∧
    arith .srl 0x80000000#32 0x1F#32 = 1#32 ∧ arith .srl 0x80000000#32 0x404#32 = 0#32 ∧
    arith .sll 0xFFFFFFFF#32 0xFFFFF800#32 = 0#32 := by decide
theorem test_arith_compares :
    arith .slt 0x80000000#32 0x7FFFFFFF#32 = 1#32 ∧ arith .slt 5#32 5#32 = 0#32 ∧
    arith .sltu 0x80000000#32 0x7FFFFFFF#32 = 0#32 ∧ arith .sltu 1#32 0xFFFFFFFF#32 = 1#32 := by decide
theorem test_register_file :
    (State.reset.setReg 5 0x123456789).getReg 5 = 0x23456789#32 ∧ (State.reset.setReg 31 (-1)).getReg 31 = 0xFFFFFFFF#32 ∧
    (State.reset.setReg 0 0xDEADBEEF).getReg 0 = 0#32 ∧ (State.reset.setReg 32 0x180000000).getReg 32 = 0x80000000#32 := by
  decide
theorem test_decoded_record :
    (fields 0xFE20AE23#32).map Decoded.imm = some (some 0xFFFFFFFC#32) ∧
    (fields 0x00001617#32).map Decoded.imm = some (some 1#32) ∧
    (fields 0xC0001073#32).map Decoded.imm = some (some 3072#32) ∧ fields 0x00000000#32 = none := by decide

/-! ## Reset, loading, fetch, the driver (95_test_vectors.md 3.10, P1, E7) -/

theorem test_reset_steps_out_of_bounds : ends State.reset (.faulted (.outOfBounds 0#32)) = true := by decide
theorem test_fetch_word_runs_first :
    goesOn (State.reset.withFetchWord 32 0x00500093) 0x80000004#32 [(1#5, 5#32)] = true := by decide
theorem test_fetch_last_byte_unmapped :
    ends (State.reset.setPc 0x8000FFFD#32) (.faulted (.outOfBounds 0x8000FFFD#32)) = true := by decide
theorem test_fetch_misaligned :
    goesOn (withBytes (State.reset.setPc 0x80000002#32) 0x80000000
      [0xFF#8, 0xFF#8, 0x13#8, 0x00#8, 0x00#8, 0x00#8, 0xFF#8, 0xFF#8]) 0x80000006#32 [] = true := by decide
theorem test_write_then_read :
    (withBytes State.reset 0x80000010 [1#8, 2#8, 3#8, 4#8, 5#8]).read32 0x80000011#32 = .ok 0x05040302#32 := by decide
theorem test_segment_over_the_end :
    State.reset.loadSegment [1#8, 2#8] 0x8000FFFF#32 = .error (.outOfRegion 0x8000FFFF#32 2) := by decide
theorem test_segment_at_the_end :
    (match State.reset.loadSegment [1#8] 0x8000FFFF#32 with
      | .ok s => s.mem == [(0x8000FFFF, 1#8)]
      | .error _ => false) = true := by decide
theorem test_later_segment_wins :
    (match boot Config.reference [([1#8, 2#8], 0x80000000#32), ([0#8], 0x80000000#32)] with
      | .ok s => s.mem == [(0x80000001, 2#8)] && s.pc == 0x80000000#32
      | .error _ => false) = true := by decide
theorem test_memory_drops_unlisted_value : Memory.write [(7, 1#8), (9, 2#8)] 7 0#8 = [(9, 2#8)] := by decide
theorem test_halted_is_terminal : step State.reset.halt = .fault .stuckHalted := rfl
theorem test_faulted_is_terminal :
    step (State.reset.raise (.conformanceFailure 2#32)) = .fault (.stuckFaulted (.conformanceFailure 2#32)) := rfl
theorem test_driver_stops_at_halt :
    (match drive 1 (start Config.reference 0x80000010#32 0xC0001073#32 []) with
      | .stopped s => s.report == .halted && s.pc == 0x80000010#32
      | .outOfFuel _ => false) = true := by decide
theorem test_dump_of_reset : State.reset.dump = List.replicate 33 0#32 := by decide
theorem test_hex_digits : hexDigits 0x1234ABCD#32 = [1#4, 2#4, 3#4, 4#4, 0xA#4, 0xB#4, 0xC#4, 0xD#4] := by decide

/-! ## LUI, AUIPC (95_test_vectors.md 3.1) -/

theorem test_lui :
    goesOn (start Config.reference 0x80000000#32 0x12345537#32 []) 0x80000004#32 [(10#5, 0x12345000#32)] = true := by decide
theorem test_lui_x0 :
    goesOn (start Config.reference 0x80000000#32 0x12345037#32 []) 0x80000004#32 [(0#5, 0x0#32)] = true := by decide
theorem test_auipc_raw :
    goesOn (start Config.reference 0x80000010#32 0xFFFFF297#32 []) 0x80000014#32 [(5#5, 0x8010000F#32)] = true := by decide
theorem test_auipc_shifted :
    goesOn (start shifting 0x80000010#32 0xFFFFF297#32 []) 0x80000014#32 [(5#5, 0x7FFFF010#32)] = true := by decide

/-! ## IMM (95_test_vectors.md 3.2) -/

theorem test_addi_wraps :
    goesOn (start Config.reference 0x80000000#32 0x7FF28293#32 [(5#5, 0x7FFFFFFF#32)]) 0x80000004#32 [(5#5, 0x800007FE#32)] = true := by decide
theorem test_addi_negative :
    goesOn (start Config.reference 0x80000000#32 0x80028293#32 [(5#5, 0x0#32)]) 0x80000004#32 [(5#5, 0xFFFFF800#32)] = true := by decide
theorem test_slti_less :
    goesOn (start Config.reference 0x80000000#32 0xFFF0A113#32 [(1#5, 0xFFFFFFFE#32)]) 0x80000004#32 [(2#5, 0x1#32)] = true := by decide
theorem test_slti_most_positive :
    goesOn (start Config.reference 0x80000000#32 0x0000A113#32 [(1#5, 0x7FFFFFFF#32), (2#5, 0x77#32)]) 0x80000004#32 [(2#5, 0x0#32)] = true := by decide
theorem test_sltiu_sign_extends :
    goesOn (start Config.reference 0x80000000#32 0xFFF0B113#32 [(1#5, 0x5#32)]) 0x80000004#32 [(2#5, 0x1#32)] = true := by decide
theorem test_sltiu_equal :
    goesOn (start Config.reference 0x80000000#32 0xFFF0B113#32 [(1#5, 0xFFFFFFFF#32), (2#5, 0x77#32)]) 0x80000004#32 [(2#5, 0x0#32)] = true := by decide
theorem test_xori :
    goesOn (start Config.reference 0x80000000#32 0xFFF0C113#32 [(1#5, 0x0F0F0F0F#32)]) 0x80000004#32 [(2#5, 0xF0F0F0F0#32)] = true := by decide
theorem test_ori :
    goesOn (start Config.reference 0x80000000#32 0x0F00E113#32 [(1#5, 0xF#32)]) 0x80000004#32 [(2#5, 0xFF#32)] = true := by decide
theorem test_andi :
    goesOn (start Config.reference 0x80000000#32 0xFF00F113#32 [(1#5, 0x12345678#32)]) 0x80000004#32 [(2#5, 0x12345670#32)] = true := by decide
theorem test_slli :
    goesOn (start Config.reference 0x80000000#32 0x01F09113#32 [(1#5, 0x3#32)]) 0x80000004#32 [(2#5, 0x80000000#32)] = true := by decide
theorem test_slli_32 :
    goesOn (start Config.reference 0x80000000#32 0x02009113#32 [(1#5, 0xFFFFFFFF#32), (2#5, 0x77#32)]) 0x80000004#32 [(2#5, 0x0#32)] = true := by decide
theorem test_srli :
    goesOn (start Config.reference 0x80000000#32 0x01F0D113#32 [(1#5, 0x80000000#32)]) 0x80000004#32 [(2#5, 0x1#32)] = true := by decide
theorem test_srli_zero_fill :
    goesOn (start Config.reference 0x80000000#32 0x0040D113#32 [(1#5, 0x80000000#32)]) 0x80000004#32 [(2#5, 0x08000000#32)] = true := by decide
theorem test_srai_encoding :
    goesOn (start Config.reference 0x80000000#32 0x4040D113#32 [(1#5, 0x80000000#32), (2#5, 0x77#32)]) 0x80000004#32 [(2#5, 0x0#32)] = true := by decide
theorem test_srai_encoding_by_0 :
    goesOn (start Config.reference 0x80000000#32 0x4000D113#32 [(1#5, 0x80000000#32), (2#5, 0x77#32)]) 0x80000004#32 [(2#5, 0x0#32)] = true := by decide

/-! ## OP (95_test_vectors.md 3.3) -/

theorem test_add_wraps :
    goesOn (start Config.reference 0x80000000#32 0x002081B3#32 [(1#5, 0xFFFFFFFF#32), (2#5, 0x1#32), (3#5, 0x77#32)]) 0x80000004#32 [(3#5, 0x0#32)] = true := by decide
theorem test_add_ignores_funct7 :
    goesOn (start Config.reference 0x80000000#32 0x022081B3#32 [(1#5, 0x5#32), (2#5, 0x7#32)]) 0x80000004#32 [(3#5, 0xC#32)] = true := by decide
theorem test_sub :
    goesOn (start Config.reference 0x80000000#32 0x402081B3#32 [(1#5, 0x5#32), (2#5, 0x7#32)]) 0x80000004#32 [(3#5, 0xFFFFFFFE#32)] = true := by decide
theorem test_sub_no_overflow :
    goesOn (start Config.reference 0x80000000#32 0x402081B3#32 [(1#5, 0x80000000#32), (2#5, 0x7FFFFFFF#32)]) 0x80000004#32 [(3#5, 0x1#32)] = true := by decide
theorem test_sll_31 :
    goesOn (start Config.reference 0x80000000#32 0x002091B3#32 [(1#5, 0x80000001#32), (2#5, 0x1F#32)]) 0x80000004#32 [(3#5, 0x80000000#32)] = true := by decide
theorem test_sll_33 :
    goesOn (start Config.reference 0x80000000#32 0x002091B3#32 [(1#5, 0x80000001#32), (2#5, 0x21#32), (3#5, 0x77#32)]) 0x80000004#32 [(3#5, 0x0#32)] = true := by decide
theorem test_slt :
    goesOn (start Config.reference 0x80000000#32 0x0020A1B3#32 [(1#5, 0x80000000#32), (2#5, 0x7FFFFFFF#32)]) 0x80000004#32 [(3#5, 0x1#32)] = true := by decide
theorem test_slt_not :
    goesOn (start Config.reference 0x80000000#32 0x0020A1B3#32 [(1#5, 0x7FFFFFFF#32), (2#5, 0x80000000#32), (3#5, 0x77#32)]) 0x80000004#32 [(3#5, 0x0#32)] = true := by decide
theorem test_sltu :
    goesOn (start Config.reference 0x80000000#32 0x0020B1B3#32 [(1#5, 0x7FFFFFFF#32), (2#5, 0x80000000#32)]) 0x80000004#32 [(3#5, 0x1#32)] = true := by decide
theorem test_sltu_not :
    goesOn (start Config.reference 0x80000000#32 0x0020B1B3#32 [(1#5, 0xFFFFFFFF#32), (2#5, 0x1#32), (3#5, 0x77#32)]) 0x80000004#32 [(3#5, 0x0#32)] = true := by decide
theorem test_xor :
    goesOn (start Config.reference 0x80000000#32 0x0020C1B3#32 [(1#5, 0xFF00FF00#32), (2#5, 0x0FF00FF0#32)]) 0x80000004#32 [(3#5, 0xF0F0F0F0#32)] = true := by decide
theorem test_xor_ignores_funct7 :
    goesOn (start Config.reference 0x80000000#32 0x4020C1B3#32 [(1#5, 0xFFFFFFFF#32), (2#5, 0x1#32)]) 0x80000004#32 [(3#5, 0xFFFFFFFE#32)] = true := by decide
theorem test_sra_encoding_is_logical :
    goesOn (start Config.reference 0x80000000#32 0x4020D1B3#32 [(1#5, 0x80000000#32), (2#5, 0x4#32)]) 0x80000004#32 [(3#5, 0x08000000#32)] = true := by decide
theorem test_sra_encoding_32 :
    goesOn (start Config.reference 0x80000000#32 0x4020D1B3#32 [(1#5, 0x80000001#32), (2#5, 0x20#32), (3#5, 0x77#32)]) 0x80000004#32 [(3#5, 0x0#32)] = true := by decide
theorem test_srl :
    goesOn (start Config.reference 0x80000000#32 0x0020D1B3#32 [(1#5, 0x80000001#32), (2#5, 0x1F#32)]) 0x80000004#32 [(3#5, 0x1#32)] = true := by decide
theorem test_srl_36 :
    goesOn (start Config.reference 0x80000000#32 0x0020D1B3#32 [(1#5, 0x80000000#32), (2#5, 0x24#32), (3#5, 0x77#32)]) 0x80000004#32 [(3#5, 0x0#32)] = true := by decide
theorem test_or :
    goesOn (start Config.reference 0x80000000#32 0x0020E1B3#32 [(1#5, 0xF0F0F0F0#32), (2#5, 0x0000FFFF#32)]) 0x80000004#32 [(3#5, 0xF0F0FFFF#32)] = true := by decide
theorem test_and :
    goesOn (start Config.reference 0x80000000#32 0x0020F1B3#32 [(1#5, 0xF0F0F0F0#32), (2#5, 0x0000FFFF#32)]) 0x80000004#32 [(3#5, 0x0000F0F0#32)] = true := by decide

/-! ## Control transfer (95_test_vectors.md 3.4, 3.5) -/

theorem test_jal_zero_has_no_stray_advance :
    goesOn (start Config.reference 0x80000100#32 0x000000EF#32 []) 0x80000100#32 [(1#5, 0x80000104#32)] = true := by decide
theorem test_jal_backward :
    goesOn (start Config.reference 0x80000100#32 0xFFDFF06F#32 []) 0x800000FC#32 [(0#5, 0x0#32)] = true := by decide
theorem test_jalr_reads_before_link :
    goesOn (start Config.reference 0x80000020#32 0x000080E7#32 [(1#5, 0x80000040#32)]) 0x80000040#32 [(1#5, 0x80000024#32)] = true := by decide
theorem test_jalr_keeps_bit_0 :
    goesOn (start Config.reference 0x80000020#32 0x001100E7#32 [(2#5, 0x80000100#32)]) 0x80000101#32 [(1#5, 0x80000024#32)] = true := by decide
theorem test_beq_taken :
    goesOn (start Config.reference 0x80000100#32 0x00208863#32 [(1#5, 0x5#32), (2#5, 0x5#32)]) 0x80000110#32 [(1#5, 0x5#32), (2#5, 0x5#32)] = true := by decide
theorem test_beq_not :
    goesOn (start Config.reference 0x80000100#32 0x00208863#32 [(1#5, 0x5#32), (2#5, 0x6#32)]) 0x80000104#32 [(1#5, 0x5#32), (2#5, 0x6#32)] = true := by decide
theorem test_bne_taken :
    goesOn (start Config.reference 0x80000100#32 0x00209863#32 [(1#5, 0x5#32), (2#5, 0x6#32)]) 0x80000110#32 [(1#5, 0x5#32), (2#5, 0x6#32)] = true := by decide
theorem test_bne_not :
    goesOn (start Config.reference 0x80000100#32 0x00209863#32 [(1#5, 0x5#32), (2#5, 0x5#32)]) 0x80000104#32 [(1#5, 0x5#32), (2#5, 0x5#32)] = true := by decide
theorem test_blt_taken :
    goesOn (start Config.reference 0x80000100#32 0x0020C863#32 [(1#5, 0x80000000#32), (2#5, 0x7FFFFFFF#32)]) 0x80000110#32 [(1#5, 0x80000000#32), (2#5, 0x7FFFFFFF#32)] = true := by decide
theorem test_blt_not :
    goesOn (start Config.reference 0x80000100#32 0x0020C863#32 [(1#5, 0x1#32), (2#5, 0xFFFFFFFF#32)]) 0x80000104#32 [(1#5, 0x1#32), (2#5, 0xFFFFFFFF#32)] = true := by decide
theorem test_bge_taken :
    goesOn (start Config.reference 0x80000100#32 0x0020D863#32 [(1#5, 0x1#32), (2#5, 0xFFFFFFFF#32)]) 0x80000110#32 [(1#5, 0x1#32), (2#5, 0xFFFFFFFF#32)] = true := by decide
theorem test_bge_not :
    goesOn (start Config.reference 0x80000100#32 0x0020D863#32 [(1#5, 0x80000000#32), (2#5, 0x7FFFFFFF#32)]) 0x80000104#32 [(1#5, 0x80000000#32), (2#5, 0x7FFFFFFF#32)] = true := by decide
theorem test_bltu_taken :
    goesOn (start Config.reference 0x80000100#32 0x0020E863#32 [(1#5, 0x1#32), (2#5, 0xFFFFFFFF#32)]) 0x80000110#32 [(1#5, 0x1#32), (2#5, 0xFFFFFFFF#32)] = true := by decide
theorem test_bltu_not :
    goesOn (start Config.reference 0x80000100#32 0x0020E863#32 [(1#5, 0x80000000#32), (2#5, 0x7FFFFFFF#32)]) 0x80000104#32 [(1#5, 0x80000000#32), (2#5, 0x7FFFFFFF#32)] = true := by decide
theorem test_bgeu_taken :
    goesOn (start Config.reference 0x80000100#32 0x0020F863#32 [(1#5, 0xFFFFFFFF#32), (2#5, 0x1#32)]) 0x80000110#32 [(1#5, 0xFFFFFFFF#32), (2#5, 0x1#32)] = true := by decide
theorem test_bgeu_not :
    goesOn (start Config.reference 0x80000100#32 0x0020F863#32 [(1#5, 0x5#32), (2#5, 0x6#32)]) 0x80000104#32 [(1#5, 0x5#32), (2#5, 0x6#32)] = true := by decide
theorem test_branch_reserved_2 :
    ends (start Config.reference 0x80000000#32 0x0020A863#32 [(1#5, 0x1#32)]) (.faulted (.unsupportedEncoding 0x0020A863#32)) = true := by decide
theorem test_branch_reserved_3 :
    ends (start Config.reference 0x80000000#32 0x0020B863#32 []) (.faulted (.unsupportedEncoding 0x0020B863#32)) = true := by decide

/-! ## LOAD and STORE, observe (95_test_vectors.md 3.6) -/

theorem test_lw_observed :
    goesOn (start Config.reference 0x80000000#32 0xFFC0A183#32 [(1#5, 0x80000104#32), (3#5, 0x9#32)]) 0x80000004#32 [(3#5, 0x9#32)] [.load 0x80000100#32] = true := by decide
theorem test_load_other_observed :
    goesOn (start Config.reference 0x80000000#32 0x0000B183#32 [(1#5, 0x1234#32)]) 0x80000004#32 [(3#5, 0x0#32)] [.load 0x1234#32] = true := by decide
theorem test_sb_observed_whole_value :
    goesOn (start Config.reference 0x80000000#32 0xFE208E23#32 [(1#5, 0x80000104#32), (2#5, 0x12345678#32)]) 0x80000004#32 [(2#5, 0x12345678#32)] [.store 0x80000100#32 0x12345678#32] = true := by decide
theorem test_sw_observed_keeps_memory :
    bytesAfter (start Config.reference 0x80000000#32 0x8020A023#32 [(1#5, 0x80000800#32), (2#5, 0x7#32)]) 0x80000000 4 = [0x23#8, 0xA0#8, 0x20#8, 0x80#8] := by decide
theorem test_store_other_observed :
    goesOn (start Config.reference 0x80000000#32 0x0020B023#32 [(1#5, 0x4#32), (2#5, 0xAABBCCDD#32)]) 0x80000004#32 [] [.store 4#32 0xAABBCCDD#32] = true := by decide

/-! ## LOAD and STORE, perform (95_test_vectors.md 3.7) -/

theorem test_lb_sign_extends :
    goesOn (withBytes (start performing 0x80000000#32 0xFFC08183#32 [(1#5, 0x80000106#32)]) 0x80000100 [0x34#8, 0x92#8, 0x80#8, 0x12#8])
      0x80000004#32 [(3#5, 0xFFFFFF80#32)] [.load 0x80000102#32] = true := by decide
theorem test_lh_sign_extends :
    goesOn (withBytes (start performing 0x80000000#32 0xFFC09183#32 [(1#5, 0x80000104#32)]) 0x80000100 [0x34#8, 0x92#8, 0x80#8, 0x12#8])
      0x80000004#32 [(3#5, 0xFFFF9234#32)] [.load 0x80000100#32] = true := by decide
theorem test_lw_misaligned :
    goesOn (withBytes (start performing 0x80000000#32 0xFFC0A183#32 [(1#5, 0x80000105#32)]) 0x80000100 [0x34#8, 0x92#8, 0x80#8, 0x12#8])
      0x80000004#32 [(3#5, 0x00128092#32)] [.load 0x80000101#32] = true := by decide
theorem test_lbu_zero_extends :
    goesOn (withBytes (start performing 0x80000000#32 0xFFC0C183#32 [(1#5, 0x80000106#32)]) 0x80000100 [0x34#8, 0x92#8, 0x80#8, 0x12#8])
      0x80000004#32 [(3#5, 0x80#32)] [.load 0x80000102#32] = true := by decide
theorem test_lhu_zero_extends :
    goesOn (withBytes (start performing 0x80000000#32 0xFFC0D183#32 [(1#5, 0x80000104#32)]) 0x80000100 [0x34#8, 0x92#8, 0x80#8, 0x12#8])
      0x80000004#32 [(3#5, 0x9234#32)] [.load 0x80000100#32] = true := by decide
theorem test_lh_over_the_end :
    ends (start performing 0x80000000#32 0x00009183#32 [(1#5, 0x8000FFFF#32)]) (.faulted (.outOfBounds 0x8000FFFF#32)) [.load 0x8000FFFF#32] = true := by decide
theorem test_lb_past_the_end :
    ends (start performing 0x80000000#32 0x00008183#32 [(1#5, 0x80010000#32)]) (.faulted (.outOfBounds 0x80010000#32)) [.load 0x80010000#32] = true := by decide
theorem test_load_other_performed :
    ends (start performing 0x80000000#32 0x0000B183#32 [(1#5, 0x1234#32)]) (.faulted (.unsupportedEncoding 0x0000B183#32)) [.load 0x1234#32] = true := by decide
theorem test_sb_writes_one_byte :
    bytesAfter (withBytes (start performing 0x80000000#32 0xFE208E23#32 [(1#5, 0x80000104#32), (2#5, 0x12345678#32)]) 0x80000100 [0xFF#8, 0xFF#8, 0xFF#8, 0xFF#8])
      0x800000FF 6 = [0x00#8, 0x78#8, 0xFF#8, 0xFF#8, 0xFF#8, 0x00#8] := by decide
theorem test_sh_writes_two_bytes :
    bytesAfter (withBytes (start performing 0x80000000#32 0xFE209E23#32 [(1#5, 0x80000104#32), (2#5, 0x12345678#32)]) 0x80000100 [0xFF#8, 0xFF#8, 0xFF#8, 0xFF#8])
      0x800000FF 6 = [0x00#8, 0x78#8, 0x56#8, 0xFF#8, 0xFF#8, 0x00#8] := by decide
theorem test_sw_writes_four_bytes :
    bytesAfter (withBytes (start performing 0x80000000#32 0xFE20AE23#32 [(1#5, 0x80000104#32), (2#5, 0x12345678#32)]) 0x80000100 [0xFF#8, 0xFF#8, 0xFF#8, 0xFF#8])
      0x800000FF 6 = [0x00#8, 0x78#8, 0x56#8, 0x34#8, 0x12#8, 0x00#8] := by decide
theorem test_sh_over_the_end :
    ends (start performing 0x80000000#32 0x00209023#32 [(1#5, 0x8000FFFF#32), (2#5, 0x1#32)]) (.faulted (.outOfBounds 0x8000FFFF#32)) [.store 0x8000FFFF#32 1#32] = true := by decide
theorem test_store_other_performed :
    ends (start performing 0x80000000#32 0x0020B023#32 [(1#5, 0x80000100#32)]) (.faulted (.unsupportedEncoding 0x0020B023#32)) [.store 0x80000100#32 0#32] = true := by decide

/-! ## MISC, SYSTEM, unenumerated opcodes (95_test_vectors.md 3.8, 3.9) -/

theorem test_fence :
    goesOn (start Config.reference 0x80000010#32 0x0FF0000F#32 [(5#5, 0x9#32)]) 0x80000014#32 [(5#5, 0x9#32)] = true := by decide
theorem test_fence_all_ones :
    goesOn (start Config.reference 0x80000010#32 0xFFFFFF8F#32 []) 0x80000014#32 [(31#5, 0x0#32)] = true := by decide
theorem test_fenceI :
    goesOn (start Config.reference 0x80000010#32 0x0000100F#32 []) 0x80000014#32 [] = true := by decide
theorem test_ecall_is_unsigned :
    ends (start Config.reference 0x8000000C#32 0x00000073#32 [(3#5, 0x80000000#32)]) (.faulted (.conformanceFailure 0x80000000#32)) [.ecall 0x80000000#32] = true := by decide
theorem test_ecall_register_10 :
    goesOn (start askingTen 0x8000000C#32 0x00000073#32 [(3#5, 0x9#32), (10#5, 0x1#32)]) 0x80000010#32 [] [.ecall 1#32] = true := by decide
theorem test_ebreak_is_ecall :
    ends (start Config.reference 0x80000000#32 0x00100073#32 [(3#5, 0x5#32)]) (.faulted (.conformanceFailure 5#32)) [.ecall 5#32] = true := by decide
theorem test_sret_is_ecall :
    goesOn (start Config.reference 0x80000000#32 0x10200073#32 []) 0x80000004#32 [] [.ecall 0#32] = true := by decide
theorem test_mret_is_ecall :
    goesOn (start Config.reference 0x80000000#32 0x30200073#32 []) 0x80000004#32 [] [.ecall 0#32] = true := by decide
theorem test_wfi_is_ecall :
    goesOn (start Config.reference 0x80000000#32 0x10500073#32 [(3#5, 0x1#32)]) 0x80000004#32 [] [.ecall 1#32] = true := by decide
theorem test_csrrw_halts :
    ends (start Config.reference 0x80000010#32 0xC00312F3#32 [(5#5, 0x9#32), (6#5, 0x77#32)]) .halted = true := by decide
theorem test_csrrw_other_address :
    goesOn (start Config.reference 0x80000010#32 0xBFF01073#32 []) 0x80000014#32 [] = true := by decide
theorem test_csrrs_no_halt :
    goesOn (start Config.reference 0x80000010#32 0xC0002073#32 []) 0x80000014#32 [] = true := by decide
theorem test_csrrs_writes_nothing :
    goesOn (start Config.reference 0x80000010#32 0x300322F3#32 [(5#5, 0x9#32), (6#5, 0x77#32)]) 0x80000014#32 [(5#5, 0x9#32)] = true := by decide
theorem test_csrrc_no_halt :
    goesOn (start Config.reference 0x80000010#32 0xC0003073#32 []) 0x80000014#32 [] = true := by decide
theorem test_csrrc_writes_nothing :
    goesOn (start Config.reference 0x80000010#32 0x300332F3#32 [(5#5, 0x9#32), (6#5, 0x77#32)]) 0x80000014#32 [(5#5, 0x9#32)] = true := by decide
theorem test_csrrwi_no_halt :
    goesOn (start Config.reference 0x80000010#32 0xC0005073#32 []) 0x80000014#32 [] = true := by decide
theorem test_csrrwi_writes_nothing :
    goesOn (start Config.reference 0x80000010#32 0x300352F3#32 [(5#5, 0x9#32), (6#5, 0x77#32)]) 0x80000014#32 [(5#5, 0x9#32)] = true := by decide
theorem test_csrrsi_no_halt :
    goesOn (start Config.reference 0x80000010#32 0xC0006073#32 []) 0x80000014#32 [] = true := by decide
theorem test_csrrsi_writes_nothing :
    goesOn (start Config.reference 0x80000010#32 0x300362F3#32 [(5#5, 0x9#32), (6#5, 0x77#32)]) 0x80000014#32 [(5#5, 0x9#32)] = true := by decide
theorem test_csrrci_no_halt :
    goesOn (start Config.reference 0x80000010#32 0xC0007073#32 []) 0x80000014#32 [] = true := by decide
theorem test_csrrci_writes_nothing :
    goesOn (start Config.reference 0x80000010#32 0x300372F3#32 [(5#5, 0x9#32), (6#5, 0x77#32)]) 0x80000014#32 [(5#5, 0x9#32)] = true := by decide
theorem test_system_reserved :
    ends (start Config.reference 0x80000010#32 0x00004073#32 []) (.faulted (.unsupportedEncoding 0x00004073#32)) = true := by decide
theorem test_system_reserved_at_halt_address :
    ends (start Config.reference 0x80000010#32 0xC0004073#32 []) (.faulted (.unsupportedEncoding 0xC0004073#32)) = true := by decide
theorem test_illegal_zero :
    ends (start Config.reference 0x80000000#32 0x00000000#32 [(1#5, 0x1#32)]) (.faulted (.unsupportedEncoding 0#32)) = true := by decide
theorem test_illegal_ones :
    ends (start Config.reference 0x80000000#32 0xFFFFFFFF#32 [(1#5, 0x1#32)]) (.faulted (.unsupportedEncoding 0xFFFFFFFF#32)) = true := by decide

/-! ## Witnesses: for each statement with hypotheses, states and operands that meet them, clause by clause -/

/-- A running state at a pc with the word there. -/
def fetching (c : Config) (word : Word) (regs : List (RegIdx × Word) := []) : State :=
  start c 0x80000010#32 word regs

/-- The state a step leaves where it answers one, the state itself where it does not. -/
def stepped (s : State) : State :=
  match step s with
  | .next t => t
  | .fault _ => s
  | .refused _ => s

/-- The hypotheses shared by the statements about one step: RUNNING, this word fetched, a next state answered. -/
abbrev Fetches (s : State) (w : Word) : Prop :=
  s.run = .running ∧ s.fetch = .ok w ∧ (after s).isSome = true

theorem test_witness_extractor : (31 : Nat) ≤ 31 ∧ (31 : Nat) ≤ 31 ∧ (0 : Nat) ≤ 0 ∧ (0 : Nat) ≤ 31 := by decide
theorem test_witness_sign_extension :
    (1 ≤ 1 ∧ 1 ≤ 32) ∧ (1 ≤ 32 ∧ 32 ≤ 32) ∧ (1 ≤ 12 ∧ 12 ≤ 32) ∧ (0x800#12).getLsbD (12 - 1) = true ∧
    (0x7FF#12).getLsbD (12 - 1) = false ∧ 11 < 12 ∧ 12 ≤ 12 ∧ 31 < 32 := by decide
theorem test_witness_evaluator_amounts :
    (31#32).toNat < 32 ∧ ¬ (32#32).toNat < 32 ∧ (0x80000000#32).toInt < (0x7FFFFFFF#32).toInt ∧
    ¬ (5#32).toInt < (5#32).toInt ∧ (0#32).toNat < (1#32).toNat ∧ ¬ (1#32).toNat < (1#32).toNat := by decide
theorem test_witness_register_file : (0 : Fin 33) = 0 ∧ (32 : Fin 33) ≠ 0 ∧ (32 : Fin 33) ≠ 31 := by decide
theorem test_witness_boot :
    Config.reference.WellFormed ∧ (∃ s, boot Config.reference [] = .ok s) ∧
    ∃ s, boot Config.reference [([0x13#8], 0x8000FFFF#32), ([1#8, 2#8], 0x80000000#32)] = .ok s :=
  ⟨by decide, ⟨_, rfl⟩, ⟨_, rfl⟩⟩
theorem test_witness_reset_invariant :
    performing.WellFormed ∧ Config.WellFormed { Config.reference with memBase := 0xFFFFFFFC, memSize := 4 } := by decide
theorem test_witness_step_keeps_invariant :
    State.reset.Inv ∧ (∃ t, step State.reset = .next t) ∧
    (fetching performing 0x0020A023#32 [(1#5, 0x8000FFFC#32), (2#5, 7#32)]).Inv ∧
    ∃ t, step (fetching performing 0x0020A023#32 [(1#5, 0x8000FFFC#32), (2#5, 7#32)]) = .next t :=
  ⟨by decide, ⟨_, rfl⟩, by decide, ⟨_, rfl⟩⟩
theorem test_witness_in_range :
    1 ≤ 1 ∧ InRange Config.reference 0x8000FFFF#32 1 ∧ InRange Config.reference 0x80000000#32 65536 ∧
    ¬ InRange Config.reference 0x8000FFFF#32 2 ∧ ¬ InRange Config.reference 0x7FFFFFFF#32 1 ∧
    ¬ InRange Config.reference 0xFFFFFFFF#32 4 := by decide
theorem test_witness_read_word :
    InRange State.reset.cfg 0x8000FFFC#32 4 ∧ ¬ InRange State.reset.cfg 0x8000FFFD#32 4 := by decide
theorem test_witness_loader_write :
    State.reset.mem.wf = true ∧ InRange State.reset.cfg 0x8000FFFF#32 [1#8].length ∧ ([] : List Byte) = [] ∧
    [1#8, 2#8] ≠ ([] : List Byte) ∧ ¬ InRange State.reset.cfg 0x8000FFFF#32 [1#8, 2#8].length := by decide
theorem test_witness_mem_write :
    State.reset.mem.wf = true ∧ InRange State.reset.cfg 0x8000FFFC#32 Width.word.bytes ∧
    InRange State.reset.cfg 0x8000FFFE#32 Width.half.bytes ∧ InRange State.reset.cfg 0x8000FFFF#32 Width.byte.bytes ∧
    ¬ InRange State.reset.cfg 0x8000FFFD#32 Width.word.bytes := by decide
theorem test_witness_stored_word :
    let s := (State.resetWith performing).setPc 0x80000000#32 |>.setX 1#5 0x80000000#32 |>.setX 2#5 0x00500093#32
    s.Inv ∧ s.run = .running ∧ s.cfg.loadStoreMode = .perform ∧
      s.x 1#5 + (4#12).signExtend 32 = s.pc + 4#32 ∧ InRange s.cfg (s.pc + 4#32) 4 := by decide
theorem test_witness_observe_mode :
    (fetching Config.reference 0x0020A023#32).cfg.loadStoreMode = .observe ∧
    ∃ t, Reaches (fetching Config.reference 0x0020A023#32) t ∧ t.pc = 0x80000014#32 :=
  ⟨by decide, _, .step (.refl _) rfl, by decide⟩
theorem test_witness_encode :
    (Instr.jal 1#5 0x100000#21).WellFormed ∧ (Instr.bgeu 1#5 2#5 0x0FFE#13).WellFormed ∧
    (Instr.branchReserved 3#3 1#5 2#5 0#13).WellFormed ∧ (Instr.loadOther 7#3 1#5 2#5 0x800#12).WellFormed ∧
    (Instr.storeOther 7#3 1#5 2#5 0xFFF#12).WellFormed ∧ (Instr.add 0x7F#7 31#5 31#5 31#5).WellFormed ∧
    (Instr.fence 7#3 0xFFF#12 31#5 31#5).WellFormed ∧ (Instr.ecall 0xFFF#12 31#5 31#5).WellFormed ∧
    (Instr.illegal 0#32).WellFormed := by decide
theorem test_witness_decoded_record :
    (∃ d, fields 0x402081B3#32 = some d) ∧ (∃ d, fields 0xFE009CE3#32 = some d) ∧
    (∃ d, fields 0x0FF0000F#32 = some d) ∧ (∃ d, fields 0xC0001073#32 = some d) ∧ fields 0#32 = none :=
  ⟨⟨_, rfl⟩, ⟨_, rfl⟩, ⟨_, rfl⟩, ⟨_, rfl⟩, by decide⟩
theorem test_witness_step_runs :
    let s := fetching Config.reference 0x00500093#32
    s.run = .running ∧ InRange s.cfg s.pc 4 ∧
      decodeBytes (s.mem.readBytes s.pc.toNat 4) = .ok (.addi 1#5 0#5 5#12, []) := by decide
theorem test_witness_fetch_outside :
    let s := State.reset.setPc 0x8000FFFD#32
    s.run = .running ∧ ¬ InRange s.cfg s.pc 4 := by decide
theorem test_witness_run_states :
    State.reset.run = .running ∧ State.reset.halt.run = .halted ∧
    (State.reset.raise (.outOfBounds 0#32)).run = .faulted (.outOfBounds 0#32) ∧
    (State.reset.raise (.unsupportedEncoding 0#32)).run = .faulted (.unsupportedEncoding 0#32) ∧
    (State.reset.raise (.conformanceFailure 2#32)).run = .faulted (.conformanceFailure 2#32) := by decide
theorem test_witness_fatal_step :
    (∃ t, step (fetching Config.reference 0#32) = .next t ∧ t.run = .faulted (.unsupportedEncoding 0#32)) ∧
    (∃ t, step State.reset = .next t ∧ t.run = .faulted (.outOfBounds 0#32)) ∧
    (∃ t, step (fetching Config.reference 0x00000073#32 [(3#5, 2#32)]) = .next t ∧
      t.run = .faulted (.conformanceFailure 2#32)) ∧
    ∃ t, step (fetching performing 0x00002083#32) = .next t ∧ t.run = .faulted (.outOfBounds 0#32) :=
  ⟨⟨_, rfl, by decide⟩, ⟨_, rfl, by decide⟩, ⟨_, rfl, by decide⟩, ⟨_, rfl, by decide⟩⟩
theorem test_witness_halting :
    Fetches (fetching Config.reference 0xC0001073#32) 0xC0001073#32 ∧
    (∃ t, step (fetching Config.reference 0xC0001073#32) = .next t ∧ t.run = .halted) ∧
    Fetches (fetching Config.reference 0xBFF01073#32) 0xBFF01073#32 ∧
    ∃ t, step (fetching Config.reference 0xBFF01073#32) = .next t ∧ t.run = .running :=
  ⟨by decide, ⟨_, rfl, by decide⟩, by decide, ⟨_, rfl, by decide⟩⟩
theorem test_witness_unsupported_list :
    Fetches (fetching Config.reference 0#32) 0#32 ∧ UnsupportedWord .observe 0#32 ∧
    Fetches (fetching performing 0x0000B183#32) 0x0000B183#32 ∧ UnsupportedWord .perform 0x0000B183#32 ∧
    UnsupportedWord .perform 0x00204023#32 ∧ UnsupportedWord .observe 0x0020B863#32 ∧
    UnsupportedWord .observe 0xC0004073#32 ∧ ¬ UnsupportedWord .observe 0x0000B183#32 ∧
    ¬ UnsupportedWord .perform 0x00000013#32 := by
  refine ⟨by decide, ?_, by decide, ?_, ?_, ?_, ?_, ?_, ?_⟩ <;> unfold UnsupportedWord <;> decide
theorem test_witness_fatal_causes :
    let fetch := State.reset.setPc 0x8000FFFD#32
    let access := fetching performing 0x00002083#32 [(5#5, 1#32)]
    let code := fetching Config.reference 0x30200073#32 [(3#5, 2#32)]
    (fetch.run = .running ∧ ¬ InRange fetch.cfg fetch.pc 4) ∧
    (Fetches access 0x00002083#32 ∧ access.cfg.loadStoreMode = .perform ∧
      ¬ InRange access.cfg (wordAddress access 0x00002083#32) 4) ∧
    (Fetches code 0x30200073#32 ∧ HasFunct3 0x30200073#32 0b1110011#7 0b000#3 ∧
      1 < (code.x code.cfg.ecallReg).toNat) := by decide
theorem test_witness_access_widths :
    AccessBytes 0x00004083#32 1 ∧ AccessBytes 0x00005083#32 2 ∧ AccessBytes 0x00002083#32 4 ∧
    AccessBytes 0x00000023#32 1 ∧ AccessBytes 0x00001023#32 2 ∧ AccessBytes 0x00002023#32 4 ∧
    ¬ AccessBytes 0x00003023#32 4 := by
  refine ⟨?_, ?_, ?_, ?_, ?_, ?_, ?_⟩ <;> unfold AccessBytes <;> decide
theorem test_witness_sequencer :
    Fetches (fetching Config.reference 0x000000EF#32) 0x000000EF#32 ∧ HasOpcode 0x000000EF#32 0b1101111#7 ∧
    (stepped (fetching Config.reference 0x000000EF#32)).run = .running ∧
    Fetches (fetching Config.reference 0x00008067#32) 0x00008067#32 ∧ HasOpcode 0x00008067#32 0b1100111#7 ∧
    (stepped (fetching Config.reference 0x00008067#32)).run = .running ∧
    Fetches (fetching Config.reference 0x00208863#32) 0x00208863#32 ∧ HasOpcode 0x00208863#32 0b1100011#7 ∧
    (stepped (fetching Config.reference 0x00208863#32)).run = .running ∧
    Fetches (fetching Config.reference 0x00000013#32) 0x00000013#32 ∧
    (0x00000013#32).extractLsb' 0 7 ∉ [0b1101111#7, 0b1100111#7, 0b1100011#7] ∧
    (stepped (fetching Config.reference 0xC0001073#32)).run = .halted ∧
    (stepped (fetching Config.reference 0#32)).run = .faulted (.unsupportedEncoding 0#32) := by decide
theorem test_witness_branch_conditions :
    BranchTaken 0#3 7#32 7#32 ∧ ¬ BranchTaken 0#3 7#32 8#32 ∧ BranchTaken 1#3 7#32 8#32 ∧
    BranchTaken 4#3 0x80000000#32 0#32 ∧ BranchTaken 5#3 5#32 5#32 ∧ BranchTaken 6#3 0#32 0x80000000#32 ∧
    BranchTaken 7#3 0x80000000#32 0#32 ∧ ¬ BranchTaken 4#3 5#32 5#32 ∧ ¬ BranchTaken 5#3 0x80000000#32 0#32 ∧
    ¬ BranchTaken 6#3 5#32 5#32 ∧ ¬ BranchTaken 7#3 0#32 1#32 ∧ ¬ BranchTaken 1#3 7#32 7#32 := by
  refine ⟨?_, ?_, ?_, ?_, ?_, ?_, ?_, ?_, ?_, ?_, ?_, ?_⟩ <;> unfold BranchTaken <;> decide
theorem test_witness_one_register :
    Fetches (fetching Config.reference 0x00500093#32) 0x00500093#32 ∧ 2#5 ≠ (0x00500093#32).extractLsb' 7 5 ∧
    Fetches (fetching Config.reference 0x0FF0000F#32) 0x0FF0000F#32 ∧
    (0x0FF0000F#32).extractLsb' 0 7 ∈ [0b1100011#7, 0b0100011#7, 0b0001111#7, 0b1110011#7] ∧
    Fetches (fetching Config.reference 0x00002083#32) 0x00002083#32 ∧ HasOpcode 0x00002083#32 0b0000011#7 ∧
    Config.reference.loadStoreMode = .observe := by decide
theorem test_witness_one_register_steps :
    (∃ t, step (fetching Config.reference 0x00500093#32) = .next t) ∧
    (∃ t, step (fetching Config.reference 0x0FF0000F#32) = .next t) ∧
    ∃ t, step (fetching Config.reference 0x00002083#32) = .next t :=
  ⟨⟨_, rfl⟩, ⟨_, rfl⟩, ⟨_, rfl⟩⟩
theorem test_witness_stores :
    let s := fetching performing 0x0020A023#32 [(1#5, 0x8000FFFC#32), (2#5, 0x01020304#32)]
    s.mem.wf = true ∧ Fetches s 0x0020A023#32 ∧ HasOpcode 0x0020A023#32 0b0100011#7 ∧
      InRange s.cfg (wordAddress s 0x0020A023#32) 4 ∧ (wordAddress s 0x0020A023#32) = 0x8000FFFC#32 ∧
      (stepped s).run = .running ∧ ¬ HasOpcode 0x00500093#32 0b0100011#7 := by decide
theorem test_witness_stores_of_nothing :
    let beyond := fetching performing 0x0020A023#32 [(1#5, 0x8000FFFD#32)]
    Fetches beyond 0x0020A023#32 ∧ ¬ InRange beyond.cfg (wordAddress beyond 0x0020A023#32) 4 ∧
      Fetches (fetching performing 0x0020F023#32) 0x0020F023#32 ∧ HasOpcode 0x0020F023#32 0b0100011#7 ∧
      (0x0020F023#32).extractLsb' 12 3 ∈ [0b011#3, 0b100#3, 0b101#3, 0b110#3, 0b111#3] := by decide
theorem test_witness_trace :
    HasOpcode 0x00002083#32 0b0000011#7 ∧ HasOpcode 0x0020A023#32 0b0100011#7 ∧
    HasFunct3 0x00000073#32 0b1110011#7 0b000#3 ∧ ¬ HasFunct3 0xC0001073#32 0b1110011#7 0b000#3 ∧
    Fetches (fetching Config.reference 0x00000073#32 [(3#5, 2#32)]) 0x00000073#32 ∧
    Fetches (fetching Config.reference 0xC0001073#32) 0xC0001073#32 := by decide
theorem test_witness_driver :
    (fetching Config.reference 0xC0001073#32).run = .running ∧
    (∃ t, drive 1 (fetching Config.reference 0xC0001073#32) = .stopped t) ∧
    (∃ t, drive 1 (fetching Config.reference 0x00000013#32) = .outOfFuel t) ∧
    ∃ t, drive 2 (fetching Config.reference 0x00000013#32) = .stopped t :=
  ⟨by decide, ⟨_, rfl⟩, ⟨_, rfl⟩, ⟨_, rfl⟩⟩
theorem test_witness_upper_words :
    HasOpcode 0x12345537#32 0b0110111#7 ∧ HasOpcode 0xFFFFF297#32 0b0010111#7 ∧
    (State.resetWith Config.reference).cfg.auipcMode = .raw ∧
    (State.resetWith shifting).cfg.auipcMode = .shifted := by decide
theorem test_witness_imm_words :
    HasOpcode 0x00500093#32 0b0010011#7 ∧ HasFunct3 0x00500093#32 0b0010011#7 0b000#3 ∧
    HasFunct3 0x0000A113#32 0b0010011#7 0b010#3 ∧ HasFunct3 0x0010B113#32 0b0010011#7 0b011#3 ∧
    HasFunct3 0xFFF0C113#32 0b0010011#7 0b100#3 ∧ HasFunct3 0x0F00E113#32 0b0010011#7 0b110#3 ∧
    HasFunct3 0xFF00F113#32 0b0010011#7 0b111#3 ∧ HasFunct3 0x00409113#32 0b0010011#7 0b001#3 ∧
    HasFunct3 0x0040D213#32 0b0010011#7 0b101#3 ∧ (0x0040D213#32).extractLsb' 25 7 ≠ 0b0100000#7 ∧
    HasFunct3 0x4040D293#32 0b0010011#7 0b101#3 ∧ (0x4040D293#32).extractLsb' 25 7 = 0b0100000#7 := by decide
theorem test_witness_op_words :
    HasOpcode 0x002081B3#32 0b0110011#7 ∧ HasFunct3 0x002081B3#32 0b0110011#7 0b000#3 ∧
    (0x002081B3#32).extractLsb' 25 7 ≠ 0b0100000#7 ∧ HasFunct3 0x402081B3#32 0b0110011#7 0b000#3 ∧
    (0x402081B3#32).extractLsb' 25 7 = 0b0100000#7 ∧ HasFunct3 0x002091B3#32 0b0110011#7 0b001#3 ∧
    HasFunct3 0x0020A1B3#32 0b0110011#7 0b010#3 ∧ HasFunct3 0x0000B1B3#32 0b0110011#7 0b011#3 ∧
    HasFunct3 0x0020C1B3#32 0b0110011#7 0b100#3 ∧ HasFunct3 0x0020D1B3#32 0b0110011#7 0b101#3 ∧
    (0x0020D1B3#32).extractLsb' 25 7 ≠ 0b0100000#7 ∧ HasFunct3 0x4060D4B3#32 0b0110011#7 0b101#3 ∧
    (0x4060D4B3#32).extractLsb' 25 7 = 0b0100000#7 ∧ HasFunct3 0x0020E1B3#32 0b0110011#7 0b110#3 ∧
    HasFunct3 0x0020F1B3#32 0b0110011#7 0b111#3 := by decide
theorem test_witness_transfer_words :
    HasOpcode 0x00C000EF#32 0b1101111#7 ∧ HasOpcode 0x00009067#32 0b1100111#7 ∧
    HasFunct3 0x00208863#32 0b1100011#7 0b000#3 ∧ HasFunct3 0xFE009CE3#32 0b1100011#7 0b001#3 ∧
    HasFunct3 0x0020C863#32 0b1100011#7 0b100#3 ∧ HasFunct3 0x0020D863#32 0b1100011#7 0b101#3 ∧
    HasFunct3 0x0020E863#32 0b1100011#7 0b110#3 ∧ HasFunct3 0x0020F863#32 0b1100011#7 0b111#3 := by decide
theorem test_witness_observed_words :
    HasOpcode 0x0000B183#32 0b0000011#7 ∧ HasOpcode 0x0020B023#32 0b0100011#7 ∧
    State.reset.cfg.loadStoreMode = .observe := by decide
theorem test_witness_performed_words :
    HasFunct3 0xFFC08183#32 0b0000011#7 0b000#3 ∧ HasFunct3 0xFFC09183#32 0b0000011#7 0b001#3 ∧
    HasFunct3 0xFFC0A183#32 0b0000011#7 0b010#3 ∧ HasFunct3 0xFFC0C183#32 0b0000011#7 0b100#3 ∧
    HasFunct3 0xFFC0D183#32 0b0000011#7 0b101#3 ∧ HasFunct3 0xFE208E23#32 0b0100011#7 0b000#3 ∧
    HasFunct3 0xFE209E23#32 0b0100011#7 0b001#3 ∧ HasFunct3 0x7E20AFA3#32 0b0100011#7 0b010#3 := by decide
theorem test_witness_performed_access :
    let s := fetching performing 0x00000013#32 [(1#5, 0x80010000#32)]
    s.mem.wf = true ∧ s.cfg.loadStoreMode = .perform ∧
      InRange s.cfg (s.x 1#5 + (0xFFF#12).signExtend 32) 1 ∧ ¬ InRange s.cfg (s.x 1#5 + (0xFFF#12).signExtend 32) 2 ∧
      InRange s.cfg (s.x 1#5 + (0xFFE#12).signExtend 32) 2 ∧ ¬ InRange s.cfg (s.x 1#5 + (0xFFE#12).signExtend 32) 4 ∧
      InRange s.cfg (s.x 1#5 + (0xFFC#12).signExtend 32) 4 ∧ ¬ InRange s.cfg (s.x 1#5 + (0#12).signExtend 32) 1 := by
  decide
theorem test_witness_no_width :
    (State.resetWith performing).cfg.loadStoreMode = .perform ∧
    HasOpcode 0x0000B183#32 0b0000011#7 ∧ (0x0000B183#32).extractLsb' 12 3 ∈ [0b011#3, 0b110#3, 0b111#3] ∧
    HasOpcode 0x0020F023#32 0b0100011#7 ∧
    (0x0020F023#32).extractLsb' 12 3 ∈ [0b011#3, 0b100#3, 0b101#3, 0b110#3, 0b111#3] := by decide
theorem test_witness_misc_and_ecall :
    HasOpcode 0xFFFFFF8F#32 0b0001111#7 ∧ HasFunct3 0x30200073#32 0b1110011#7 0b000#3 ∧
    ((fetching Config.reference 0#32 [(3#5, 1#32)]).x 3#5).toNat ≤ 1 ∧
    1 < ((fetching Config.reference 0#32 [(3#5, 2#32)]).x 3#5).toNat := by decide
theorem test_witness_csr_words :
    HasFunct3 0xC0001073#32 0b1110011#7 0b001#3 ∧ HasFunct3 0x300322F3#32 0b1110011#7 0b010#3 ∧
    HasFunct3 0x300332F3#32 0b1110011#7 0b011#3 ∧ HasFunct3 0x300352F3#32 0b1110011#7 0b101#3 ∧
    HasFunct3 0x300362F3#32 0b1110011#7 0b110#3 ∧ HasFunct3 0x300372F3#32 0b1110011#7 0b111#3 ∧
    (0xC00#12).toNat = 3072 ∧ (0xBFF#12).toNat ≠ 3072 ∧ (0xC01#12).toNat ≠ 3072 := by decide
theorem test_witness_unsupported_words :
    HasOpcode 0x0020A863#32 0b1100011#7 ∧ (0x0020A863#32).extractLsb' 12 3 ∈ [0b010#3, 0b011#3] ∧
    (0x0020B863#32).extractLsb' 12 3 ∈ [0b010#3, 0b011#3] ∧ HasFunct3 0xC0004073#32 0b1110011#7 0b100#3 ∧
    (0x00000012#32).extractLsb' 0 7 ∉
      [0x37#7, 0x17#7, 0x6F#7, 0x67#7, 0x63#7, 0x03#7, 0x23#7, 0x13#7, 0x33#7, 0x0F#7, 0x73#7] := by decide

end Sys2Proof.Tests
end

section
/-! PROOFS of the invariant (00_scope.md R5, 10_state.md R11, 20_memory.md R30). RESET meets it, and it rests only on
what `step_frame` says a step leaves alone: the parameters, entry 0, and memory but for one store in range. -/

namespace Sys2Proof.Machine

/-- A byte string stored in range keeps the listed addresses inside the mapped region (20_memory.md R36, R37). -/
theorem Memory.mapped_writeBytes {c : Config} {m : Memory} {a : Word} {bs : List Byte}
    (hr : InRange c a bs.length) (hm : ∀ d ∈ m, c.memBase ≤ d.1 ∧ d.1 < c.memBase + c.memSize) :
    ∀ d ∈ m.writeBytes a.toNat bs, c.memBase ≤ d.1 ∧ d.1 < c.memBase + c.memSize := by
  intro d hd
  rcases Memory.mem_writeBytes _ _ _ _ hd with hwritten | hbefore
  · omega
  · exact hm d hbefore

/-- The invariant survives any change that keeps the parameters and entry 0 and stores at most once, in range. -/
theorem inv_of_storesAtMost {s t : State} (hs : s.Inv) (hcfg : t.cfg = s.cfg) (hzero : t.regs[0] = s.regs[0])
    (hstore : StoresAtMost s t) : t.Inv := by
  obtain ⟨hlegal, hwf, hmapped, hs0⟩ := hs
  unfold State.Inv
  rw [hcfg, hzero]
  rcases hstore with hmem | ⟨_, a, bs, hr, hmem⟩ <;> rw [hmem]
  · exact ⟨hlegal, hwf, hmapped, hs0⟩
  · exact ⟨hlegal, Memory.wf_writeBytes bs _ _ hwf, Memory.mapped_writeBytes hr hmapped, hs0⟩

/-- The default parameters are legal (00_scope.md R5). -/
theorem Config.reference_wellFormed : Config.reference.WellFormed := by decide

/-- RESET under legal parameters meets the invariant: it lists no byte and zeroes entry 0
(70_reset_and_hazards.md R270). -/
theorem inv_resetWith (c : Config) (hc : c.WellFormed) : (State.resetWith c).Inv :=
  ⟨hc, Memory.wf_nil, List.forall_mem_nil _, rfl⟩

/-- Settles O8: a step keeps the parameters and entry 0 and stores at most one byte string, in range. -/
theorem everyStepKeepsTheInvariant : Obligations.EveryStepKeepsTheInvariant := by
  intro s t hs hstep
  obtain ⟨hcfg, hzero, hstore⟩ := step_frame s t hstep
  exact inv_of_storesAtMost hs hcfg hzero hstore

/-- Settles O7: the reference reset is the reset of one legal choice of the parameters. -/
theorem invariantHoldsAtReset : Obligations.InvariantHoldsAtReset :=
  ⟨inv_resetWith Config.reference Config.reference_wellFormed, inv_resetWith⟩

end Sys2Proof.Machine
end

section
/-! PROOFS about the registers and the run state (10_state.md R11 to R13, R20). They rest on the register file's read
after write, `getReg_setWord`, and on the inversion of a step, `step_cases` and `step_word`. -/

namespace Sys2Proof.Machine

/-- A stored integer reads back modulo 2^32 (10_state.md R12). -/
theorem toNat_ofInt_word (value : Int) : ((BitVec.ofInt 32 value).toNat : Int) = value % 2 ^ 32 := by
  rw [BitVec.toNat_ofInt]
  omega

/-- Settles O4: the read after write of the register file, with the stored word read back as an integer. -/
theorem registerFileReadsWhatWasSet : Obligations.RegisterFileReadsWhatWasSet := by
  intro s i j value
  rw [State.setReg, getReg_setWord]
  split_ifs
  · rfl
  · exact toNat_ofInt_word value
  · rfl

/-- Settles O24: a running machine answers every step, and a step that answers ran. -/
theorem stepIsTakenExactlyWhenRunning : Obligations.StepIsTakenExactlyWhenRunning := by
  refine fun s => ⟨⟨fun ⟨_, hstep⟩ => (step_cases hstep).1, step_answers⟩, fun hrun => ?_, fun f hrun => ?_⟩
  · rw [step, hrun]
  · rw [step, hrun]

/-! ## Which register a word can write -/

/-- A BRANCH word ends the run or moves the pc, taken or not (45_control_transfer.md R172, R179). -/
theorem keepsRegs_of_branch {s t : State} {reserved taken : Prop} {fatal : RunState} {target next : Word}
    (hreserved : reserved → EndsRun s t fatal [])
    (hcondition : ¬ reserved → (taken → OnlyMovesPc s t target []) ∧ (¬ taken → OnlyMovesPc s t next [])) :
    KeepsRegs s t := by
  by_cases hr : reserved
  · exact (hreserved hr).1
  · by_cases ht : taken
    · exact ((hcondition hr).1 ht).1
    · exact ((hcondition hr).2 ht).1

/-- A STORE word writes memory at most (46_load_store.md R191, R204). -/
theorem keepsRegs_of_storeDoes {s t : State} {w : Word} (h : StoreDoes s w t) : KeepsRegs s t := by
  rcases h with ⟨_, moved⟩ | ⟨_, _, _, _, _, _, kept, _⟩ | ⟨_, _, _, _, _, ended⟩ | ⟨_, _, ended⟩
  · exact moved.1
  · exact kept
  · exact ended.1
  · exact ended.1

/-- A SYSTEM word writes no register, the CSR instructions with an rd included (47_misc_system.md R221). -/
theorem keepsRegs_of_systemDoes {s t : State} {w : Word} (h : SystemDoes s w t) : KeepsRegs s t := by
  rcases h with ⟨_, _, moved⟩ | ⟨_, _, ended⟩ | ⟨_, _, ended⟩ | ⟨_, ended⟩ | ⟨_, _, moved⟩
  · exact moved.1
  · exact ended.1
  · exact ended.1
  · exact ended.1
  · exact moved.1

/-- A LOAD word writes at most its rd, and that in perform mode alone (46_load_store.md R190, R204). -/
theorem regs_of_loadDoes {s t : State} {w : Word} (h : LoadDoes s w t) :
    KeepsRegs s t ∨ (s.cfg.loadStoreMode = .perform ∧ ∃ v, WritesReg s t (w.extractLsb' 7 5) v) := by
  rcases h with ⟨_, moved⟩ | ⟨hmode, _, v, _, _, _, written, _⟩ | ⟨_, _, _, _, _, ended⟩ | ⟨_, _, ended⟩
  · exact .inl moved.1
  · exact .inr ⟨hmode, v, written⟩
  · exact .inl ended.1
  · exact .inl ended.1

/-- The general registers after a word: all as before, or rd written by a word of a class with a destination,
LOAD being one in perform mode alone. -/
theorem regs_of_wordDoes {s t : State} {w : Word} (h : WordDoes s w t) :
    KeepsRegs s t ∨
      ((w.extractLsb' 0 7 ∈ [0x37#7, 0x17#7, 0x13#7, 0x33#7, 0x6F#7, 0x67#7] ∨
          w.extractLsb' 0 7 = 0x03#7 ∧ s.cfg.loadStoreMode = .perform) ∧
        ∃ v, WritesReg s t (w.extractLsb' 7 5) v) := by
  rcases h with ⟨hop, v, wrote⟩ | ⟨hop, linked, _⟩ | ⟨hop, linked, _⟩ | ⟨_, reserved, conditional⟩ | ⟨hop, loaded⟩ |
    ⟨_, stored⟩ | ⟨_, moved⟩ | ⟨_, system⟩ | ⟨_, ended⟩
  · exact .inr ⟨.inl (List.mem_append_left [0x6F#7, 0x67#7] hop), v, wrote.1⟩
  · exact .inr ⟨.inl (by simp [hop]), _, linked⟩
  · exact .inr ⟨.inl (by simp [hop]), _, linked⟩
  · exact .inl (keepsRegs_of_branch reserved conditional)
  · exact (regs_of_loadDoes loaded).imp_right fun ⟨hmode, written⟩ => ⟨.inr ⟨hop, hmode⟩, written⟩
  · exact .inl (keepsRegs_of_storeDoes stored)
  · exact .inl moved.1
  · exact .inl (keepsRegs_of_systemDoes system)
  · exact .inl ended.1

/-- LUI, AUIPC, IMM, OP, JAL and JALR are none of BRANCH, STORE, MISC and SYSTEM (30_encoding.md R51). -/
theorem destination_class_not_mem_others :
    ∀ o ∈ [0x37#7, 0x17#7, 0x13#7, 0x33#7, 0x6F#7, 0x67#7],
      o ∉ [0b1100011#7, 0b0100011#7, 0b0001111#7, 0b1110011#7] := by decide

/-- Settles O30: a step keeps every general register or writes rd, and the classes that write rd are none of those
the statement names. -/
theorem onlyTheNamedRegisterIsWritten : Obligations.OnlyTheNamedRegisterIsWritten := by
  intro s t w hfetch hstep
  rcases regs_of_wordDoes (step_word hfetch hstep).2 with kept | ⟨hclass, v, -, others⟩
  · exact ⟨fun r _ => kept r, fun _ => kept, fun _ _ => kept⟩
  · refine ⟨others, fun hnone => ?_, fun hload hmode => ?_⟩
    · rcases hclass with hop | ⟨hop, -⟩
      · exact absurd hnone (destination_class_not_mem_others _ hop)
      · exact absurd (hop ▸ hnone) (by decide)
    · rcases hclass with hop | ⟨-, hperform⟩
      · exact absurd (hload ▸ hop) (by decide)
      · exact absurd (hmode.symm.trans hperform) (by decide)

end Sys2Proof.Machine
end

section
/-! PROOFS about the flat memory (20_memory.md). What a byte string leaves at each address is `Memory.read_writeBytes`;
what a step can store is `step_frame` over every state, and `step_word` where the fetched word is known. -/

namespace Sys2Proof.Machine

/-! ## Observe mode (R31) -/

/-- The one store a step can make is made in perform mode alone (46_load_store.md R194). -/
theorem mem_eq_of_storesAtMost_observe {s t : State} (hmode : s.cfg.loadStoreMode = .observe)
    (h : StoresAtMost s t) : t.mem = s.mem := by
  rcases h with hkept | ⟨hperform, _⟩
  · exact hkept
  · exact absurd (hmode.symm.trans hperform) (by decide)

/-- Settles O14, by induction on the steps: each keeps the parameters, so observe mode lasts, and in it each keeps
memory. -/
theorem observeModeNeverChangesMemory : Obligations.ObserveModeNeverChangesMemory := by
  intro s t hmode hreach
  induction hreach with
  | refl => exact ⟨rfl, rfl⟩
  | @step t u _ hstep ih =>
    obtain ⟨hmem, hcfg⟩ := ih
    obtain ⟨hcfg', _, hstore⟩ := step_frame t u hstep
    have hmode' : t.cfg.loadStoreMode = .observe := hcfg ▸ hmode
    exact ⟨(mem_eq_of_storesAtMost_observe hmode' hstore).trans hmem, hcfg'.trans hcfg⟩

/-! ## The range check and the four-byte read (R32, R33) -/

/-- Settles O9: the region is an interval, so the first and the last of the n bytes decide for all. -/
theorem inRangeMeansEveryByteIsMapped : Obligations.InRangeMeansEveryByteIsMapped := by
  intro c addr n hn
  constructor
  · rintro ⟨hlow, hhigh⟩ k hk
    omega
  · intro hmapped
    have hfirst := hmapped 0 (by omega)
    have hlast := hmapped (n - 1) (by omega)
    unfold InRange
    omega

/-- The byte in front of a little-endian string is the low byte of its word (R34). -/
theorem ofNat_leValue_cons (b : Byte) (bs : List Byte) :
    BitVec.ofNat 32 (leValue (b :: bs)) = b.setWidth 32 ||| BitVec.ofNat 32 (leValue bs) <<< 8 := by
  have hdisjoint : b.setWidth 32 &&& BitVec.ofNat 32 (leValue bs) <<< 8 = 0#32 := by
    ext i hi
    by_cases h8 : i < 8
    · simp [h8]
    · simp [BitVec.getLsbD_of_ge b i (by omega)]
  rw [← BitVec.add_eq_or_of_and_eq_zero _ _ hdisjoint]
  apply BitVec.eq_of_toNat_eq
  simp only [leValue, BitVec.toNat_add, BitVec.toNat_shiftLeft, BitVec.toNat_ofNat, BitVec.toNat_setWidth,
    Nat.shiftLeft_eq]
  omega

/-- Settles O10: the four bytes are unfolded into the word from the lowest address up. -/
theorem readWordIsLittleEndianOrOutOfBounds : Obligations.ReadWordIsLittleEndianOrOutOfBounds := by
  intro s a
  rcases read32_eq s a with ⟨hr, e⟩ | ⟨hr, e⟩
  · refine ⟨fun _ => ?_, fun hout => absurd hr hout⟩
    rw [e]
    simp only [Memory.readBytes, ofNat_leValue_cons, BitVec.shiftLeft_or_distrib, ← BitVec.shiftLeft_add]
    simp [leValue, BitVec.or_assoc]
  · exact ⟨fun hin => absurd hin hr, fun _ => e⟩

/-! ## Writes (R36, R37) -/

/-- Byte i of a byte string is read at address a + i (R36). -/
theorem Memory.read_writeBytes_inside {bs : List Byte} {m : Memory} (a : Nat) {i : Nat} (hm : m.wf = true)
    (hi : i < bs.length) : (m.writeBytes a bs).read (a + i) = bs[i] := by
  rw [Memory.read_writeBytes bs m a _ hm, if_pos (Nat.le_add_right a i), Nat.add_sub_cancel_left,
    List.getElem?_eq_getElem hi, Option.getD_some]

/-- Settles O11: the loader's write is one `writeBytes` of memory and touches no other field. -/
theorem loaderWriteIsExact : Obligations.LoaderWriteIsExact := by
  intro s bytes a hwf
  rcases loadSegment_eq s bytes a with ⟨hr, e⟩ | ⟨hr, e⟩
  · refine ⟨fun _ => ⟨_, e, fun i hi => Memory.read_writeBytes_inside _ hwf hi,
      fun b hb => Memory.read_writeBytes_outside bytes _ _ _ hwf hb, fun _ => rfl, rfl, rfl, rfl, rfl⟩,
      fun hne hout => absurd hr (not_or.mpr ⟨hne, hout⟩)⟩
  · exact ⟨fun hin => absurd hin hr, fun _ _ => e⟩

/-- Byte k of a word, among the low n that are stored (R35). -/
theorem getElem_take_leBytes (n : Width) (v : Word) {k : Nat} (hk : k < ((leBytes v).take n.bytes).length) :
    ((leBytes v).take n.bytes)[k] = v.extractLsb' (8 * k) 8 := by
  have hk4 : k < 4 := Nat.lt_of_lt_of_le hk (List.length_take_le' ..)
  rw [List.getElem_take]
  interval_cases k <;> rfl

/-- A word stored in range is read back (R33, R37). -/
theorem read32_of_mem_eq_writeBytes {t : State} {m : Memory} {a v : Word} (hwf : m.wf = true)
    (hr : InRange t.cfg a 4) (hmem : t.mem = m.writeBytes a.toNat (leBytes v)) : t.read32 a = .ok v := by
  rcases read32_eq t a with ⟨-, e⟩ | ⟨hout, -⟩
  · rw [e, hmem, ← leBytes_length v, Memory.readBytes_writeBytes _ _ _ hwf, leValue_leBytes, BitVec.ofNat_toNat,
      BitVec.setWidth_eq]
  · exact absurd hr hout

/-- Settles O12: a MemWrite is one `writeBytes` of the value's low bytes. -/
theorem memWriteIsReadBack : Obligations.MemWriteIsReadBack := by
  intro s a v n hwf
  rcases memWrite_eq s a n v with ⟨hr, e⟩ | ⟨hr, e⟩
  · refine ⟨fun _ => ⟨_, e, fun k hk => ?_, fun b hb => ?_, rfl, rfl, rfl, rfl, ?_⟩, fun hout => absurd hr hout⟩
    · rw [← length_take_leBytes n v] at hk
      exact (Memory.read_writeBytes_inside _ hwf hk).trans (getElem_take_leBytes n v hk)
    · rw [← length_take_leBytes n v] at hb
      exact Memory.read_writeBytes_outside _ _ _ _ hwf hb
    · rintro rfl
      exact read32_of_mem_eq_writeBytes hwf hr rfl
  · exact ⟨fun hin => absurd hin hr, fun _ => e⟩

/-- Settles O13: the stored word is read back by the fetch, and the step executes what the fetch gives. -/
theorem storedWordIsFetchedByTheNextStep : Obligations.StoredWordIsFetchedByTheNextStep := by
  rintro s rs2 rs1 imm ⟨-, hwf, -⟩ hrun hmode haddr hr
  obtain ⟨t, e, hstored⟩ := store_spec .word rs2 rs1 imm s
  rw [effectiveAddress_eq, haddr] at hstored
  rcases hstored with ⟨hobserve, -⟩ | ⟨-, -, hmem, -, hpc, hcfg, hrun', -⟩ | ⟨-, hout, -⟩
  · exact absurd (hobserve.symm.trans hmode) (by decide)
  · have hfetch : t.fetch = .ok (s.x rs2) := by
      rw [State.fetch, hpc]
      exact read32_of_mem_eq_writeBytes hwf (hcfg ▸ hr) hmem
    exact ⟨t, e, hpc, hfetch, step_of_fetch (hrun'.trans hrun) hfetch⟩
  · exact absurd hr hout

/-! ## Which words change memory (R31) -/

theorem EndsRun.keepsMemory {s t : State} {run : RunState} {events : List TraceEvent}
    (h : EndsRun s t run events) : KeepsMemory s t := h.2.2.1

theorem OnlyMovesPc.keepsMemory {s t : State} {pc : Word} {events : List TraceEvent}
    (h : OnlyMovesPc s t pc events) : KeepsMemory s t := h.2.2.1

theorem WritesAndAdvances.keepsMemory {s t : State} {rd : RegIdx} {v : Word}
    (h : WritesAndAdvances s t rd v) : KeepsMemory s t := h.2.2.1

/-- The STORE word w was performed: its funct3 names a width, and that many low bytes of x[rs2] are stored, in range
(46_load_store.md R204, R210 to R212). -/
def PerformsStore (s : State) (w : Word) (t : State) : Prop :=
  HasOpcode w 0b0100011#7 ∧ s.cfg.loadStoreMode = .perform ∧ w.extractLsb' 12 3 ∉ [3#3, 4#3, 5#3, 6#3, 7#3] ∧
    ∃ n, NamesWidth w n ∧ InRange s.cfg (wordAddress s w) n.bytes ∧
      t.mem = s.mem.writeBytes (wordAddress s w).toNat ((leBytes (s.x (w.extractLsb' 20 5))).take n.bytes)

theorem keepsMemory_or_performsStore_of_storeDoes {s t : State} {w : Word} (hop : HasOpcode w 0b0100011#7)
    (h : StoreDoes s w t) : KeepsMemory s t ∨ PerformsStore s w t := by
  rcases h with ⟨_, moved⟩ | ⟨hmode, n, hn, hfunct3, hr, hmem, _⟩ | ⟨_, _, _, _, _, ended⟩ | ⟨_, _, ended⟩
  · exact .inl moved.keepsMemory
  · exact .inr ⟨hop, hmode, hfunct3, n, hn, hr, hmem⟩
  · exact .inl ended.keepsMemory
  · exact .inl ended.keepsMemory

theorem keepsMemory_of_loadDoes {s t : State} {w : Word} (h : LoadDoes s w t) : KeepsMemory s t := by
  rcases h with ⟨_, moved⟩ | ⟨_, _, _, _, _, _, _, _, kept, _⟩ | ⟨_, _, _, _, _, ended⟩ | ⟨_, _, ended⟩
  · exact moved.keepsMemory
  · exact kept
  · exact ended.keepsMemory
  · exact ended.keepsMemory

theorem keepsMemory_of_systemDoes {s t : State} {w : Word} (h : SystemDoes s w t) : KeepsMemory s t := by
  rcases h with ⟨_, _, moved⟩ | ⟨_, _, ended⟩ | ⟨_, _, ended⟩ | ⟨_, ended⟩ | ⟨_, _, moved⟩
  · exact moved.keepsMemory
  · exact ended.keepsMemory
  · exact ended.keepsMemory
  · exact ended.keepsMemory
  · exact moved.keepsMemory

/-- A BRANCH word ends the run or only moves the pc, taken or not (45_control_transfer.md R172, R179). -/
theorem endsRun_or_onlyMovesPc_of_branch {s t : State} {reserved taken : Prop} {fatal : RunState}
    {target next : Word} (hreserved : reserved → EndsRun s t fatal [])
    (hcondition : ¬ reserved → (taken → OnlyMovesPc s t target []) ∧ (¬ taken → OnlyMovesPc s t next [])) :
    EndsRun s t fatal [] ∨ ∃ pc, OnlyMovesPc s t pc [] := by
  by_cases hr : reserved
  · exact .inl (hreserved hr)
  · by_cases ht : taken
    · exact .inr ⟨_, (hcondition hr).1 ht⟩
    · exact .inr ⟨_, (hcondition hr).2 ht⟩

/-- Executing a word keeps memory, or the word is a STORE that is performed. -/
theorem keepsMemory_or_performsStore_of_wordDoes {s t : State} {w : Word} (h : WordDoes s w t) :
    KeepsMemory s t ∨ PerformsStore s w t := by
  rcases h with ⟨_, _, wrote⟩ | ⟨_, _, _, kept, _⟩ | ⟨_, _, _, kept, _⟩ | ⟨_, reserved, conditional⟩ |
    ⟨_, loaded⟩ | ⟨hop, stored⟩ | ⟨_, moved⟩ | ⟨_, system⟩ | ⟨_, ended⟩
  · exact .inl wrote.keepsMemory
  · exact .inl kept
  · exact .inl kept
  · rcases endsRun_or_onlyMovesPc_of_branch reserved conditional with ended | ⟨_, moved⟩
    · exact .inl ended.keepsMemory
    · exact .inl moved.keepsMemory
  · exact .inl (keepsMemory_of_loadDoes loaded)
  · exact keepsMemory_or_performsStore_of_storeDoes hop stored
  · exact .inl moved.keepsMemory
  · exact .inl (keepsMemory_of_systemDoes system)
  · exact .inl ended.keepsMemory

/-- Settles O31: a step that does not keep memory performed a STORE of a named width, in range. -/
theorem onlyStoresChangeMemory : Obligations.OnlyStoresChangeMemory := by
  intro s t w hwf hfetch hstep
  rcases keepsMemory_or_performsStore_of_wordDoes (step_word hfetch hstep).2 with
    kept | ⟨hop, hmode, hfunct3, n, hn, hr, hmem⟩
  · exact ⟨fun _ => kept, fun _ _ _ => ⟨fun b _ => kept b, fun _ => kept⟩⟩
  · refine ⟨fun hnone => ?_, fun k _ hk => ?_⟩
    · rcases hnone with hother | hobserve | hnowidth
      · exact absurd hop hother
      · exact absurd (hobserve.symm.trans hmode) (by decide)
      · exact absurd hnowidth hfunct3
    · obtain rfl : k = n.bytes := (hn k).mp hk
      refine ⟨fun b hb => ?_, fun hout => absurd hr hout⟩
      rw [hmem]
      exact Memory.read_writeBytes_outside _ _ _ _ hwf (by rwa [length_take_leBytes])

end Sys2Proof.Machine
end

section
/-! PROOFS that the encoder and the decoder are inverse to each other (30_encoding.md R50 to R66). A format and its
fields are inverse (`opcodeOf_encI`, `encI_fields` and their like), so what is left is which row of its class takes a
word: `Instr.wf` says it of instructions, funct3 and funct7 decide it of words. -/

namespace Sys2Proof.Machine

/-! ## The decoder on a word built by a format -/

@[simp] theorem decodeWord_encR (funct7 : BitVec 7) (rs2 rs1 : RegIdx) (funct3 : BitVec 3) (rd : RegIdx) (c : OpClass) :
    decodeWord (encR funct7 rs2 rs1 funct3 rd c) = decodeClass c (encR funct7 rs2 rs1 funct3 rd c) :=
  decodeWord_of_class (opcodeOf_encR ..)

@[simp] theorem decodeWord_encI (imm : BitVec 12) (rs1 : RegIdx) (funct3 : BitVec 3) (rd : RegIdx) (c : OpClass) :
    decodeWord (encI imm rs1 funct3 rd c) = decodeClass c (encI imm rs1 funct3 rd c) :=
  decodeWord_of_class (opcodeOf_encI ..)

@[simp] theorem decodeWord_encS (imm : BitVec 12) (rs2 rs1 : RegIdx) (funct3 : BitVec 3) (c : OpClass) :
    decodeWord (encS imm rs2 rs1 funct3 c) = decodeClass c (encS imm rs2 rs1 funct3 c) :=
  decodeWord_of_class (opcodeOf_encS ..)

@[simp] theorem decodeWord_encB (imm : BitVec 13) (rs2 rs1 : RegIdx) (funct3 : BitVec 3) (c : OpClass) :
    decodeWord (encB imm rs2 rs1 funct3 c) = decodeClass c (encB imm rs2 rs1 funct3 c) :=
  decodeWord_of_class (opcodeOf_encB ..)

@[simp] theorem decodeWord_encU (imm : BitVec 20) (rd : RegIdx) (c : OpClass) :
    decodeWord (encU imm rd c) = decodeClass c (encU imm rd c) :=
  decodeWord_of_class (opcodeOf_encU ..)

@[simp] theorem decodeWord_encJ (imm : BitVec 21) (rd : RegIdx) (c : OpClass) :
    decodeWord (encJ imm rd c) = decodeClass c (encJ imm rd c) :=
  decodeWord_of_class (opcodeOf_encJ ..)

/-! ## Well-formedness, where a row of the table excludes a value (R56, R58, R65) -/

theorem evenImm13_iff (imm : BitVec 13) : evenImm13 imm = true ↔ imm.getLsbD 0 = false := by
  simp [evenImm13]

theorem evenImm21_iff (imm : BitVec 21) : evenImm21 imm = true ↔ imm.getLsbD 0 = false := by
  simp [evenImm21]

theorem wellFormed_branchReserved_iff {funct3 : BitVec 3} {rs1 rs2 : RegIdx} {imm : BitVec 13} :
    (Instr.branchReserved funct3 rs1 rs2 imm).WellFormed ↔
      (funct3 = 2#3 ∨ funct3 = 3#3) ∧ imm.getLsbD 0 = false := by
  simp [Instr.WellFormed, Instr.wf, evenImm13_iff]

theorem wellFormed_loadOther_iff {funct3 : BitVec 3} {rd rs1 : RegIdx} {imm : BitVec 12} :
    (Instr.loadOther funct3 rd rs1 imm).WellFormed ↔ funct3 = 3#3 ∨ funct3 = 6#3 ∨ funct3 = 7#3 := by
  simp [Instr.WellFormed, Instr.wf, or_assoc]

theorem wellFormed_storeOther_iff {funct3 : BitVec 3} {rs2 rs1 : RegIdx} {imm : BitVec 12} :
    (Instr.storeOther funct3 rs2 rs1 imm).WellFormed ↔ funct3 ≠ 0#3 ∧ funct3 ≠ 1#3 ∧ funct3 ≠ 2#3 := by
  simp [Instr.WellFormed, Instr.wf, and_assoc]

theorem wellFormed_srli_iff {rd rs1 : RegIdx} {imm : BitVec 12} :
    (Instr.srli rd rs1 imm).WellFormed ↔ imm.extractLsb' 5 7 ≠ 0b0100000#7 := bne_iff_ne

theorem wellFormed_add_iff {funct7 : BitVec 7} {rd rs1 rs2 : RegIdx} :
    (Instr.add funct7 rd rs1 rs2).WellFormed ↔ funct7 ≠ 0b0100000#7 := bne_iff_ne

theorem wellFormed_srl_iff {funct7 : BitVec 7} {rd rs1 rs2 : RegIdx} :
    (Instr.srl funct7 rd rs1 rs2).WellFormed ↔ funct7 ≠ 0b0100000#7 := bne_iff_ne

theorem wellFormed_fence_iff {funct3 : BitVec 3} {imm : BitVec 12} {rs1 rd : RegIdx} :
    (Instr.fence funct3 imm rs1 rd).WellFormed ↔ funct3 ≠ 1#3 := bne_iff_ne

theorem wellFormed_illegal_iff {w : Word} : (Instr.illegal w).WellFormed ↔ classify (opcodeOf w) = none :=
  Option.isNone_iff_eq_none

/-- The SYSTEM words that keep names of their own: EBREAK, SRET, MRET and WFI (47_misc_system.md R230). -/
def namedSystemWords : List Word := [0x00100073#32, 0x10200073#32, 0x30200073#32, 0x10500073#32]

theorem mem_namedSystemWords_iff {w : Word} :
    w ∈ namedSystemWords ↔ w = 0x00100073#32 ∨ w = 0x10200073#32 ∨ w = 0x30200073#32 ∨ w = 0x10500073#32 := by
  simp [namedSystemWords]

theorem fields_of_encI_eq {imm : BitVec 12} {rs1 rd : RegIdx} {funct3 : BitVec 3} {c : OpClass} {w : Word}
    (h : encI imm rs1 funct3 rd c = w) : imm = immIOf w ∧ rs1 = rs1Of w ∧ rd = rdOf w := by
  subst h
  simp

/-- An ECALL is well-formed exactly where its word is none of those that keep a name of their own
(47_misc_system.md R230). -/
theorem wellFormed_ecall_iff {imm : BitVec 12} {rs1 rd : RegIdx} :
    (Instr.ecall imm rs1 rd).WellFormed ↔ encI imm rs1 0b000#3 rd .system ∉ namedSystemWords := by
  constructor
  · intro hwf hmem
    rcases mem_namedSystemWords_iff.mp hmem with e | e | e | e <;>
      obtain ⟨rfl, rfl, rfl⟩ := fields_of_encI_eq e <;>
      exact absurd hwf (by decide)
  · intro hmem
    by_contra hwf
    have hnamed : (rs1 = 0#5 ∧ rd = 0#5) ∧
        (((imm = 0x001#12 ∨ imm = 0x102#12) ∨ imm = 0x302#12) ∨ imm = 0x105#12) := by
      simpa only [Instr.WellFormed, Instr.wf, namedSystemImm, Bool.not_eq_true', Bool.not_eq_false, Bool.and_eq_true,
        Bool.or_eq_true, beq_iff_eq] using hwf
    obtain ⟨⟨rfl, rfl⟩, ((rfl | rfl) | rfl) | rfl⟩ := hnamed <;> exact hmem (by decide)

theorem decodeEcall_of_not_named {w : Word} (h : w ∉ namedSystemWords) :
    decodeEcall w = .ecall (immIOf w) (rs1Of w) (rdOf w) := by
  rw [mem_namedSystemWords_iff, not_or, not_or, not_or] at h
  simp [decodeEcall, h]

/-! ## The two halves of an I immediate (43_alu_immediate.md R139) -/

theorem sraiImm_funct7 (shamt : BitVec 5) : (sraiImm shamt).extractLsb' 5 7 = 0b0100000#7 := by
  revert shamt; decide

theorem sraiImm_shamt (shamt : BitVec 5) : (sraiImm shamt).extractLsb' 0 5 = shamt := by
  revert shamt; decide

theorem immIOf_funct7 (w : Word) : (immIOf w).extractLsb' 5 7 = funct7Of w := by
  rw [immIOf_eq, funct7Of_eq]
  ext i hi
  simp [← Nat.add_assoc, show 5 + i < 12 by omega]

/-! ## An instruction comes back from its word -/

/-- Settles O15, by the constructors: the word a format builds is read back in the same fields, and well-formedness
says that no earlier row takes the word. -/
theorem decodeOfEncodeIsTheInstruction : Obligations.DecodeOfEncodeIsTheInstruction := by
  intro i hwf
  cases i
  case lui | auipc | jalr => simp [encode, decodeClass]
  case jal imm => simp [encode, decodeClass, immJOf_encJ imm _ _ ((evenImm21_iff imm).mp hwf)]
  case beq imm | bne imm | blt imm | bge imm | bltu imm | bgeu imm =>
    simp [encode, decodeClass, decodeBranch, immBOf_encB imm _ _ _ _ ((evenImm13_iff imm).mp hwf)]
  case branchReserved =>
    obtain ⟨rfl | rfl, even⟩ := wellFormed_branchReserved_iff.mp hwf <;>
      simp [encode, decodeClass, decodeBranch, immBOf_encB _ _ _ _ _ even]
  case lb | lh | lw | lbu | lhu => simp [encode, decodeClass, decodeLoad]
  case loadOther =>
    obtain rfl | rfl | rfl := wellFormed_loadOther_iff.mp hwf <;> simp [encode, decodeClass, decodeLoad]
  case sb | sh | sw => simp [encode, decodeClass, decodeStore]
  case storeOther => simp [encode, decodeClass, decodeStore, wellFormed_storeOther_iff.mp hwf]
  case addi | slti | sltiu | xori | ori | andi | slli => simp [encode, decodeClass, decodeImm]
  case srai => simp [encode, decodeClass, decodeImm, sraiImm_funct7, sraiImm_shamt]
  case srli => simp [encode, decodeClass, decodeImm, wellFormed_srli_iff.mp hwf]
  case sub | sra | sll | slt | sltu | xor | or | and => simp [encode, decodeClass, decodeOp]
  case add => simp [encode, decodeClass, decodeOp, wellFormed_add_iff.mp hwf]
  case srl => simp [encode, decodeClass, decodeOp, wellFormed_srl_iff.mp hwf]
  case fenceI => simp [encode, decodeClass, decodeMisc]
  case fence => simp [encode, decodeClass, decodeMisc, wellFormed_fence_iff.mp hwf]
  case ebreak | sret | mret | wfi => decide
  case ecall => simp [encode, decodeClass, decodeSystem, decodeEcall_of_not_named (wellFormed_ecall_iff.mp hwf)]
  case csrrw | csrrs | csrrc | csrrwi | csrrsi | csrrci | systemReserved =>
    simp [encode, decodeClass, decodeSystem]
  case illegal => exact decodeWord_of_none (wellFormed_illegal_iff.mp hwf)

/-! ## A word comes back from its instruction -/

/-- An instruction stands for a word: it is well-formed and its encoding is the word. -/
def StandsFor (i : Instr) (w : Word) : Prop := i.WellFormed ∧ encode i = w

section
variable {w : Word}

theorem decodeBranch_standsFor (h : opcodeOf w = OpClass.branch.opcode) : StandsFor (decodeBranch w) w := by
  have hw := encB_fields h
  have even : evenImm13 (immBOf w) = true := by simp [evenImm13]
  unfold decodeBranch
  generalize funct3Of w = f at hw ⊢
  rcases funct3_cases f with rfl | rfl | rfl | rfl | rfl | rfl | rfl | rfl <;>
    exact ⟨even, hw⟩

theorem decodeLoad_standsFor (h : opcodeOf w = OpClass.load.opcode) : StandsFor (decodeLoad w) w := by
  have hw := encI_fields h
  unfold decodeLoad
  generalize funct3Of w = f at hw ⊢
  rcases funct3_cases f with rfl | rfl | rfl | rfl | rfl | rfl | rfl | rfl <;>
    exact ⟨rfl, hw⟩

theorem decodeStore_standsFor (h : opcodeOf w = OpClass.store.opcode) : StandsFor (decodeStore w) w := by
  have hw := encS_fields h
  unfold decodeStore
  generalize funct3Of w = f at hw ⊢
  rcases funct3_cases f with rfl | rfl | rfl | rfl | rfl | rfl | rfl | rfl <;>
    exact ⟨rfl, hw⟩

theorem decodeImm_standsFor (h : opcodeOf w = OpClass.imm.opcode) : StandsFor (decodeImm w) w := by
  have hw := encI_fields h
  unfold decodeImm
  by_cases h7 : funct7Of w = 0b0100000#7
  · have hsrai := immIOf_split w h7 ▸ hw
    simp only [h7, if_true]
    generalize funct3Of w = f at hw hsrai ⊢
    rcases funct3_cases f with rfl | rfl | rfl | rfl | rfl | rfl | rfl | rfl
    pick_goal 6 -- funct3 101
    · exact ⟨rfl, hsrai⟩
    all_goals exact ⟨rfl, hw⟩
  · simp only [h7, if_false]
    generalize funct3Of w = f at hw ⊢
    rcases funct3_cases f with rfl | rfl | rfl | rfl | rfl | rfl | rfl | rfl
    pick_goal 6 -- funct3 101
    · exact ⟨wellFormed_srli_iff.mpr (immIOf_funct7 w ▸ h7), hw⟩
    all_goals exact ⟨rfl, hw⟩

theorem decodeOp_standsFor (h : opcodeOf w = OpClass.op.opcode) : StandsFor (decodeOp w) w := by
  have hw := encR_fields h
  unfold decodeOp
  generalize funct3Of w = f, funct7Of w = g at hw ⊢
  by_cases h7 : g = 0b0100000#7
  · subst h7
    rcases funct3_cases f with rfl | rfl | rfl | rfl | rfl | rfl | rfl | rfl <;>
      exact ⟨rfl, hw⟩
  · simp only [h7, if_false]
    rcases funct3_cases f with rfl | rfl | rfl | rfl | rfl | rfl | rfl | rfl
    pick_goal 6 -- funct3 101
    · exact ⟨wellFormed_srl_iff.mpr h7, hw⟩
    · exact ⟨wellFormed_add_iff.mpr h7, hw⟩
    all_goals exact ⟨rfl, hw⟩

theorem decodeMisc_standsFor (h : opcodeOf w = OpClass.misc.opcode) : StandsFor (decodeMisc w) w := by
  have hw := encI_fields h
  unfold decodeMisc
  split_ifs with h3
  · exact ⟨rfl, .trans (by rw [h3]; rfl) hw⟩
  · exact ⟨wellFormed_fence_iff.mpr h3, hw⟩

theorem decodeEcall_standsFor (h : encI (immIOf w) (rs1Of w) 0b000#3 (rdOf w) .system = w) :
    StandsFor (decodeEcall w) w := by
  by_cases hnamed : w ∈ namedSystemWords
  · rcases mem_namedSystemWords_iff.mp hnamed with rfl | rfl | rfl | rfl <;> exact ⟨rfl, rfl⟩
  · rw [decodeEcall_of_not_named hnamed]
    exact ⟨wellFormed_ecall_iff.mpr (h.symm ▸ hnamed), h⟩

theorem decodeSystem_standsFor (h : opcodeOf w = OpClass.system.opcode) : StandsFor (decodeSystem w) w := by
  have hw := encI_fields h
  unfold decodeSystem
  generalize funct3Of w = f at hw ⊢
  rcases funct3_cases f with rfl | rfl | rfl | rfl | rfl | rfl | rfl | rfl
  · exact decodeEcall_standsFor hw
  all_goals exact ⟨rfl, hw⟩

theorem decodeClass_standsFor {c : OpClass} (h : opcodeOf w = c.opcode) : StandsFor (decodeClass c w) w := by
  cases c
  case lui | auipc => exact ⟨rfl, encU_fields h⟩
  case jal => exact ⟨by simp [decodeClass, Instr.WellFormed, Instr.wf, evenImm21], encJ_fields h⟩
  case jalr => exact ⟨rfl, encI_fields h⟩
  case branch => exact decodeBranch_standsFor h
  case load => exact decodeLoad_standsFor h
  case store => exact decodeStore_standsFor h
  case imm => exact decodeImm_standsFor h
  case op => exact decodeOp_standsFor h
  case misc => exact decodeMisc_standsFor h
  case system => exact decodeSystem_standsFor h

end

/-- Settles O16: a word of a class is the instruction its class's decoder gives, and a word of none is `illegal`. -/
theorem encodeOfDecodeIsTheWord : Obligations.EncodeOfDecodeIsTheWord := by
  intro w
  cases h : classify (opcodeOf w) with
  | some c =>
    have hop := opcode_of_classify h
    rw [decodeWord_of_class hop]
    exact decodeClass_standsFor hop
  | none =>
    rw [decodeWord_of_none h]
    exact ⟨wellFormed_illegal_iff.mpr h, rfl⟩

end Sys2Proof.Machine
end

section
/-! PROOFS about the opcode table (30_encoding.md R65). No row looks at a bit outside
opcode and funct3, but for the three that fix funct7 as well and the four that fix the whole word. So the first match of
a word is that of the few bits of it that the rows in question look at, and on those bits the table is evaluated. -/

namespace Sys2Proof.Machine

/-! ## Looking up some bits of a word -/

/-- A row selects a word that agrees with its pattern under its mask (30_encoding.md R65). -/
def rowSelects (w : Word) (r : TableRow) : Bool := w &&& r.mask == r.pattern

/-- A row looks at no bit outside the given ones. -/
def looksWithin (bits : Word) (r : TableRow) : Bool := r.mask &&& bits == r.mask

/-- The first match of a word among the rows that look at no bit outside the given ones. -/
def matchWithin (bits w : Word) : Option String :=
  ((opcodeTable.filter (looksWithin bits)).find? (rowSelects w)).map TableRow.mnemonic

theorem rowSelects_and {bits : Word} {r : TableRow} (w : Word) (h : looksWithin bits r = true) :
    rowSelects (w &&& bits) r = rowSelects w r := by
  rw [looksWithin, beq_iff_eq, BitVec.and_comm] at h
  rw [rowSelects, rowSelects, BitVec.and_assoc, h]

/-- Where every row that selects w looks at the given bits alone, those bits of w decide the first match. -/
theorem firstMatch_eq_matchWithin {w bits : Word}
    (h : ∀ r ∈ opcodeTable, rowSelects w r = true → looksWithin bits r = true) :
    firstMatch w = matchWithin bits (w &&& bits) := by
  have hsame : ∀ r ∈ opcodeTable,
      rowSelects w r = decide (looksWithin bits r = true ∧ rowSelects (w &&& bits) r = true) := by
    intro r hr
    by_cases hin : looksWithin bits r = true
    · simp [hin, rowSelects_and w hin]
    · simp [hin, mt (h r hr) hin]
  rw [firstMatch, matchWithin, List.find?_filter]
  exact congrArg _ (List.find?_congr hsame)

/-- The opcode and funct3 bits. -/
def opcodeFunct3Bits : Word := 0x0000707F#32

/-- The opcode, funct3 and funct7 bits. -/
def opcodeFunctsBits : Word := 0xFE00707F#32

theorem and_opcodeFunct3Bits (w : Word) :
    w &&& opcodeFunct3Bits = place (funct3Of w) 12 ||| place (opcodeOf w) 0 := by
  rw [funct3Of_eq, opcodeOf_eq]
  apply BitVec.eq_of_getLsbD_eq
  intro i hi
  interval_cases i <;> simp [opcodeFunct3Bits, place]

theorem and_opcodeFunctsBits (w : Word) :
    w &&& opcodeFunctsBits = place (funct7Of w) 25 ||| place (funct3Of w) 12 ||| place (opcodeOf w) 0 := by
  rw [funct7Of_eq, funct3Of_eq, opcodeOf_eq]
  apply BitVec.eq_of_getLsbD_eq
  intro i hi
  interval_cases i <;> simp [opcodeFunctsBits, place]

theorem opcodeOf_and_of_covers {w mask : Word} (h : opcodeOf mask = BitVec.allOnes 7) :
    opcodeOf (w &&& mask) = opcodeOf w := by
  rw [opcodeOf_eq, BitVec.extractLsb'_and, ← opcodeOf_eq mask, h, BitVec.and_allOnes, opcodeOf_eq]

theorem funct7Of_and_of_covers {w mask : Word} (h : funct7Of mask = BitVec.allOnes 7) :
    funct7Of (w &&& mask) = funct7Of w := by
  rw [funct7Of_eq, BitVec.extractLsb'_and, ← funct7Of_eq mask, h, BitVec.and_allOnes, funct7Of_eq]

/-! ## Which rows can select a word -/

/-- A word with the funct7 of SUB, SRA and SRAI in a class that has one of them (30_encoding.md R61, R65). -/
def HasAlternateFunct7 (w : Word) : Prop :=
  funct7Of w = 0b0100000#7 ∧ (classify (opcodeOf w) = some .imm ∨ classify (opcodeOf w) = some .op)

/-- The rows by their masks. -/
theorem opcodeTable_masks : ∀ r ∈ opcodeTable,
    looksWithin opcodeFunct3Bits r = true ∨
    (r.mask = opcodeFunctsBits ∧ funct7Of r.pattern = 0b0100000#7 ∧
      (classify (opcodeOf r.pattern) = some .imm ∨ classify (opcodeOf r.pattern) = some .op)) ∨
    (r.mask = BitVec.allOnes 32 ∧ r.pattern ∈ namedSystemWords) := by decide

/-- Every row but ILLEGAL fixes the whole opcode, to a class's number. -/
theorem opcodeTable_opcodes : ∀ r ∈ opcodeTable,
    looksWithin 0#32 r = true ∨
    (opcodeOf r.mask = BitVec.allOnes 7 ∧ classify (opcodeOf r.pattern) ≠ none) := by decide

theorem selecting_row_cases {w : Word} {r : TableRow} (hr : r ∈ opcodeTable) (hsel : rowSelects w r = true) :
    looksWithin opcodeFunct3Bits r = true ∨ (r.mask = opcodeFunctsBits ∧ HasAlternateFunct7 w) ∨
      w ∈ namedSystemWords := by
  rw [rowSelects, beq_iff_eq] at hsel
  rcases opcodeTable_masks r hr with hlow | ⟨hmask, h7, hclass⟩ | ⟨hmask, hnamed⟩
  · exact .inl hlow
  · rw [← hsel, hmask] at h7 hclass
    rw [funct7Of_and_of_covers (by decide)] at h7
    rw [opcodeOf_and_of_covers (by decide)] at hclass
    exact .inr (.inl ⟨hmask, h7, hclass⟩)
  · rw [← hsel, hmask, BitVec.and_allOnes] at hnamed
    exact .inr (.inr hnamed)

theorem looksWithin_opcodeFunctsBits {r : TableRow} (h : looksWithin opcodeFunct3Bits r = true) :
    looksWithin opcodeFunctsBits r = true := by
  rw [looksWithin, beq_iff_eq] at h ⊢
  rw [← h, BitVec.and_assoc]
  rfl

/-! ## The first match of a word, by the rows that can select it -/

/-- No row but ILLEGAL selects a word of no class. -/
theorem firstMatch_of_no_class {w : Word} (h : classify (opcodeOf w) = none) : firstMatch w = some "ILLEGAL" := by
  rw [firstMatch_eq_matchWithin (bits := 0#32), BitVec.and_zero]
  · rfl
  · intro r hr hsel
    rw [rowSelects, beq_iff_eq] at hsel
    rcases opcodeTable_opcodes r hr with hzero | ⟨hmask, hclass⟩
    · exact hzero
    · rw [← hsel, opcodeOf_and_of_covers hmask] at hclass
      exact absurd h hclass

theorem firstMatch_of_named {w : Word} (h : w ∈ namedSystemWords) : firstMatch w = some (decodeWord w).mnemonic := by
  rcases mem_namedSystemWords_iff.mp h with rfl | rfl | rfl | rfl <;> rfl

theorem firstMatch_of_alternate {w : Word} (h : HasAlternateFunct7 w) (hnamed : w ∉ namedSystemWords) :
    firstMatch w = some (decodeWord w).mnemonic := by
  rw [firstMatch_eq_matchWithin (bits := opcodeFunctsBits), and_opcodeFunctsBits]
  · obtain ⟨h7, hclass⟩ := h
    rcases hclass with hclass | hclass <;> have hop := opcode_of_classify hclass <;>
      rw [decodeWord_of_class hop, hop] <;>
      simp only [decodeClass, decodeImm, decodeOp, h7] <;>
      generalize funct3Of w = f <;>
      rcases funct3_cases f with rfl | rfl | rfl | rfl | rfl | rfl | rfl | rfl <;> rfl
  · intro r hr hsel
    rcases selecting_row_cases hr hsel with hlow | ⟨hmask, -⟩ | hmem
    · exact looksWithin_opcodeFunctsBits hlow
    · rw [looksWithin, hmask]
      rfl
    · exact absurd hmem hnamed

/-- The rows that look at opcode and funct3 alone give the decoder's name for every funct3 of a class. -/
theorem matchWithin_opcodeFunct3Bits {w : Word} {c : OpClass} (hnamed : w ∉ namedSystemWords)
    (h7 : c = .imm ∨ c = .op → funct7Of w ≠ 0b0100000#7) :
    matchWithin opcodeFunct3Bits (place (funct3Of w) 12 ||| place c.opcode 0) = some (decodeClass c w).mnemonic := by
  cases c
  all_goals
    simp only [decodeClass, decodeBranch, decodeLoad, decodeStore, decodeMisc, decodeSystem,
      decodeEcall_of_not_named hnamed]
  case' imm => simp only [decodeImm, h7 (.inl rfl), if_false]
  case' op => simp only [decodeOp, h7 (.inr rfl), if_false]
  all_goals
    generalize funct3Of w = f
    rcases funct3_cases f with rfl | rfl | rfl | rfl | rfl | rfl | rfl | rfl <;> rfl

theorem firstMatch_of_class {w : Word} {c : OpClass} (hclass : classify (opcodeOf w) = some c)
    (h7 : ¬ HasAlternateFunct7 w) (hnamed : w ∉ namedSystemWords) :
    firstMatch w = some (decodeWord w).mnemonic := by
  have hop := opcode_of_classify hclass
  rw [firstMatch_eq_matchWithin (bits := opcodeFunct3Bits), and_opcodeFunct3Bits, decodeWord_of_class hop, hop]
  · refine matchWithin_opcodeFunct3Bits hnamed fun hc e => h7 ⟨e, ?_⟩
    rw [hclass]
    exact hc.imp (congrArg some) (congrArg some)
  · intro r hr hsel
    rcases selecting_row_cases hr hsel with hlow | ⟨-, halternate⟩ | hmem
    · exact hlow
    · exact absurd halternate h7
    · exact absurd hmem hnamed

/-- Settles O17, by the rows that can select the word. -/
theorem decoderAgreesWithTheOpcodeTable : Obligations.DecoderAgreesWithTheOpcodeTable := by
  intro w
  by_cases hnamed : w ∈ namedSystemWords
  · exact firstMatch_of_named hnamed
  by_cases h7 : HasAlternateFunct7 w
  · exact firstMatch_of_alternate h7 hnamed
  cases hclass : classify (opcodeOf w) with
  | some c => exact firstMatch_of_class hclass h7 hnamed
  | none =>
    rw [decodeWord_of_none hclass]
    exact firstMatch_of_no_class hclass

end Sys2Proof.Machine
end

section
/-! PROOFS about the formats and the decoded record (30_encoding.md R51 to R60): the class of a word fixes them. -/

namespace Sys2Proof.Machine

/-! ## The class and the format -/

/-- A number of no class is none of the class numbers (30_encoding.md R51). -/
theorem ne_opcode_of_classify_none {o : BitVec 7} (h : classify o = none) (c : OpClass) : o ≠ c.opcode := by
  rintro rfl
  simp at h

/-- Settles O18: the classifiers compare the opcode with class numbers, so the class decides them all, and for a word of
no class every comparison fails. -/
theorem oneFormatClassifierIsTrue : Obligations.OneFormatClassifierIsTrue := by
  intro w
  simp only [isR, isI, isS, isB, isU, isJ, formatOf, HasOpcode, ← opcodeOf_eq]
  cases hclass : classify (opcodeOf w) with
  | some c =>
    rw [opcode_of_classify hclass]
    cases c <;> decide
  | none =>
    have hne (c : OpClass) : (opcodeOf w == c.opcode) = false :=
      beq_false_of_ne (ne_opcode_of_classify_none hclass c)
    simp [hne]

/-! ## The record (R60) -/

theorem fields_of_class {w : Word} {c : OpClass} (h : opcodeOf w = c.opcode) : fields w = some (fieldsOf c w) := by
  rw [fields, h, classify_opcode, Option.map_some]

theorem class_of_fields_eq_some {w : Word} {d : Decoded} (h : fields w = some d) :
    ∃ c, opcodeOf w = c.opcode ∧ d = fieldsOf c w := by
  obtain ⟨c, hclass, rfl⟩ := Option.map_eq_some_iff.mp h
  exact ⟨c, opcode_of_classify hclass, rfl⟩

theorem fields_eq_none_iff (w : Word) : fields w = none ↔ classify (opcodeOf w) = none := Option.map_eq_none_iff

theorem zext_eq {n : Nat} (v : BitVec n) (h : n ≤ 32) : zext v h = v.setWidth 32 := BitVec.ofNat_toNat 32 v

/-- Settles O20: a record is the one of the word's class, and each class's fields are the word's bits. -/
theorem decodedRecordHasItsFormatsFields : Obligations.DecodedRecordHasItsFormatsFields := by
  intro w
  refine ⟨fields_eq_none_iff w, fun d hd => ?_⟩
  obtain ⟨c, hop, rfl⟩ := class_of_fields_eq_some hd
  simp only [fieldsOf, sext_eq, zext_eq]
  cases c <;> exact ⟨hop.symm, rfl, rfl, rfl, rfl, rfl, rfl, rfl⟩

/-! ## The scattered immediates (R55, R56, R58) -/

/-- A signed number is even where its bit 0 is zero. -/
theorem toInt_emod_two_of_even {n : Nat} (v : BitVec (n + 1)) (h : v[0] = false) : v.toInt % 2 = 0 := by
  have hNat : v.toNat % 2 = 0 := by simpa [BitVec.getElem_eq_testBit_toNat] using h
  rw [BitVec.toInt_eq_toNat_cond, Nat.pow_succ]
  split_ifs <;> omega

/-- Settles O19: the record is the class's, a signed number of n bits is in n bits' range, and an even one below a power
of two is at most that power less two. -/
theorem scatteredImmediatesAreAssembled : Obligations.ScatteredImmediatesAreAssembled := by
  intro w
  have hBeven := toInt_emod_two_of_even (immBOf w) (immBOf_even w)
  have hJeven := toInt_emod_two_of_even (immJOf w) (immJOf_even w)
  have hBlt := (immBOf w).toInt_lt
  have hJlt := (immJOf w).toInt_lt
  refine ⟨fun h => ?_, fun h => ?_, fun h => ?_, rfl, rfl, rfl, (immSOf w).le_toInt,
    Int.le_of_lt_add_one (immSOf w).toInt_lt, hBeven, (immBOf w).le_toInt, by omega, hJeven, (immJOf w).le_toInt,
    by omega⟩
  · rw [fields_of_class (c := .store) h, fieldsOf, sext_eq]
    rfl
  · rw [fields_of_class (c := .branch) h, fieldsOf, sext_eq]
    rfl
  · rw [fields_of_class (c := .jal) h, fieldsOf, sext_eq]
    rfl

/-! ## Words of the spec -/

/-- Settles O21, by decoding the fourteen words. -/
theorem sampleWordsDecodeAsWritten : Obligations.SampleWordsDecodeAsWritten := by
  unfold Obligations.SampleWordsDecodeAsWritten
  decide

end Sys2Proof.Machine
end

section
/-! PROOFS about the words that are fatal at decode or dispatch (30_encoding.md R66). `WordDoes` says what each class of
word does; here it is compared, class by class, with the list. -/

namespace Sys2Proof.Machine

/-! ## The run state a step leaves -/

theorem GoesOn.run_eq {s t : State} {events : List TraceEvent} (h : GoesOn s t events) : t.run = s.run := h.2.1

theorem EndsRun.run_eq {s t : State} {run : RunState} {events : List TraceEvent} (h : EndsRun s t run events) :
    t.run = run := by
  obtain ⟨_, _, _, _, hrun, _⟩ := h
  exact hrun

theorem OnlyMovesPc.run_eq {s t : State} {pc : Word} {events : List TraceEvent} (h : OnlyMovesPc s t pc events) :
    t.run = s.run := h.2.2.2.run_eq

theorem WritesAndAdvances.run_eq {s t : State} {rd : RegIdx} {v : Word} (h : WritesAndAdvances s t rd v) :
    t.run = s.run := h.2.2.2.run_eq

section
variable {s t : State} {w : Word} {mode : LoadStoreMode}

/-! ## The list, class by class -/

theorem not_unsupportedWord_of_opcode
    (h : w.extractLsb' 0 7 ∈ [0x37#7, 0x17#7, 0x13#7, 0x33#7, 0x6F#7, 0x67#7, 0x0F#7]) :
    ¬ UnsupportedWord mode w := by
  simp only [List.mem_cons, List.not_mem_nil, or_false] at h
  rcases h with h | h | h | h | h | h | h <;> simp [UnsupportedWord, h]

theorem unsupportedWord_branch_iff (h : w.extractLsb' 0 7 = 0x63#7) :
    UnsupportedWord mode w ↔ w.extractLsb' 12 3 ∈ [2#3, 3#3] := by
  simp [UnsupportedWord, h]

theorem unsupportedWord_load_iff (h : w.extractLsb' 0 7 = 0x03#7) :
    UnsupportedWord mode w ↔ mode = .perform ∧ w.extractLsb' 12 3 ∈ [3#3, 6#3, 7#3] := by
  simp [UnsupportedWord, h]

theorem unsupportedWord_store_iff (h : w.extractLsb' 0 7 = 0x23#7) :
    UnsupportedWord mode w ↔ mode = .perform ∧ w.extractLsb' 12 3 ∈ [3#3, 4#3, 5#3, 6#3, 7#3] := by
  simp [UnsupportedWord, h]

theorem unsupportedWord_system_iff (h : w.extractLsb' 0 7 = 0x73#7) :
    UnsupportedWord mode w ↔ w.extractLsb' 12 3 = 4#3 := by
  simp [UnsupportedWord, h]

/-! ## What a word does agrees with the list -/

/-- The word w led from s to t, and that agrees with the list: a word of the list ends the run in UnsupportedEncoding
of itself, any other in no UnsupportedEncoding. -/
def AgreesWithTheList (s : State) (w : Word) (t : State) : Prop :=
  (UnsupportedWord s.cfg.loadStoreMode w ∧ ∃ events, EndsRun s t (.faulted (.unsupportedEncoding w)) events) ∨
    (¬ UnsupportedWord s.cfg.loadStoreMode w ∧ ∀ v, t.run ≠ .faulted (.unsupportedEncoding v))

theorem agreesWithTheList_of_run {run : RunState} (hlist : ¬ UnsupportedWord s.cfg.loadStoreMode w) (h : t.run = run)
    (hrun : ∀ v, run ≠ .faulted (.unsupportedEncoding v)) : AgreesWithTheList s w t :=
  .inr ⟨hlist, h ▸ hrun⟩

theorem agreesWithTheList_of_run_eq (hrun : s.run = .running) (hlist : ¬ UnsupportedWord s.cfg.loadStoreMode w)
    (h : t.run = s.run) : AgreesWithTheList s w t :=
  agreesWithTheList_of_run hlist (h.trans hrun) nofun

theorem agreesWithTheList_of_loadDoes (hrun : s.run = .running) (hop : w.extractLsb' 0 7 = 0x03#7)
    (h : LoadDoes s w t) : AgreesWithTheList s w t := by
  have hlist := unsupportedWord_load_iff (mode := s.cfg.loadStoreMode) hop
  have hunlisted (hmode : s.cfg.loadStoreMode = .observe) : ¬ UnsupportedWord s.cfg.loadStoreMode w :=
    fun hmem => absurd (hmode.symm.trans (hlist.mp hmem).1) (by decide)
  rcases h with ⟨hmode, moved⟩ | ⟨_, _, _, _, hwidth, _, _, _, _, goes⟩ | ⟨_, _, _, hwidth, _, ended⟩ |
    ⟨hmode, hwidth, ended⟩
  · exact agreesWithTheList_of_run_eq hrun (hunlisted hmode) moved.run_eq
  · exact agreesWithTheList_of_run_eq hrun (fun hmem => hwidth (hlist.mp hmem).2) goes.run_eq
  · exact agreesWithTheList_of_run (fun hmem => hwidth (hlist.mp hmem).2) ended.run_eq nofun
  · exact .inl ⟨hlist.mpr ⟨hmode, hwidth⟩, _, ended⟩

theorem agreesWithTheList_of_storeDoes (hrun : s.run = .running) (hop : w.extractLsb' 0 7 = 0x23#7)
    (h : StoreDoes s w t) : AgreesWithTheList s w t := by
  have hlist := unsupportedWord_store_iff (mode := s.cfg.loadStoreMode) hop
  have hunlisted (hmode : s.cfg.loadStoreMode = .observe) : ¬ UnsupportedWord s.cfg.loadStoreMode w :=
    fun hmem => absurd (hmode.symm.trans (hlist.mp hmem).1) (by decide)
  rcases h with ⟨hmode, moved⟩ | ⟨_, _, _, hwidth, _, _, _, _, goes⟩ | ⟨_, _, _, hwidth, _, ended⟩ |
    ⟨hmode, hwidth, ended⟩
  · exact agreesWithTheList_of_run_eq hrun (hunlisted hmode) moved.run_eq
  · exact agreesWithTheList_of_run_eq hrun (fun hmem => hwidth (hlist.mp hmem).2) goes.run_eq
  · exact agreesWithTheList_of_run (fun hmem => hwidth (hlist.mp hmem).2) ended.run_eq nofun
  · exact .inl ⟨hlist.mpr ⟨hmode, hwidth⟩, _, ended⟩

theorem agreesWithTheList_of_systemDoes (hrun : s.run = .running) (hop : w.extractLsb' 0 7 = 0x73#7)
    (h : SystemDoes s w t) : AgreesWithTheList s w t := by
  have hlist := unsupportedWord_system_iff (mode := s.cfg.loadStoreMode) hop
  rcases h with ⟨hf, _, moved⟩ | ⟨hf, _, ended⟩ | ⟨hf, _, ended⟩ | ⟨hf, ended⟩ | ⟨hf, _, moved⟩
  · exact agreesWithTheList_of_run_eq hrun (by simp [hlist, hf]) moved.run_eq
  · exact agreesWithTheList_of_run (by simp [hlist, hf]) ended.run_eq nofun
  · exact agreesWithTheList_of_run (by simp [hlist, hf]) ended.run_eq nofun
  · exact .inl ⟨hlist.mpr hf, _, ended⟩
  · exact agreesWithTheList_of_run_eq hrun (fun hmem => hf (by simp [hlist.mp hmem])) moved.run_eq

theorem agreesWithTheList_of_wordDoes (hrun : s.run = .running) (h : WordDoes s w t) : AgreesWithTheList s w t := by
  rcases h with ⟨hop, _, wrote⟩ | ⟨hop, _, _, _, goes⟩ | ⟨hop, _, _, _, goes⟩ | ⟨hop, reserved, conditional⟩ |
    ⟨hop, loaded⟩ | ⟨hop, stored⟩ | ⟨hop, moved⟩ | ⟨hop, system⟩ | ⟨hop, ended⟩
  · exact agreesWithTheList_of_run_eq hrun
      (not_unsupportedWord_of_opcode (List.mem_append_left [0x6F#7, 0x67#7, 0x0F#7] hop)) wrote.run_eq
  · exact agreesWithTheList_of_run_eq hrun (not_unsupportedWord_of_opcode (by simp [hop])) goes.run_eq
  · exact agreesWithTheList_of_run_eq hrun (not_unsupportedWord_of_opcode (by simp [hop])) goes.run_eq
  · have hlist := unsupportedWord_branch_iff (mode := s.cfg.loadStoreMode) hop
    by_cases hf : w.extractLsb' 12 3 ∈ [2#3, 3#3]
    · exact .inl ⟨hlist.mpr hf, _, reserved hf⟩
    · refine agreesWithTheList_of_run_eq hrun (mt hlist.mp hf) ?_
      obtain ⟨htaken, hnot⟩ := conditional hf
      by_cases ht : BranchTaken (w.extractLsb' 12 3) (s.x (w.extractLsb' 15 5)) (s.x (w.extractLsb' 20 5))
      · exact (htaken ht).run_eq
      · exact (hnot ht).run_eq
  · exact agreesWithTheList_of_loadDoes hrun hop loaded
  · exact agreesWithTheList_of_storeDoes hrun hop stored
  · exact agreesWithTheList_of_run_eq hrun (not_unsupportedWord_of_opcode (by simp [hop])) moved.run_eq
  · exact agreesWithTheList_of_systemDoes hrun hop system
  · exact .inl ⟨.inl hop, _, ended⟩
end

/-- Settles O27: the one step from s does what its word does, and that agrees with the list. -/
theorem unsupportedWordsAreExactlyTheList : Obligations.UnsupportedWordsAreExactlyTheList := by
  intro s w v hrun hfetch
  obtain ⟨t, hstep⟩ := step_answers hrun
  have honly (u : State) (hu : step s = .next u) : u = t := by
    rw [hstep] at hu
    injection hu with hu
    exact hu.symm
  rcases agreesWithTheList_of_wordDoes hrun (step_word hfetch hstep).2 with
    ⟨hlist, events, ended⟩ | ⟨hlist, hother⟩
  · refine ⟨⟨?_, ?_⟩, fun _ => ⟨t, events, hstep, ended⟩⟩
    · rintro ⟨u, hu, hfault⟩
      rw [honly u hu, ended.run_eq] at hfault
      injection hfault with hfault
      injection hfault with hfault
      exact ⟨hfault.symm, hlist⟩
    · rintro ⟨rfl, -⟩
      exact ⟨t, hstep, ended.run_eq⟩
  · refine ⟨⟨?_, fun hv => absurd hv.2 hlist⟩, fun hlist' => absurd hlist' hlist⟩
    rintro ⟨u, hu, hfault⟩
    exact absurd (honly u hu ▸ hfault) (hother v)

end Sys2Proof.Machine
end

section
/-! PROOFS about the primitives and the evaluator (40_primitives.md): the extractor, the two forms of sign extension,
and one lemma for each operation that is not already the word operation of its name. -/

namespace Sys2Proof.Machine

/-! ## The extractor and sign extension (R80, R82, R83) -/

/-- Settles O1: the extracted bits are the shifted word modulo a power of two, and that is the mask. -/
theorem extractorShiftsAndMasks : Obligations.ExtractorShiftsAndMasks := by
  intro w hi lo _
  rw [extract, BitVec.extractLsb_toNat, Nat.and_two_pow_sub_one_eq_mod]

theorem signed_sext {n : Nat} (v : BitVec n) (h : 1 ≤ n ∧ n ≤ 32) : signed (sext v h) = signExtend v h := by
  rw [signed_eq_toInt, sext_eq, BitVec.toInt_signExtend_of_le h.2, signExtend_eq_toInt]

theorem getLsbD_sext {n : Nat} (v : BitVec n) (h : 1 ≤ n ∧ n ≤ 32) {i : Nat} (hi : i < 32) :
    (sext v h).getLsbD i = if i < n then v.getLsbD i else v.getLsbD (n - 1) := by
  rw [sext_eq, BitVec.getLsbD_signExtend, decide_eq_true hi, Bool.true_and, BitVec.msb_eq_getLsbD_last]

/-- Settles O2: the number is the two's-complement reading of the n bits, and the word form is its 32-bit sign
extension. -/
theorem signExtensionKeepsTheNumber : Obligations.SignExtensionKeepsTheNumber := by
  intro n h v
  have hrange : -(2 ^ (n - 1) : Int) ≤ signExtend v h ∧ signExtend v h ≤ 2 ^ (n - 1) - 1 := by
    rw [signExtend_eq_toInt]
    exact ⟨v.le_toInt, Int.le_sub_one_of_lt v.toInt_lt⟩
  refine ⟨?_, hrange.1, hrange.2, toNat_ofInt_word _, fun i hi => ?_, fun i hni hi => ?_, signed_sext v h⟩
  · rw [signExtend, BitVec.msb_eq_getLsbD_last]
  · rw [getLsbD_sext v h (hi.trans_le h.2), if_pos hi]
  · rw [getLsbD_sext v h hi, if_neg hni.not_gt]

/-! ## The evaluator (R85 to R93) -/

theorem toNat_shiftLeft (x y : Word) :
    (shiftLeft x y).toNat = if y.toNat < 32 then (x.toNat * 2 ^ y.toNat) % 2 ^ 32 else 0 := by
  rw [shiftLeft, apply_ite BitVec.toNat, BitVec.toNat_shiftLeft, Nat.shiftLeft_eq, BitVec.toNat_zero]

theorem toNat_shiftRight (x y : Word) :
    (shiftRight x y).toNat = if y.toNat < 32 then x.toNat / 2 ^ y.toNat else 0 := by
  rw [shiftRight, apply_ite BitVec.toNat, BitVec.toNat_ushiftRight, Nat.shiftRight_eq_div_pow, BitVec.toNat_zero]

theorem toNat_truthWord (b : Bool) : (truthWord b).toNat = if b then 1 else 0 := by
  cases b <;> rfl

/-- Settles O3: each selector's operation, read as a number or bit by bit. -/
theorem evaluatorFollowsItsTable : Obligations.EvaluatorFollowsItsTable := by
  intro x y
  refine ⟨BitVec.toNat_add x y, toNat_shiftLeft x y, ?slt, ?sltu, fun _ => BitVec.getLsbD_xor,
    toNat_shiftRight x y, fun _ => BitVec.getLsbD_or, fun _ => BitVec.getLsbD_and⟩
  case slt => exact (toNat_truthWord _).trans (if_congr (signedLess_iff x y) rfl rfl)
  case sltu => exact (toNat_truthWord _).trans (if_congr (unsignedLess_iff x y) rfl rfl)

end Sys2Proof.Machine
end

section
/-! PROOFS about the engine (41_engine.md): the fetch in front of a step, what a step that ends the run leaves alone, the
sequencer's table for every word, and the driver's loop. -/

namespace Sys2Proof.Machine

/-! ## The fetch in front of a step (R101, R102) -/

/-- Four bytes of memory decode to the instruction of the word a fetch reads there (30_encoding.md R50). -/
theorem decodeBytes_readBytes (m : Memory) (a : Nat) :
    decodeBytes (m.readBytes a 4) = .ok (decodeWord (BitVec.ofNat 32 (leValue (m.readBytes a 4))), []) := rfl

/-- Settles O22: the fetch reads the same four bytes, and what a word decodes to is well-formed. -/
theorem stepRunsTheDecodedInstruction : Obligations.StepRunsTheDecodedInstruction := by
  intro s i rest hrun hr hbytes
  rw [decodeBytes_readBytes] at hbytes
  injection hbytes with hbytes
  injection hbytes with hi _
  subst hi
  rcases fetch_eq s with ⟨_, hfetch⟩ | ⟨hout, _⟩
  · exact ⟨(encodeOfDecodeIsTheWord _).1, step_of_fetch hrun hfetch⟩
  · exact absurd hr hout

theorem step_of_fetch_outside {s : State} (hrun : s.run = .running) (hout : ¬ InRange s.cfg s.pc 4) :
    step s = .next (s.raise (.outOfBounds s.pc)) := by
  rcases fetch_eq s with ⟨hr, _⟩ | ⟨_, hfetch⟩
  · exact absurd hr hout
  · rw [step, hrun, hfetch]

/-- Settles O23: the fetch raises OutOfBounds(pc), and the pc of the reference reset is below the region. -/
theorem fetchOutsideTheRegionIsFatal : Obligations.FetchOutsideTheRegionIsFatal :=
  ⟨fun s hrun hout => ⟨_, step_of_fetch_outside hrun hout, raise_spec s _⟩,
    _, step_of_fetch_outside rfl (by decide), raise_spec State.reset _⟩

/-! ## What a step that ends the run leaves as it was (R108, R109) -/

/-- The run goes on, or registers, memory and parameters are as they were, entry by entry as stored. -/
def GoesOnOrKeepsStored (s t : State) : Prop :=
  t.run = s.run ∨ (t.regs = s.regs ∧ t.mem = s.mem ∧ t.cfg = s.cfg)

section
variable {s t : State}

theorem goesOnOrKeepsStored_of_branchOn {cond : Word → Word → Bool} {rs1 rs2 : RegIdx} {imm : BitVec 13}
    (h : branchOn cond rs1 rs2 imm s = .next t) : GoesOnOrKeepsStored s t := by
  unfold branchOn at h
  split at h <;> injection h with h <;> subst h
  · exact .inl (run_transfer ..)
  · exact .inl (run_advance _)

theorem goesOnOrKeepsStored_of_load {n : Width} {extend : Width → Nat → Word} {rd rs1 : RegIdx} {imm : BitVec 12}
    (h : load n extend rd rs1 imm s = .next t) : GoesOnOrKeepsStored s t := by
  unfold load State.performLoad at h
  split at h <;> injection h with h
  · subst h
    exact .inl (run_advance _)
  · split at h <;> subst h
    · exact .inl (run_finish ..)
    · exact .inr ⟨rfl, rfl, rfl⟩

theorem goesOnOrKeepsStored_of_store {n : Width} {rs2 rs1 : RegIdx} {imm : BitVec 12}
    (h : store n rs2 rs1 imm s = .next t) : GoesOnOrKeepsStored s t := by
  unfold store State.performStore at h
  split at h <;> injection h with h
  · subst h
    exact .inl (run_advance _)
  · rcases memWrite_eq (s.emit (.store (s.effectiveAddress rs1 imm) (s.x rs2))) (s.effectiveAddress rs1 imm) n
      (s.x rs2) with ⟨_, e⟩ | ⟨_, e⟩ <;> rw [e] at h <;> subst h
    · exact .inl (run_advance _)
    · exact .inr ⟨rfl, rfl, rfl⟩

theorem goesOnOrKeepsStored_of_ecallCheck (h : ecallCheck s = .next t) : GoesOnOrKeepsStored s t := by
  unfold ecallCheck at h
  dsimp only at h
  split at h <;> injection h with h <;> subst h
  · exact .inr ⟨rfl, rfl, rfl⟩
  · exact .inl (run_advance _)

/-- Every instruction goes on or keeps what is stored: an access, an ECALL and the reserved encodings raise before
anything is written, and HALT writes nothing. -/
theorem goesOnOrKeepsStored_of_exec {i : Instr} (h : exec i s = .next t) : GoesOnOrKeepsStored s t := by
  cases i
  case beq | bne | blt | bge | bltu | bgeu => exact goesOnOrKeepsStored_of_branchOn h
  case lb | lh | lw | lbu | lhu => exact goesOnOrKeepsStored_of_load h
  case sb | sh | sw => exact goesOnOrKeepsStored_of_store h
  case ecall | ebreak | sret | mret | wfi => exact goesOnOrKeepsStored_of_ecallCheck h
  case loadOther | storeOther =>
    simp only [exec, execLoadOther, execStoreOther] at h
    split at h <;> injection h with h <;> subst h
    · exact .inl (run_advance _)
    · exact .inr ⟨rfl, rfl, rfl⟩
  case csrrw =>
    simp only [exec, execCsrrw] at h
    split at h <;> injection h with h <;> subst h
    · exact .inr ⟨rfl, rfl, rfl⟩
    · exact .inl (run_advance _)
  all_goals injection h with h
  case branchReserved | systemReserved | illegal =>
    subst h
    exact .inr ⟨rfl, rfl, rfl⟩
  case jal | jalr => exact .inl (by simp [← h])
  case fenceI | fence | csrrs | csrrc | csrrwi | csrrsi | csrrci => exact .inl (h ▸ run_advance s)
  all_goals exact .inl (h ▸ run_finish ..)

end

/-- Settles O25: a step whose fetch fails keeps everything but the run state, and an instruction that does not keep what
is stored leaves the machine RUNNING. -/
theorem fatalStepChangesOnlyTheRunState : Obligations.FatalStepChangesOnlyTheRunState := by
  intro s t f hstep hfault
  obtain ⟨hrun, ⟨w, _, _, hexec⟩ | ⟨_, _, rfl⟩⟩ := step_cases hstep
  · rcases goesOnOrKeepsStored_of_exec hexec with hgoes | kept
    · exact absurd (hfault.symm.trans (hgoes.trans hrun)) (by simp)
    · exact ⟨hrun, kept⟩
  · exact ⟨hrun, rfl, rfl, rfl⟩

/-! ## The sequencer's table (R108, R112) -/

theorem EndsRun.pc_eq {s t : State} {run : RunState} {events : List TraceEvent} (h : EndsRun s t run events) :
    t.pc = s.pc := h.2.1

theorem OnlyMovesPc.pc_eq {s t : State} {pc : Word} {events : List TraceEvent} (h : OnlyMovesPc s t pc events) :
    t.pc = pc := h.2.1

theorem WritesAndAdvances.pc_eq {s t : State} {rd : RegIdx} {v : Word} (h : WritesAndAdvances s t rd v) :
    t.pc = s.pc + 4#32 := h.2.1

/-- The one halting word, CSRRW to the handshake address (R108). -/
def IsHaltWord (w : Word) : Prop := HasFunct3 w 0b1110011#7 0b001#3 ∧ w.extractLsb' 20 12 = 3072#12

/-- The pc is the one the sequencer's table gives for the word where the run goes on (R112). -/
def FollowsTable (s : State) (w pc : Word) : Prop :=
  (HasOpcode w 0b1101111#7 → pc = s.pc + (jImmediate w).signExtend 32) ∧
  (HasOpcode w 0b1100111#7 → pc = s.x (w.extractLsb' 15 5) + (w.extractLsb' 20 12).signExtend 32) ∧
  (HasOpcode w 0b1100011#7 →
    (BranchTaken (w.extractLsb' 12 3) (s.x (w.extractLsb' 15 5)) (s.x (w.extractLsb' 20 5)) →
      pc = s.pc + (bImmediate w).signExtend 32) ∧
    (¬ BranchTaken (w.extractLsb' 12 3) (s.x (w.extractLsb' 15 5)) (s.x (w.extractLsb' 20 5)) →
      pc = s.pc + 4#32)) ∧
  (w.extractLsb' 0 7 ∉ [0b1101111#7, 0b1100111#7, 0b1100011#7] → pc = s.pc + 4#32)

/-- The run goes on at a pc of the table given, or ended in a fatal condition. -/
def GoesOnOrFaults (table : Word → Prop) (s t : State) : Prop :=
  (t.run = s.run ∧ table t.pc) ∨ ∃ f events, EndsRun s t (.faulted f) events

/-- The word led from s to t as the sequencer's table says: on at the table's pc or to a fatal condition, or, for the
halting word alone, to HALT. -/
def Sequenced (s : State) (w : Word) (t : State) : Prop :=
  (¬ IsHaltWord w ∧ GoesOnOrFaults (FollowsTable s w) s t) ∨ (IsHaltWord w ∧ EndsRun s t .halted [])

section
variable {s t : State} {w : Word}

theorem followsTable_jal (hop : w.extractLsb' 0 7 = 0x6F#7) :
    FollowsTable s w (s.pc + (jImmediate w).signExtend 32) := by
  simp [FollowsTable, HasOpcode, hop]

theorem followsTable_jalr (hop : w.extractLsb' 0 7 = 0x67#7) :
    FollowsTable s w (s.x (w.extractLsb' 15 5) + (w.extractLsb' 20 12).signExtend 32) := by
  simp [FollowsTable, HasOpcode, hop]

theorem followsTable_branch_iff (hop : w.extractLsb' 0 7 = 0x63#7) (pc : Word) :
    FollowsTable s w pc ↔
      (BranchTaken (w.extractLsb' 12 3) (s.x (w.extractLsb' 15 5)) (s.x (w.extractLsb' 20 5)) →
        pc = s.pc + (bImmediate w).signExtend 32) ∧
      (¬ BranchTaken (w.extractLsb' 12 3) (s.x (w.extractLsb' 15 5)) (s.x (w.extractLsb' 20 5)) →
        pc = s.pc + 4#32) := by
  simp [FollowsTable, HasOpcode, hop]

theorem followsTable_advance (hop : w.extractLsb' 0 7 ∉ [0x6F#7, 0x67#7, 0x63#7]) :
    FollowsTable s w (s.pc + 4#32) := by
  obtain ⟨hjal, hjalr, hbranch⟩ : w.extractLsb' 0 7 ≠ 0x6F#7 ∧ w.extractLsb' 0 7 ≠ 0x67#7 ∧
      w.extractLsb' 0 7 ≠ 0x63#7 := by simpa using hop
  exact ⟨fun h => absurd h hjal, fun h => absurd h hjalr, fun h => absurd h hbranch, fun _ => rfl⟩

/-- No word outside class SYSTEM halts. -/
theorem sequenced_of_opcode (hop : w.extractLsb' 0 7 ≠ 0x73#7) (h : GoesOnOrFaults (FollowsTable s w) s t) :
    Sequenced s w t :=
  .inl ⟨fun hhalt => hop hhalt.1.1, h⟩

/-- A word of no jump or branch class goes on at the next pc. -/
theorem goesOnOrFaults_of_advance (hop : w.extractLsb' 0 7 ∉ [0x6F#7, 0x67#7, 0x63#7])
    (h : GoesOnOrFaults (· = s.pc + 4#32) s t) : GoesOnOrFaults (FollowsTable s w) s t :=
  h.imp_left fun ⟨hrun, hpc⟩ => ⟨hrun, hpc ▸ followsTable_advance hop⟩

theorem OnlyMovesPc.advances {events : List TraceEvent} (h : OnlyMovesPc s t (s.pc + 4#32) events) :
    GoesOnOrFaults (· = s.pc + 4#32) s t :=
  .inl ⟨h.run_eq, h.pc_eq⟩

theorem advancesOrFaults_of_loadDoes (h : LoadDoes s w t) : GoesOnOrFaults (· = s.pc + 4#32) s t := by
  rcases h with ⟨_, moved⟩ | ⟨_, _, _, _, _, _, _, hpc, _, goes⟩ | ⟨_, _, _, _, _, ended⟩ | ⟨_, _, ended⟩
  · exact moved.advances
  · exact .inl ⟨goes.run_eq, hpc⟩
  · exact .inr ⟨_, _, ended⟩
  · exact .inr ⟨_, _, ended⟩

theorem advancesOrFaults_of_storeDoes (h : StoreDoes s w t) : GoesOnOrFaults (· = s.pc + 4#32) s t := by
  rcases h with ⟨_, moved⟩ | ⟨_, _, _, _, _, _, _, hpc, goes⟩ | ⟨_, _, _, _, _, ended⟩ | ⟨_, _, ended⟩
  · exact moved.advances
  · exact .inl ⟨goes.run_eq, hpc⟩
  · exact .inr ⟨_, _, ended⟩
  · exact .inr ⟨_, _, ended⟩

/-- A SYSTEM word halts where it is the halting word, and advances or faults where it is not. -/
theorem advancesOrFaults_or_halts_of_systemDoes (hop : w.extractLsb' 0 7 = 0x73#7) (h : SystemDoes s w t) :
    (¬ IsHaltWord w ∧ GoesOnOrFaults (· = s.pc + 4#32) s t) ∨ (IsHaltWord w ∧ EndsRun s t .halted []) := by
  have hother {f : BitVec 3} (hf : w.extractLsb' 12 3 = f) (hne : f ≠ 1#3) : ¬ IsHaltWord w :=
    fun ⟨⟨_, h1⟩, _⟩ => hne (hf.symm.trans h1)
  rcases h with ⟨hf, _, moved⟩ | ⟨hf, _, ended⟩ | ⟨hf, hcsr, ended⟩ | ⟨hf, ended⟩ | ⟨_, hquiet, moved⟩
  · exact .inl ⟨hother hf (by decide), moved.advances⟩
  · exact .inl ⟨hother hf (by decide), .inr ⟨_, _, ended⟩⟩
  · exact .inr ⟨⟨⟨hop, hf⟩, hcsr⟩, ended⟩
  · exact .inl ⟨hother hf (by decide), .inr ⟨_, _, ended⟩⟩
  · exact .inl ⟨fun ⟨⟨_, hf⟩, hcsr⟩ => hquiet ⟨hf, hcsr⟩, moved.advances⟩

/-- A BRANCH word ends the run or goes on, taken or not (45_control_transfer.md R172, R179). -/
theorem goesOnOrFaults_of_branch {reserved taken : Prop} {f : Fatal} {target next : Word}
    (hreserved : reserved → EndsRun s t (.faulted f) [])
    (hcondition : ¬ reserved → (taken → OnlyMovesPc s t target []) ∧ (¬ taken → OnlyMovesPc s t next [])) :
    GoesOnOrFaults (fun pc => (taken → pc = target) ∧ (¬ taken → pc = next)) s t := by
  by_cases hr : reserved
  · exact .inr ⟨_, _, hreserved hr⟩
  · obtain ⟨htaken, hnot⟩ := hcondition hr
    refine .inl ⟨?_, fun ht => (htaken ht).pc_eq, fun ht => (hnot ht).pc_eq⟩
    by_cases ht : taken
    · exact (htaken ht).run_eq
    · exact (hnot ht).run_eq

theorem sequenced_of_wordDoes (h : WordDoes s w t) : Sequenced s w t := by
  rcases h with ⟨hop, _, wrote⟩ | ⟨hop, _, hpc, _, goes⟩ | ⟨hop, _, hpc, _, goes⟩ | ⟨hop, reserved, conditional⟩ |
    ⟨hop, loaded⟩ | ⟨hop, stored⟩ | ⟨hop, moved⟩ | ⟨hop, system⟩ | ⟨hop, ended⟩
  · have hne : ∀ o ∈ [0x37#7, 0x17#7, 0x13#7, 0x33#7], o ∉ [0x6F#7, 0x67#7, 0x63#7] ∧ o ≠ 0x73#7 := by decide
    exact sequenced_of_opcode (hne _ hop).2
      (goesOnOrFaults_of_advance (hne _ hop).1 (.inl ⟨wrote.run_eq, wrote.pc_eq⟩))
  · exact sequenced_of_opcode (by simp [hop]) (.inl ⟨goes.run_eq, hpc ▸ followsTable_jal hop⟩)
  · exact sequenced_of_opcode (by simp [hop]) (.inl ⟨goes.run_eq, hpc ▸ followsTable_jalr hop⟩)
  · exact sequenced_of_opcode (by simp [hop]) ((goesOnOrFaults_of_branch reserved conditional).imp_left
      (And.imp_right (followsTable_branch_iff hop _).mpr))
  · exact sequenced_of_opcode (by simp [hop])
      (goesOnOrFaults_of_advance (by simp [hop]) (advancesOrFaults_of_loadDoes loaded))
  · exact sequenced_of_opcode (by simp [hop])
      (goesOnOrFaults_of_advance (by simp [hop]) (advancesOrFaults_of_storeDoes stored))
  · exact sequenced_of_opcode (by simp [hop]) (goesOnOrFaults_of_advance (by simp [hop]) moved.advances)
  · exact (advancesOrFaults_or_halts_of_systemDoes hop system).imp_left
      fun ⟨hword, h⟩ => ⟨hword, goesOnOrFaults_of_advance (by simp [hop]) h⟩
  · exact sequenced_of_opcode (fun h73 => hop (by simp [h73])) (.inr ⟨_, _, ended⟩)
end

/-- Settles O26: the halting word leads to HALT, and where any other goes on or faults the run state is not HALTED. -/
theorem onlyCsrrwToTheHandshakeHalts : Obligations.OnlyCsrrwToTheHandshakeHalts := by
  intro s t w hfetch hstep
  obtain ⟨hrunning, hword⟩ := step_word hfetch hstep
  rcases sequenced_of_wordDoes hword with ⟨hother, hnext⟩ | ⟨hhalt, ended⟩
  · have hnot : t.run ≠ .halted := by
      rcases hnext with ⟨hrun, _⟩ | ⟨f, _, ended⟩
      · simp [hrun, hrunning]
      · simp [ended.run_eq]
    exact ⟨⟨fun h => absurd h hnot, fun h => absurd h hother⟩, fun h => absurd h hnot⟩
  · exact ⟨⟨fun _ => hhalt, fun _ => ended.run_eq⟩, fun _ => ended⟩

/-- Settles O29: a run that ends keeps the pc, and a run that goes on follows the table. -/
theorem pcFollowsTheSequencerTable : Obligations.PcFollowsTheSequencerTable := by
  intro s t w hfetch hstep
  obtain ⟨hrunning, hword⟩ := step_word hfetch hstep
  rcases sequenced_of_wordDoes hword with ⟨_, ⟨hrun, htable⟩ | ⟨f, _, ended⟩⟩ | ⟨_, ended⟩
  · rw [hrun, hrunning]
    exact ⟨fun ⟨_, h⟩ => (nomatch h), nofun, fun _ => htable⟩
  · rw [ended.run_eq]
    exact ⟨fun _ => ended.pc_eq, nofun, nofun⟩
  · rw [ended.run_eq]
    exact ⟨fun _ => ended.pc_eq, fun _ => ended.pc_eq, nofun⟩

/-! ## The driver's loop (R111) -/

/-- After every number of steps below k the report is CONTINUE. -/
def ContinuesBelow (k : Nat) (s : State) : Prop :=
  ∀ j, j < k → ∃ u : State, Host.Core.run core j s = .next u ∧ u.report = .continued

theorem continuesBelow_one {s : State} (hrun : s.run = .running) : ContinuesBelow 1 s := by
  intro j hj
  obtain rfl : j = 0 := by omega
  exact ⟨s, rfl, (report_continued_iff s).mpr hrun⟩

theorem ContinuesBelow.succ {s t : State} {k : Nat} (hrun : s.run = .running) (hstep : step s = .next t)
    (h : ContinuesBelow k t) : ContinuesBelow (k + 1) s := by
  intro j hj
  cases j with
  | zero => exact ⟨s, rfl, (report_continued_iff s).mpr hrun⟩
  | succ i =>
    rw [run_succ hstep]
    exact h i (Nat.lt_of_succ_lt_succ hj)

theorem report_ended {s : State} (h : s.report ≠ .continued) :
    s.report = .halted ∨ ∃ f, s.report = .fatal f := by
  cases hreport : s.report with
  | continued => exact absurd hreport h
  | halted => exact .inl rfl
  | fatal f => exact .inr ⟨f, rfl⟩

/-- Settles O33, by induction on the fuel: the driver stops at the first step's state, or does what it does from that
state, one step later. -/
theorem driverStopsAtHaltOrFatal : Obligations.DriverStopsAtHaltOrFatal := by
  intro fuel
  induction fuel with
  | zero => exact fun s hrun => .inr ⟨s, rfl, rfl, fun j hj => continuesBelow_one hrun j (Nat.lt_succ_of_le hj)⟩
  | succ fuel ih =>
    intro s hrun
    obtain ⟨t, hstep⟩ := step_answers hrun
    rw [drive_succ hstep]
    split_ifs with hreport
    · rcases ih t ((report_continued_iff t).mp hreport) with
        ⟨k, u, hk, hkfuel, hdrive, hreach, hended, hbefore⟩ | ⟨u, hdrive, hreach, hbefore⟩
      · exact .inl ⟨k + 1, u, by omega, by omega, hdrive, (run_succ hstep k).trans hreach, hended,
          ContinuesBelow.succ hrun hstep hbefore⟩
      · have hall : ContinuesBelow (fuel + 1) t := fun j hj => hbefore j (Nat.le_of_lt_succ hj)
        exact .inr ⟨u, hdrive, (run_succ hstep fuel).trans hreach,
          fun j hj => hall.succ hrun hstep j (Nat.lt_succ_of_le hj)⟩
    · exact .inl ⟨1, t, Nat.le_refl 1, by omega, rfl, run_succ hstep 0, report_ended hreport,
        continuesBelow_one hrun⟩

end Sys2Proof.Machine
end

section
/-! PROOFS about the upper-immediate instructions (42_upper_immediate.md): both write their result through `finish`, so
what is left is the field and the sum as numbers. -/

namespace Sys2Proof.Machine

/-! ## The field and the sum as numbers (R120 to R122) -/

theorem zext_shiftLeft {n : Nat} (v : BitVec n) (k : Nat) (h : n ≤ 32) :
    zext v h <<< k = BitVec.ofNat 32 (v.toNat * 2 ^ k) := by
  apply BitVec.eq_of_toNat_eq
  rw [BitVec.toNat_shiftLeft, zext, BitVec.toNat_ofNat, BitVec.toNat_ofNat, Nat.shiftLeft_eq, Nat.mod_mul_mod]

theorem add_ofNat_word (a : Word) (n : Nat) : a + BitVec.ofNat 32 n = BitVec.ofNat 32 (a.toNat + n) := by
  rw [BitVec.ofNat_add, BitVec.ofNat_toNat, BitVec.setWidth_eq]

theorem auipcOffset_raw (imm20 : BitVec 20) : auipcOffset .raw imm20 = BitVec.ofNat 32 imm20.toNat := rfl

theorem auipcOffset_shifted (imm20 : BitVec 20) :
    auipcOffset .shifted imm20 = BitVec.ofNat 32 (imm20.toNat * 2 ^ 12) :=
  zext_shiftLeft imm20 12 (by decide)

/-! ## The two instructions -/

/-- AUIPC writes its own address plus the offset of the machine's mode, which is the value n (R121, R122). -/
theorem execAuipc_spec {s : State} {imm20 : BitVec 20} {n : Nat} (rd : RegIdx)
    (hoffset : auipcOffset s.cfg.auipcMode imm20 = BitVec.ofNat 32 n) :
    ∃ t, exec (.auipc rd imm20) s = .next t ∧ WritesAndAdvances s t rd (BitVec.ofNat 32 (s.pc.toNat + n)) :=
  ⟨_, rfl, by rw [← add_ofNat_word, ← hoffset]; exact finish_spec ..⟩

/-- Settles O34: the class of the opcode decodes to LUI, and the shifted field is the field times 2^12. -/
theorem luiLoadsTheShiftedField : Obligations.LuiLoadsTheShiftedField := by
  refine ⟨fun w hop => decodeWord_of_class (c := .lui) hop, fun rd imm20 s => ⟨_, rfl, ?_⟩⟩
  rw [← zext_shiftLeft imm20 12 (by decide)]
  exact finish_spec ..

/-- Settles O35: the class of the opcode decodes to AUIPC, and each mode names the offset that is added. -/
theorem auipcAddsTheFieldToThePc : Obligations.AuipcAddsTheFieldToThePc := by
  refine ⟨fun w hop => decodeWord_of_class (c := .auipc) hop, fun rd imm20 s => ⟨?_, ?_⟩⟩
  · intro hraw
    exact execAuipc_spec rd (hraw ▸ auipcOffset_raw imm20)
  · intro hshifted
    exact execAuipc_spec rd (hshifted ▸ auipcOffset_shifted imm20)

end Sys2Proof.Machine
end

section
/-! PROOFS about the register-immediate instructions (43_alu_immediate.md) and the class rule they share with the
register-register ones (44_alu_register.md R150): every IMM and OP word writes one evaluated result through `finish`. What
is left per instruction is the evaluator's result on a sign-extended immediate, in numbers. -/

namespace Sys2Proof.Machine

/-! ## The decoded instruction of a word, from the encoding -/

/-- A word of the I layout decodes to the well-formed instruction that encodes to its fields. -/
theorem decodeWord_eq_of_encode_eq_encI {i : Instr} {w : Word} {c : OpClass} {funct3 : BitVec 3} (hwf : i.WellFormed)
    (henc : encode i = encI (w.extractLsb' 20 12) (w.extractLsb' 15 5) funct3 (w.extractLsb' 7 5) c)
    (h : HasFunct3 w c.opcode funct3) : decodeWord w = i := by
  obtain ⟨hop, rfl⟩ := h
  have hword : encode i = w := henc.trans (encI_fields hop)
  exact hword ▸ decodeOfEncodeIsTheInstruction i hwf

/-! ## The classes IMM and OP by funct3 (R130, R150, R161) -/

/-- An IMM word runs the evaluator operation of its funct3 on its whole immediate, the SRAI encoding included (R139). -/
theorem exec_decodeImm (w : Word) (s : State) :
    exec (decodeImm w) s = aluImmediate (AluOp.ofFunct3 (funct3Of w)) (rdOf w) (rs1Of w) (immIOf w) s := by
  unfold decodeImm
  generalize funct3Of w = f
  rcases funct3_cases f with rfl | rfl | rfl | rfl | rfl | rfl | rfl | rfl
  pick_goal 6 -- funct3 101
  · by_cases h7 : funct7Of w = 0b0100000#7
    · rw [if_pos h7, immIOf_split w h7]
      rfl
    · rw [if_neg h7]
      rfl
  all_goals rfl

/-- An OP word writes the difference where its row is SUB, and otherwise runs the evaluator operation of its funct3. -/
theorem exec_decodeOp (w : Word) (s : State) :
    exec (decodeOp w) s = .next (s.finish (rdOf w)
      (if funct3Of w = 0b000#3 ∧ funct7Of w = 0b0100000#7 then s.x (rs1Of w) - s.x (rs2Of w)
       else arith (AluOp.ofFunct3 (funct3Of w)) (s.x (rs1Of w)) (s.x (rs2Of w)))) := by
  unfold decodeOp
  generalize funct3Of w = f, funct7Of w = g
  by_cases h7 : g = 0b0100000#7
  · subst h7
    rcases funct3_cases f with rfl | rfl | rfl | rfl | rfl | rfl | rfl | rfl <;> rfl
  · simp only [h7, and_false, if_false]
    rcases funct3_cases f with rfl | rfl | rfl | rfl | rfl | rfl | rfl | rfl <;> rfl

/-- Settles O36: the class of the opcode names the decoder's branch, and the branch's meaning goes by funct3. -/
theorem aluClassesEvaluateByFunct3 : Obligations.AluClassesEvaluateByFunct3 := by
  refine fun w s => ⟨fun himm => ?_, fun hop => ?_⟩
  · rw [decodeWord_of_class (c := .imm) himm, decodeClass, exec_decodeImm]
    exact aluImmediate_spec ..
  · rw [decodeWord_of_class (c := .op) hop, decodeClass]
    exact ⟨_, exec_decodeOp w s, finish_spec ..⟩

/-! ## The evaluator's results in numbers (R86 to R91) -/

theorem add_signExtend_word {n : Nat} (x : Word) (v : BitVec n) :
    x + v.signExtend 32 = BitVec.ofInt 32 (x.toNat + v.toInt) := by
  rw [BitVec.ofInt_add, BitVec.ofInt_natCast, BitVec.ofNat_toNat, BitVec.setWidth_eq, BitVec.signExtend]

theorem truthWord_of_iff {b : Bool} {P : Prop} [Decidable P] (h : b = true ↔ P) :
    truthWord b = if P then 1#32 else 0#32 :=
  if_congr h rfl rfl

theorem shiftLeft_eq (x y : Word) :
    shiftLeft x y = if y.toNat < 32 then BitVec.ofNat 32 (x.toNat * 2 ^ y.toNat) else 0#32 := by
  rw [← Nat.shiftLeft_eq]
  rfl

theorem shiftRight_eq (x y : Word) :
    shiftRight x y = if y.toNat < 32 then BitVec.ofNat 32 (x.toNat / 2 ^ y.toNat) else 0#32 := by
  rw [← Nat.shiftRight_eq_div_pow, ← BitVec.toNat_ushiftRight, BitVec.ofNat_toNat, BitVec.setWidth_eq, shiftRight]

/-! ## A sign-extended immediate as an amount (R137 to R139) -/

theorem toNat_signExtend_immediate (imm : BitVec 12) :
    (imm.signExtend 32).toNat = if imm.toNat < 2 ^ 11 then imm.toNat else imm.toNat + (2 ^ 32 - 2 ^ 12) := by
  rw [BitVec.toNat_signExtend, BitVec.toNat_setWidth_of_le (by decide), BitVec.msb_eq_decide]
  simp only [decide_eq_true_eq]
  split_ifs <;> omega

/-- A result that is 0 for amounts of 32 or more reads the same amount off the immediate field: a negative immediate is
beyond 32 in both readings. -/
theorem ite_amount_signExtend (imm : BitVec 12) (result : Nat → Word) :
    (if (imm.signExtend 32).toNat < 32 then result (imm.signExtend 32).toNat else 0#32) =
      if imm.toNat < 32 then result imm.toNat else 0#32 := by
  rw [toNat_signExtend_immediate]
  by_cases hpos : imm.toNat < 2 ^ 11
  · rw [if_pos hpos]
  · rw [if_neg hpos, if_neg (by omega), if_neg (by omega)]

theorem shiftLeft_immediate (x : Word) (imm : BitVec 12) :
    shiftLeft x (imm.signExtend 32) =
      if imm.toNat < 32 then BitVec.ofNat 32 (x.toNat * 2 ^ imm.toNat) else 0#32 :=
  (shiftLeft_eq ..).trans (ite_amount_signExtend imm fun n => BitVec.ofNat 32 (x.toNat * 2 ^ n))

theorem shiftRight_immediate (x : Word) (imm : BitVec 12) :
    shiftRight x (imm.signExtend 32) =
      if imm.toNat < 32 then BitVec.ofNat 32 (x.toNat / 2 ^ imm.toNat) else 0#32 :=
  (shiftRight_eq ..).trans (ite_amount_signExtend imm fun n => BitVec.ofNat 32 (x.toNat / 2 ^ n))

theorem le_toNat_sraiImm (shamt : BitVec 5) : 32 ≤ (sraiImm shamt).toNat := by
  revert shamt; decide

/-! ## The nine instructions -/

/-- An instruction whose meaning is the class operation of IMM writes the evaluator's result (R130). -/
theorem exec_of_aluImmediate {i : Instr} {s : State} {rd rs1 : RegIdx} {imm : BitVec 12} {v : Word} (op : AluOp)
    (hexec : exec i s = aluImmediate op rd rs1 imm s) (hv : arith op (s.x rs1) (imm.signExtend 32) = v) :
    ∃ t, exec i s = .next t ∧ WritesAndAdvances s t rd v := by
  rw [hexec, ← hv]
  exact aluImmediate_spec ..

/-- Settles O37: the sign-extended immediate adds as the number it stands for. -/
theorem addiAddsTheImmediate : Obligations.AddiAddsTheImmediate :=
  ⟨fun _ => decodeWord_eq_of_encode_eq_encI (c := .imm) rfl rfl,
    fun _ _ _ _ => exec_of_aluImmediate .add rfl (add_signExtend_word ..)⟩

/-- Settles O38: sign extension keeps the number SLTI compares, and SLTIU compares the extended word itself. -/
theorem sltiAndSltiuCompareWithTheImmediate : Obligations.SltiAndSltiuCompareWithTheImmediate := by
  refine ⟨fun _ => decodeWord_eq_of_encode_eq_encI (c := .imm) rfl rfl,
    fun _ => decodeWord_eq_of_encode_eq_encI (c := .imm) rfl rfl, fun rd rs1 imm s => ⟨?slti, ?sltiu⟩⟩
  case slti =>
    refine exec_of_aluImmediate .slt rfl (truthWord_of_iff ?_)
    rw [signedLess_iff, BitVec.toInt_signExtend_of_le (by decide)]
  case sltiu => exact exec_of_aluImmediate .sltu rfl (truthWord_of_iff (unsignedLess_iff ..))

/-- Settles O39: the three evaluator operations are the word operations of their names. -/
theorem xoriOriAndiAreBitwise : Obligations.XoriOriAndiAreBitwise :=
  ⟨fun _ => decodeWord_eq_of_encode_eq_encI (c := .imm) rfl rfl,
    fun _ => decodeWord_eq_of_encode_eq_encI (c := .imm) rfl rfl,
    fun _ => decodeWord_eq_of_encode_eq_encI (c := .imm) rfl rfl,
    fun _ _ _ _ => ⟨exec_of_aluImmediate .xor rfl rfl, exec_of_aluImmediate .or rfl rfl,
      exec_of_aluImmediate .and rfl rfl⟩⟩

/-- Settles O40: SRLI is the row of funct3 101 that SRAI's funct7 does not take, and both shifts read their amount off the
immediate field. -/
theorem slliAndSrliShiftByTheWholeImmediate : Obligations.SlliAndSrliShiftByTheWholeImmediate := by
  refine ⟨fun _ => decodeWord_eq_of_encode_eq_encI (c := .imm) rfl rfl, fun w h h7 => ?srliRow,
    fun rd rs1 imm s => ⟨exec_of_aluImmediate .sll rfl (shiftLeft_immediate ..),
      exec_of_aluImmediate .srl rfl (shiftRight_immediate ..)⟩⟩
  case srliRow =>
    have hwf : (Instr.srli (w.extractLsb' 7 5) (w.extractLsb' 15 5) (w.extractLsb' 20 12)).WellFormed :=
      wellFormed_srli_iff.mpr (immIOf_funct7 w ▸ h7)
    exact decodeWord_eq_of_encode_eq_encI (c := .imm) hwf rfl h

/-- Settles O41: the SRAI encoding's immediate is 1024 + shamt, an amount beyond 32. -/
theorem sraiEncodingWritesZero : Obligations.SraiEncodingWritesZero := by
  refine ⟨fun w h h7 => decodeWord_eq_of_encode_eq_encI (c := .imm) rfl ?row h,
    fun rd rs1 shamt s => exec_of_aluImmediate .srl rfl ?zero⟩
  case row =>
    have himm : w.extractLsb' 20 12 = sraiImm (w.extractLsb' 20 5) := immIOf_split w h7
    rw [encode, himm]
  case zero => exact (shiftRight_immediate ..).trans (if_neg (le_toNat_sraiImm shamt).not_gt)

end Sys2Proof.Machine
end

section
/-! PROOFS about the register-register instructions (44_alu_register.md): SUB writes its difference and every other OP
instruction the evaluator's result on the two registers, so what is left is those words in numbers. -/

namespace Sys2Proof.Machine

/-! ## The decoded instruction of an OP word, from the encoding -/

/-- An OP word decodes to the well-formed instruction that encodes to its fields. -/
theorem decodeWord_eq_of_encode_eq_encR {i : Instr} {w : Word} {funct3 : BitVec 3} (hwf : i.WellFormed)
    (henc : encode i =
      encR (w.extractLsb' 25 7) (w.extractLsb' 20 5) (w.extractLsb' 15 5) funct3 (w.extractLsb' 7 5) .op)
    (h : HasFunct3 w 0b0110011#7 funct3) : decodeWord w = i := by
  obtain ⟨hop, rfl⟩ := h
  have hword : encode i = w := henc.trans (encR_fields (c := .op) hop)
  exact hword ▸ decodeOfEncodeIsTheInstruction i hwf

/-! ## The difference as a number (R152) -/

theorem sub_word (x y : Word) : x - y = BitVec.ofInt 32 (x.toNat - y.toNat) := by
  rw [BitVec.sub_eq_add_neg, Int.sub_eq_add_neg, BitVec.ofInt_add, BitVec.ofInt_neg, BitVec.ofInt_natCast,
    BitVec.ofInt_natCast, BitVec.ofNat_toNat, BitVec.ofNat_toNat, BitVec.setWidth_eq, BitVec.setWidth_eq]

/-! ## The ten instructions -/

/-- An instruction whose meaning is the class operation of OP writes the evaluator's result (R150). -/
theorem exec_of_aluRegister {i : Instr} {s : State} {rd rs1 rs2 : RegIdx} {v : Word} (op : AluOp)
    (hexec : exec i s = aluRegister op rd rs1 rs2 s) (hv : arith op (s.x rs1) (s.x rs2) = v) :
    ∃ t, exec i s = .next t ∧ WritesAndAdvances s t rd v := by
  rw [hexec, ← hv]
  exact aluRegister_spec ..

/-- Settles O42: ADD is the row of funct3 000 that SUB's funct7 does not take, and both results are the integer ones
reduced. -/
theorem addAndSubWrap : Obligations.AddAndSubWrap := by
  refine ⟨fun w h h7 => decodeWord_eq_of_encode_eq_encR (wellFormed_add_iff.mpr h7) rfl h,
    fun w h h7 => decodeWord_eq_of_encode_eq_encR rfl ?subRow h,
    fun funct7 rd rs1 rs2 s => ⟨exec_of_aluRegister .add rfl (BitVec.add_def ..), _, rfl, ?difference⟩⟩
  case subRow => rw [encode, h7]
  case difference =>
    rw [← sub_word]
    exact finish_spec ..

/-- Settles O43: SRL is the row of funct3 101 that SRA's funct7 does not take, and both run the logical right shift
(D5). -/
theorem registerShiftsUseTheWholeAmount : Obligations.RegisterShiftsUseTheWholeAmount := by
  refine ⟨fun w => decodeWord_eq_of_encode_eq_encR rfl rfl,
    fun w h h7 => decodeWord_eq_of_encode_eq_encR (wellFormed_srl_iff.mpr h7) rfl h,
    fun w h h7 => decodeWord_eq_of_encode_eq_encR rfl ?sraRow h,
    fun funct7 rd rs1 rs2 s => ⟨exec_of_aluRegister .sll rfl (shiftLeft_eq ..),
      exec_of_aluRegister .srl rfl (shiftRight_eq ..), exec_of_aluRegister .srl rfl (shiftRight_eq ..)⟩⟩
  case sraRow => rw [encode, h7]

/-- Settles O44: SLT compares the registers as signed numbers, SLTU as unsigned ones. -/
theorem sltAndSltuCompareRegisters : Obligations.SltAndSltuCompareRegisters :=
  ⟨fun _ => decodeWord_eq_of_encode_eq_encR rfl rfl, fun _ => decodeWord_eq_of_encode_eq_encR rfl rfl,
    fun _ _ _ _ _ => ⟨exec_of_aluRegister .slt rfl (truthWord_of_iff (signedLess_iff ..)),
      exec_of_aluRegister .sltu rfl (truthWord_of_iff (unsignedLess_iff ..))⟩⟩

/-- Settles O45: the three evaluator operations are the word operations of their names. -/
theorem xorOrAndAreBitwise : Obligations.XorOrAndAreBitwise :=
  ⟨fun _ => decodeWord_eq_of_encode_eq_encR rfl rfl, fun _ => decodeWord_eq_of_encode_eq_encR rfl rfl,
    fun _ => decodeWord_eq_of_encode_eq_encR rfl rfl,
    fun _ _ _ _ _ => ⟨exec_of_aluRegister .xor rfl rfl, exec_of_aluRegister .or rfl rfl,
      exec_of_aluRegister .and rfl rfl⟩⟩

end Sys2Proof.Machine
end

section
/-! PROOFS about the control-transfer instructions (45_control_transfer.md) and the words outside the implemented set
(30_encoding.md R66). A jump links and moves the pc to a sum, a branch goes by one condition on two words, and an
unsupported word raises its own encoding; each is a shared operation of the model whose lemma says what it does, so what
is left is the sum as a number, the condition as a comparison of numbers, and the word. -/

namespace Sys2Proof.Machine

/-! ## Jumps (R170, R171) -/

/-- An instruction that links and then transfers to a base plus its immediate puts the pc at the sum as numbers. -/
theorem exec_of_jump {i : Instr} {s : State} {rd : RegIdx} {base : Word} {n : Nat} {imm : BitVec n}
    {hn : 1 ≤ n ∧ n ≤ 32} (hexec : exec i s = .next ((s.setX rd s.linkValue).transfer (base + sext imm hn))) :
    ∃ t, exec i s = .next t ∧ WritesReg s t rd (s.pc + 4#32) ∧
      t.pc = BitVec.ofInt 32 (base.toNat + imm.toInt) ∧ KeepsMemory s t ∧ GoesOn s t [] := by
  refine ⟨_, hexec, ?_⟩
  rw [sext_eq, add_signExtend_word]
  exact link_spec ..

/-- Settles O46: the opcode's class decodes to JAL, and the base of the jump is the pc. -/
theorem jalLinksAndJumps : Obligations.JalLinksAndJumps :=
  ⟨fun _ hop => decodeWord_of_class (c := .jal) hop, fun _ _ _ => exec_of_jump rfl⟩

/-- Settles O47: the opcode's class decodes to JALR, and the base of the jump is x[rs1] before the link is written. -/
theorem jalrLinksAndJumpsToTheSum : Obligations.JalrLinksAndJumpsToTheSum :=
  ⟨fun _ hop => decodeWord_of_class (c := .jalr) hop, fun _ _ _ _ _ => exec_of_jump rfl⟩

/-! ## The conditions in numbers (R173 to R178) -/

theorem condEq_iff (a b : Word) : condEq a b = true ↔ a = b := beq_iff_eq

theorem condNe_iff (a b : Word) : condNe a b = true ↔ ¬ a = b := bne_iff_ne

theorem condLt_iff (a b : Word) : condLt a b = true ↔ a.toInt < b.toInt := signedLess_iff a b

theorem condGe_iff (a b : Word) : condGe a b = true ↔ b.toInt ≤ a.toInt := by
  rw [condGe, Bool.not_eq_true', ← Bool.not_eq_true, signedLess_iff, not_lt]

theorem condLtu_iff (a b : Word) : condLtu a b = true ↔ a.toNat < b.toNat := unsignedLess_iff a b

theorem condGeu_iff (a b : Word) : condGeu a b = true ↔ b.toNat ≤ a.toNat := by
  rw [condGeu, Bool.not_eq_true', ← Bool.not_eq_true, unsignedLess_iff, not_lt]

/-! ## Branches (R172) -/

/-- A BRANCH word decodes to the well-formed instruction that encodes to its fields. -/
theorem decodeWord_eq_of_encode_eq_encB {i : Instr} {w : Word} {funct3 : BitVec 3} (hwf : i.WellFormed)
    (henc : encode i = encB (bImmediate w) (w.extractLsb' 20 5) (w.extractLsb' 15 5) funct3 .branch)
    (h : HasFunct3 w 0b1100011#7 funct3) : decodeWord w = i := by
  obtain ⟨hop, rfl⟩ := h
  have hword : encode i = w := henc.trans (encB_fields (c := .branch) hop)
  exact hword ▸ decodeOfEncodeIsTheInstruction i hwf

theorem evenImm13_bImmediate (w : Word) : evenImm13 (bImmediate w) = true :=
  (evenImm13_iff _).mpr (immBOf_even w)

/-- An instruction whose meaning is the class operation of BRANCH moves the pc as its condition says. -/
theorem exec_of_branchOn {i : Instr} {s : State} {rs1 rs2 : RegIdx} {imm : BitVec 13} {pc : Word}
    (cond : Word → Word → Bool) (hexec : exec i s = branchOn cond rs1 rs2 imm s)
    (hpc : (if cond (s.x rs1) (s.x rs2) then s.pc + imm.signExtend 32 else s.pc + 4#32) = pc) :
    ∃ t, exec i s = .next t ∧ OnlyMovesPc s t pc [] := by
  rw [hexec, ← hpc]
  exact branchOn_spec ..

/-- Settles O48: each funct3 names the row that encodes to the word, and each row's condition is its comparison of
numbers. -/
theorem branchesTestTheirConditions : Obligations.BranchesTestTheirConditions := by
  refine ⟨fun w => decodeWord_eq_of_encode_eq_encB (evenImm13_bImmediate w) rfl,
    fun w => decodeWord_eq_of_encode_eq_encB (evenImm13_bImmediate w) rfl,
    fun w => decodeWord_eq_of_encode_eq_encB (evenImm13_bImmediate w) rfl,
    fun w => decodeWord_eq_of_encode_eq_encB (evenImm13_bImmediate w) rfl,
    fun w => decodeWord_eq_of_encode_eq_encB (evenImm13_bImmediate w) rfl,
    fun w => decodeWord_eq_of_encode_eq_encB (evenImm13_bImmediate w) rfl,
    fun rs1 rs2 imm s => ⟨?beq, ?bne, ?blt, ?bge, ?bltu, ?bgeu⟩⟩
  case beq => exact exec_of_branchOn condEq rfl (if_congr (condEq_iff ..) rfl rfl)
  case bne => exact exec_of_branchOn condNe rfl ((if_congr (condNe_iff ..) rfl rfl).trans (ite_not ..))
  case blt => exact exec_of_branchOn condLt rfl (if_congr (condLt_iff ..) rfl rfl)
  case bge => exact exec_of_branchOn condGe rfl (if_congr (condGe_iff ..) rfl rfl)
  case bltu => exact exec_of_branchOn condLtu rfl (if_congr (condLtu_iff ..) rfl rfl)
  case bgeu => exact exec_of_branchOn condGeu rfl (if_congr (condGeu_iff ..) rfl rfl)

/-! ## Unsupported words (R179, R229, R66, R251) -/

theorem diagnostic_of_faulted {s : State} {f : Fatal} (h : s.run = .faulted f) :
    s.diagnostic = some ⟨f, if f.dumps then some s.dump else none⟩ := by
  rw [State.diagnostic, h]

/-- Executing the instruction ends the run with UnsupportedEncoding of the word, and the diagnostic shows the register
file the step began with. -/
def EndsUnsupported (i : Instr) (s : State) (w : Word) : Prop :=
  ∃ t, exec i s = .next t ∧ EndsRun s t (.faulted (.unsupportedEncoding w)) [] ∧
    t.diagnostic = some ⟨.unsupportedEncoding w, some s.dump⟩

theorem endsUnsupported_of_exec {i : Instr} {s : State} {w : Word} (hexec : exec i s = unsupported w s) :
    EndsUnsupported i s w := by
  obtain ⟨t, hnext, hends⟩ := unsupported_spec w s
  refine ⟨t, hexec.trans hnext, hends, ?_⟩
  rw [← dump_of_endsRun hends]
  exact diagnostic_of_faulted hends.run_eq

/-- Where an instruction raises its own encoding, the word that decodes to it raises itself. -/
theorem endsUnsupported_of_decodeWord {i : Instr} {s : State} {w : Word} (hdec : decodeWord w = i)
    (hexec : exec i s = unsupported (encode i) s) : EndsUnsupported (decodeWord w) s w := by
  have hword : encode i = w := hdec ▸ (encodeOfDecodeIsTheWord w).2
  rw [hdec]
  exact endsUnsupported_of_exec (hword ▸ hexec)

/-- Settles O59: the two reserved rows and ILLEGAL raise the encoding of the instruction, and that of a decoded
instruction is its word. -/
theorem unsupportedWordsEndTheRun : Obligations.UnsupportedWordsEndTheRun := by
  refine fun w s => ⟨fun hop h3 => ?branch, fun h => ?system, fun hop => ?unenumerated,
    endsUnsupported_of_exec rfl, fun funct3 rs1 rs2 rd imm imm12 i hi => ?constructors⟩
  case branch =>
    have hwf : (Instr.branchReserved (w.extractLsb' 12 3) (w.extractLsb' 15 5) (w.extractLsb' 20 5)
        (bImmediate w)).WellFormed :=
      wellFormed_branchReserved_iff.mpr ⟨List.mem_pair.mp h3, immBOf_even w⟩
    have hdec := decodeWord_eq_of_encode_eq_encB hwf rfl ⟨hop, rfl⟩
    exact ⟨hdec, endsUnsupported_of_decodeWord hdec rfl⟩
  case system =>
    have hdec := decodeWord_eq_of_encode_eq_encI (i := .systemReserved _ _ _) (c := .system) rfl rfl h
    exact ⟨hdec, endsUnsupported_of_decodeWord hdec rfl⟩
  case unenumerated => exact decodeWord_of_none ((classify_none_iff _).mpr hop)
  case constructors => obtain rfl | rfl := List.mem_pair.mp hi <;> exact endsUnsupported_of_exec rfl

end Sys2Proof.Machine
end

section
/-! PROOFS about the load and store instructions (46_load_store.md). Each row but the two of no width is one of the
shared operations `load` and `store`, whose lemmas say everything they can do; the mode and the range check leave one
case of them. What remains is the loaded value and the stored bytes, in bytes of memory. -/

namespace Sys2Proof.Machine

/-! ## The decoded instruction of a LOAD or STORE word (R64) -/

theorem decodeLoad_mem (w : Word) :
    decodeLoad w ∈
      [.lb (rdOf w) (rs1Of w) (immIOf w), .lh (rdOf w) (rs1Of w) (immIOf w), .lw (rdOf w) (rs1Of w) (immIOf w),
       .lbu (rdOf w) (rs1Of w) (immIOf w), .lhu (rdOf w) (rs1Of w) (immIOf w),
       .loadOther (funct3Of w) (rdOf w) (rs1Of w) (immIOf w)] := by
  unfold decodeLoad
  split_ifs <;> simp

theorem decodeStore_mem (w : Word) :
    decodeStore w ∈
      [.sb (rs2Of w) (rs1Of w) (immSOf w), .sh (rs2Of w) (rs1Of w) (immSOf w), .sw (rs2Of w) (rs1Of w) (immSOf w),
       .storeOther (funct3Of w) (rs2Of w) (rs1Of w) (immSOf w)] := by
  unfold decodeStore
  split_ifs <;> simp

/-- A STORE word decodes to the well-formed instruction that encodes to its fields. -/
theorem decodeWord_eq_of_encode_eq_encS {i : Instr} {w : Word} {funct3 : BitVec 3} (hwf : i.WellFormed)
    (henc : encode i = encS (sImmediate w) (w.extractLsb' 20 5) (w.extractLsb' 15 5) funct3 .store)
    (h : HasFunct3 w 0b0100011#7 funct3) : decodeWord w = i := by
  obtain ⟨hop, rfl⟩ := h
  have hword : encode i = w := henc.trans (encS_fields (c := .store) hop)
  exact hword ▸ decodeOfEncodeIsTheInstruction i hwf

/-! ## Observe mode (R190, R191, R193) -/

section
variable {s : State} (hmode : s.cfg.loadStoreMode = .observe)
include hmode

/-- An observed load reports its address and advances, whatever its width. -/
theorem load_of_observe (n : Width) (extend : Width → Nat → Word) (rd rs1 : RegIdx) (imm : BitVec 12) :
    load n extend rd rs1 imm s = .next (s.emit (.load (s.x rs1 + imm.signExtend 32))).advance := by
  simp only [load, hmode, effectiveAddress_eq]

theorem execLoadOther_of_observe (funct3 : BitVec 3) (rd rs1 : RegIdx) (imm : BitVec 12) :
    execLoadOther funct3 rd rs1 imm s = .next (s.emit (.load (s.x rs1 + imm.signExtend 32))).advance := by
  simp only [execLoadOther, hmode, effectiveAddress_eq]

/-- An observed store reports its address and the whole register and advances, whatever its width. -/
theorem store_of_observe (n : Width) (rs2 rs1 : RegIdx) (imm : BitVec 12) :
    store n rs2 rs1 imm s = .next (s.emit (.store (s.x rs1 + imm.signExtend 32) (s.x rs2))).advance := by
  simp only [store, hmode, effectiveAddress_eq]

theorem execStoreOther_of_observe (funct3 : BitVec 3) (rs2 rs1 : RegIdx) (imm : BitVec 12) :
    execStoreOther funct3 rs2 rs1 imm s =
      .next (s.emit (.store (s.x rs1 + imm.signExtend 32) (s.x rs2))).advance := by
  simp only [execStoreOther, hmode, effectiveAddress_eq]

end

/-- An instruction that answers the state after one event and the default advance moves the pc alone. -/
theorem exec_of_emit_advance {i : Instr} {s : State} {e : TraceEvent} (hexec : exec i s = .next (s.emit e).advance) :
    ∃ t, exec i s = .next t ∧ OnlyMovesPc s t (s.pc + 4#32) [e] :=
  ⟨_, hexec, emit_advance_spec s e⟩

/-- Settles O49: the class of the opcode decodes to a LOAD row, and every row's meaning in observe mode is the event
and the advance. -/
theorem observedLoadOnlyReportsTheAddress : Obligations.ObservedLoadOnlyReportsTheAddress := by
  refine ⟨fun w hop => ?decode, fun funct3 rd rs1 imm s hmode => ?rows⟩
  case decode =>
    rw [decodeWord_of_class (c := .load) hop]
    exact decodeLoad_mem w
  case rows =>
    have observed := fun n extend => load_of_observe hmode n extend rd rs1 imm
    simp only [List.forall_mem_cons, List.not_mem_nil, false_imp_iff, implies_true, and_true]
    exact ⟨exec_of_emit_advance (observed .byte signExtended), exec_of_emit_advance (observed .half signExtended),
      exec_of_emit_advance (observed .word signExtended), exec_of_emit_advance (observed .byte zeroExtended),
      exec_of_emit_advance (observed .half zeroExtended),
      exec_of_emit_advance (execLoadOther_of_observe hmode funct3 rd rs1 imm)⟩

/-- Settles O50: the class of the opcode decodes to a STORE row, and every row's meaning in observe mode is the event
and the advance. -/
theorem observedStoreOnlyReportsAddressAndValue : Obligations.ObservedStoreOnlyReportsAddressAndValue := by
  refine ⟨fun w hop => ?decode, fun funct3 rs2 rs1 imm s hmode => ?rows⟩
  case decode =>
    rw [decodeWord_of_class (c := .store) hop]
    exact decodeStore_mem w
  case rows =>
    have observed := fun n => store_of_observe hmode n rs2 rs1 imm
    simp only [List.forall_mem_cons, List.not_mem_nil, false_imp_iff, implies_true, and_true]
    exact ⟨exec_of_emit_advance (observed .byte), exec_of_emit_advance (observed .half),
      exec_of_emit_advance (observed .word),
      exec_of_emit_advance (execStoreOther_of_observe hmode funct3 rs2 rs1 imm)⟩

/-! ## The value a load writes (R205 to R209) -/

/-- One byte read from memory, as the byte it stands for. -/
theorem ofNat_leValue_readBytes_one (m : Memory) (a : Nat) :
    BitVec.ofNat 8 (leValue (m.readBytes a 1)) = m.read a := by
  simp [Memory.readBytes, leValue]

/-- Two bytes read from memory, as the little-endian halfword they stand for (R34). -/
theorem ofNat_leValue_readBytes_two (m : Memory) (a : Nat) :
    BitVec.ofNat 16 (leValue (m.readBytes a 2)) =
      (m.read a).setWidth 16 ||| (m.read (a + 1)).setWidth 16 <<< 8 := by
  have hword : BitVec.ofNat 32 (leValue (m.readBytes a 2)) =
      (m.read a).setWidth 32 ||| (m.read (a + 1)).setWidth 32 <<< 8 := by
    simp only [Memory.readBytes, ofNat_leValue_cons]
    simp [leValue]
  rw [← BitVec.setWidth_ofNat_of_le (show 16 ≤ 32 by decide), hword, BitVec.setWidth_or,
    BitVec.setWidth_shiftLeft_of_le (by decide), BitVec.setWidth_setWidth_of_le _ (by decide),
    BitVec.setWidth_setWidth_of_le _ (by decide)]

/-! ## Perform mode, in range and out of range (R204) -/

theorem not_observe_of_perform {mode : LoadStoreMode} (h : mode = .perform) : ¬ mode = .observe := by
  rw [h]
  decide

section
variable {i : Instr} {s : State} {rd rs1 rs2 : RegIdx} {imm : BitVec 12} {ea : Word}
  (hmode : s.cfg.loadStoreMode = .perform) (hea : ea = s.x rs1 + imm.signExtend 32)
include hmode hea

/-- A performed load in range writes its extended value and advances. -/
theorem exec_of_load_inRange {v : Word} (n : Width) (extend : Width → Nat → Word)
    (hexec : exec i s = load n extend rd rs1 imm s)
    (hv : extend n (leValue (s.mem.readBytes ea.toNat n.bytes)) = v) (hin : InRange s.cfg ea n.bytes) :
    ∃ t, exec i s = .next t ∧ WritesReg s t rd v ∧ t.pc = s.pc + 4#32 ∧ KeepsMemory s t ∧ GoesOn s t [.load ea] := by
  obtain ⟨t, hnext, hloaded⟩ := load_spec n extend rd rs1 imm s
  rw [effectiveAddress_eq, ← hea, hv] at hloaded
  rcases hloaded with ⟨hobserve, -⟩ | ⟨-, -, hperformed⟩ | ⟨-, hout, -⟩
  · exact absurd hobserve (not_observe_of_perform hmode)
  · exact ⟨t, hexec.trans hnext, hperformed⟩
  · exact absurd hin hout

/-- A performed load out of range is fatal after its event. -/
theorem exec_of_load_outside (n : Width) (extend : Width → Nat → Word) (hexec : exec i s = load n extend rd rs1 imm s)
    (hout : ¬ InRange s.cfg ea n.bytes) :
    ∃ t, exec i s = .next t ∧ EndsRun s t (.faulted (.outOfBounds ea)) [.load ea] := by
  obtain ⟨t, hnext, hloaded⟩ := load_spec n extend rd rs1 imm s
  rw [effectiveAddress_eq, ← hea] at hloaded
  rcases hloaded with ⟨hobserve, -⟩ | ⟨-, hin, -⟩ | ⟨-, -, hended⟩
  · exact absurd hobserve (not_observe_of_perform hmode)
  · exact absurd hin hout
  · exact ⟨t, hexec.trans hnext, hended⟩

/-- A performed store in range puts the low bytes of the register at its address, and no other byte. -/
theorem exec_of_store_inRange (n : Width) (hexec : exec i s = store n rs2 rs1 imm s) (hwf : s.mem.wf = true)
    (hin : InRange s.cfg ea n.bytes) :
    ∃ t, exec i s = .next t ∧
      (∀ k, k < n.bytes → t.mem.read (ea.toNat + k) = (s.x rs2).extractLsb' (8 * k) 8) ∧
      KeepsMemoryOutside s t ea.toNat n.bytes ∧ KeepsRegs s t ∧ t.pc = s.pc + 4#32 ∧
      GoesOn s t [.store ea (s.x rs2)] := by
  obtain ⟨t, hnext, hstored⟩ := store_spec n rs2 rs1 imm s
  rw [effectiveAddress_eq, ← hea] at hstored
  rcases hstored with ⟨hobserve, -⟩ | ⟨-, -, hmem, hframe⟩ | ⟨-, hout, -⟩
  · exact absurd hobserve (not_observe_of_perform hmode)
  · refine ⟨t, hexec.trans hnext, fun k hk => ?_, fun b hb => ?_, hframe⟩ <;> rw [hmem]
    · rw [← length_take_leBytes n (s.x rs2)] at hk
      exact (Memory.read_writeBytes_inside _ hwf hk).trans (getElem_take_leBytes n _ hk)
    · rw [← length_take_leBytes n (s.x rs2)] at hb
      exact Memory.read_writeBytes_outside _ _ _ _ hwf hb
  · exact absurd hin hout

/-- A performed store out of range is fatal after its event. -/
theorem exec_of_store_outside (n : Width) (hexec : exec i s = store n rs2 rs1 imm s)
    (hout : ¬ InRange s.cfg ea n.bytes) :
    ∃ t, exec i s = .next t ∧ EndsRun s t (.faulted (.outOfBounds ea)) [.store ea (s.x rs2)] := by
  obtain ⟨t, hnext, hstored⟩ := store_spec n rs2 rs1 imm s
  rw [effectiveAddress_eq, ← hea] at hstored
  rcases hstored with ⟨hobserve, -⟩ | ⟨-, hin, -⟩ | ⟨-, -, hended⟩
  · exact absurd hobserve (not_observe_of_perform hmode)
  · exact absurd hin hout
  · exact ⟨t, hexec.trans hnext, hended⟩

end

/-! ## The eight accesses (R205 to R212) -/

/-- Settles O51: each funct3 names the row that encodes to the word, and the value a row writes is the extension of its
bytes; the word LW writes is the one read32 answers. -/
theorem performedLoadsExtendTheirBytes : Obligations.PerformedLoadsExtendTheirBytes := by
  refine ⟨fun w => decodeWord_eq_of_encode_eq_encI (c := .load) rfl rfl,
    fun w => decodeWord_eq_of_encode_eq_encI (c := .load) rfl rfl,
    fun w => decodeWord_eq_of_encode_eq_encI (c := .load) rfl rfl,
    fun w => decodeWord_eq_of_encode_eq_encI (c := .load) rfl rfl,
    fun w => decodeWord_eq_of_encode_eq_encI (c := .load) rfl rfl,
    fun rd rs1 imm s ea b h hmode hea hb hh => ⟨?bytes, ?halves, fun hin => ?word⟩⟩
  case bytes =>
    have hbyte : BitVec.ofNat 8 (leValue (s.mem.readBytes ea.toNat 1)) = b :=
      (ofNat_leValue_readBytes_one ..).trans hb.symm
    simp only [List.forall_mem_cons, List.not_mem_nil, false_imp_iff, implies_true, and_true]
    refine ⟨exec_of_load_inRange hmode hea .byte signExtended rfl ?_,
      exec_of_load_inRange hmode hea .byte zeroExtended rfl ?_⟩
    · rw [signExtended, sext_eq, Width.bytes, hbyte]
    · rw [zeroExtended, zext_eq, Width.bytes, hbyte]
  case halves =>
    have hhalf : BitVec.ofNat 16 (leValue (s.mem.readBytes ea.toNat 2)) = h := by
      rw [hh, hb]
      exact ofNat_leValue_readBytes_two ..
    simp only [List.forall_mem_cons, List.not_mem_nil, false_imp_iff, implies_true, and_true]
    refine ⟨exec_of_load_inRange hmode hea .half signExtended rfl ?_,
      exec_of_load_inRange hmode hea .half zeroExtended rfl ?_⟩
    · rw [signExtended, sext_eq, Width.bytes, hhalf]
    · rw [zeroExtended, zext_eq, Width.bytes, hhalf]
  case word =>
    obtain ⟨t, hnext, hperformed⟩ :=
      exec_of_load_inRange (i := .lw rd rs1 imm) hmode hea .word signExtended rfl rfl hin
    rcases read32_eq s ea with ⟨-, hread⟩ | ⟨hout, -⟩
    · exact ⟨t, _, hnext, hread, hperformed⟩
    · exact absurd hin hout

/-- Settles O52: each funct3 names the row that encodes to the word, and the rows are one store of three widths. -/
theorem performedStoresWriteTheLowBytes : Obligations.PerformedStoresWriteTheLowBytes := by
  refine ⟨fun w => decodeWord_eq_of_encode_eq_encS rfl rfl, fun w => decodeWord_eq_of_encode_eq_encS rfl rfl,
    fun w => decodeWord_eq_of_encode_eq_encS rfl rfl, fun rs2 rs1 imm s ea hwf hmode hea => ?_⟩
  simp only [List.forall_mem_cons, List.not_mem_nil, false_imp_iff, implies_true, and_true]
  exact ⟨exec_of_store_inRange hmode hea .byte rfl hwf, exec_of_store_inRange hmode hea .half rfl hwf,
    exec_of_store_inRange hmode hea .word rfl hwf⟩

/-- Settles O53: the five loads and the three stores fail the range check of their width. -/
theorem performedAccessOutOfRangeIsFatal : Obligations.PerformedAccessOutOfRangeIsFatal := by
  intro rd rs1 imm s ea hmode hea
  simp only [List.forall_mem_cons, List.not_mem_nil, false_imp_iff, implies_true, and_true]
  refine ⟨⟨?lb, ?lh, ?lw, ?lbu, ?lhu⟩, ?sb, ?sh, ?sw⟩
  case lb => exact exec_of_load_outside hmode hea .byte signExtended rfl
  case lh => exact exec_of_load_outside hmode hea .half signExtended rfl
  case lw => exact exec_of_load_outside hmode hea .word signExtended rfl
  case lbu => exact exec_of_load_outside hmode hea .byte zeroExtended rfl
  case lhu => exact exec_of_load_outside hmode hea .half zeroExtended rfl
  case sb => exact exec_of_store_outside hmode hea .byte rfl
  case sh => exact exec_of_store_outside hmode hea .half rfl
  case sw => exact exec_of_store_outside hmode hea .word rfl

/-! ## Words of no width (R213) -/

/-- Settles O54: of everything a LOAD or STORE word can do, perform mode and a funct3 of no width leave the fault on the
word. -/
theorem performedAccessOfNoWidthIsUnsupported : Obligations.PerformedAccessOfNoWidthIsUnsupported := by
  refine fun w s hmode => ⟨fun hop h3 => ?load, fun hop h3 => ?store⟩
  case load =>
    obtain ⟨t, hnext, hdoes⟩ := load_word s hop
    rcases hdoes with ⟨hobserve, -⟩ | ⟨-, -, -, -, hwidth, -⟩ | ⟨-, -, -, hwidth, -⟩ | ⟨-, -, hended⟩
    · exact absurd hobserve (not_observe_of_perform hmode)
    · exact absurd h3 hwidth
    · exact absurd h3 hwidth
    · exact ⟨t, hnext, hended⟩
  case store =>
    obtain ⟨t, hnext, hdoes⟩ := store_word s hop
    rcases hdoes with ⟨hobserve, -⟩ | ⟨-, -, -, hwidth, -⟩ | ⟨-, -, -, hwidth, -⟩ | ⟨-, -, hended⟩
    · exact absurd hobserve (not_observe_of_perform hmode)
    · exact absurd h3 hwidth
    · exact absurd h3 hwidth
    · exact ⟨t, hnext, hended⟩

end Sys2Proof.Machine
end

section
/-! PROOFS about MISC and SYSTEM (47_misc_system.md). Every row but CSRRW is one of two shared operations, `noEffect` and
`ecallCheck`, whose lemmas say everything they do; what is left is which words and rows run which of them. -/

namespace Sys2Proof.Machine

/-! ## The fence class (R220) -/

/-- Settles O55: both rows of the class run `noEffect`. -/
theorem fencesOnlyAdvance : Obligations.FencesOnlyAdvance := by
  refine ⟨fun w s hop => misc_word s hop, fun funct3 imm rs1 rd s i hi => ?_⟩
  obtain rfl | rfl := List.mem_pair.mp hi <;> exact noEffect_spec s

/-! ## ECALL and the words that run it (R222, R230) -/

/-- The rows of funct3 000 run the ECALL check, the four named words included (R230). -/
theorem exec_of_mem_ecallRows {i : Instr} {imm : BitVec 12} {rs1 rd : RegIdx} (s : State)
    (hi : i ∈ [Instr.ecall imm rs1 rd, .ebreak, .sret, .mret, .wfi]) : exec i s = ecallCheck s := by
  simp only [List.mem_cons, List.not_mem_nil, or_false] at hi
  obtain rfl | rfl | rfl | rfl | rfl := hi <;> rfl

theorem decodeEcall_mem (w : Word) :
    decodeEcall w ∈ [.ecall (immIOf w) (rs1Of w) (rdOf w), .ebreak, .sret, .mret, .wfi] := by
  unfold decodeEcall
  split_ifs <;> simp

/-- A SYSTEM word with funct3 000 runs the ECALL check (R230). -/
theorem exec_of_funct3_zero {w : Word} (s : State) (h : HasFunct3 w 0b1110011#7 0b000#3) :
    exec (decodeWord w) s = ecallCheck s := by
  obtain ⟨hop, hfunct3⟩ := h
  rw [decodeWord_of_class (c := .system) hop, decodeClass, decodeSystem, funct3Of_eq, if_pos hfunct3]
  exact exec_of_mem_ecallRows s (decodeEcall_mem w)

section
variable {i : Instr} {s : State} (hexec : exec i s = ecallCheck s)
include hexec

/-- An accepted code is reported and the run goes on (R222). -/
theorem exec_of_ecall_accepted (hcode : (s.x s.cfg.ecallReg).toNat ≤ 1) :
    ∃ t, exec i s = .next t ∧ OnlyMovesPc s t (s.pc + 4#32) [.ecall (s.x s.cfg.ecallReg)] := by
  obtain ⟨t, hnext, hcheck⟩ := ecallCheck_spec s
  rw [ecallLimit, if_neg (Nat.not_lt.mpr hcode)] at hcheck
  exact ⟨t, hexec.trans hnext, hcheck⟩

/-- A code above 1 is reported and ends the run (R244). -/
theorem exec_of_ecall_failing (hcode : 1 < (s.x s.cfg.ecallReg).toNat) :
    ∃ t, exec i s = .next t ∧
      EndsRun s t (.faulted (.conformanceFailure (s.x s.cfg.ecallReg))) [.ecall (s.x s.cfg.ecallReg)] := by
  obtain ⟨t, hnext, hcheck⟩ := ecallCheck_spec s
  rw [ecallLimit, if_pos hcode] at hcheck
  exact ⟨t, hexec.trans hnext, hcheck⟩

end

/-- Settles O56: words and rows of funct3 000 run one check, and the code decides it. -/
theorem ecallChecksTheCode : Obligations.EcallChecksTheCode := by
  rintro s _ rfl
  refine ⟨fun haccepted => ⟨fun w hw => ?_, fun imm rs1 rd i hi => ?_⟩,
    fun hfailing => ⟨fun w hw => ?_, fun imm rs1 rd i hi => ?_⟩⟩
  · exact exec_of_ecall_accepted (exec_of_funct3_zero s hw) haccepted
  · exact exec_of_ecall_accepted (exec_of_mem_ecallRows s hi) haccepted
  · exact exec_of_ecall_failing (exec_of_funct3_zero s hw) hfailing
  · exact exec_of_ecall_failing (exec_of_mem_ecallRows s hi) hfailing

/-! ## The CSR instructions (R223 to R228) -/

theorem eq_haltCsr_iff (csr : BitVec 12) : csr = haltCsr ↔ csr.toNat = 3072 := BitVec.toNat_inj.symm

/-- CSRRW halts for the handshake address and has no effect for any other (R223). -/
theorem execCsrrw_spec (rd : RegIdx) (csr : BitVec 12) (rs1 : RegIdx) (s : State) :
    ∃ t, execCsrrw rd csr rs1 s = .next t ∧
      (csr.toNat = 3072 → EndsRun s t .halted []) ∧ (csr.toNat ≠ 3072 → OnlyMovesPc s t (s.pc + 4#32) []) := by
  rw [execCsrrw]
  split_ifs with hcsr <;> rw [eq_haltCsr_iff] at hcsr
  · exact ⟨_, rfl, fun _ => halt_spec s, fun hne => absurd hcsr hne⟩
  · exact ⟨_, rfl, fun heq => absurd heq hcsr, fun _ => advance_spec s⟩

/-- Settles O57: each funct3 names the row that encodes to the word, and CSRRS and CSRRC run `noEffect`. -/
theorem registerCsrInstructionsHaltOrHaveNoEffect : Obligations.RegisterCsrInstructionsHaltOrHaveNoEffect := by
  refine ⟨fun w => decodeWord_eq_of_encode_eq_encI (c := .system) rfl rfl,
    fun w => decodeWord_eq_of_encode_eq_encI (c := .system) rfl rfl,
    fun w => decodeWord_eq_of_encode_eq_encI (c := .system) rfl rfl,
    fun rd rs1 csr s => ⟨execCsrrw_spec rd csr rs1 s, fun i hi => ?_⟩⟩
  obtain rfl | rfl := List.mem_pair.mp hi <;> exact noEffect_spec s

/-- Settles O58: each funct3 names the row that encodes to the word, and the three rows run `noEffect`. -/
theorem immediateCsrInstructionsHaveNoEffect : Obligations.ImmediateCsrInstructionsHaveNoEffect := by
  refine ⟨fun w => decodeWord_eq_of_encode_eq_encI (c := .system) rfl rfl,
    fun w => decodeWord_eq_of_encode_eq_encI (c := .system) rfl rfl,
    fun w => decodeWord_eq_of_encode_eq_encI (c := .system) rfl rfl, fun rd csr uimm s => ?_⟩
  simp only [List.forall_mem_cons, List.not_mem_nil, false_imp_iff, implies_true, and_true]
  exact ⟨noEffect_spec s, noEffect_spec s, noEffect_spec s⟩

end Sys2Proof.Machine
end

section
/-! PROOFS about RESET and the load phase (70_reset_and_hazards.md R270 to R274). What the loader's writes leave alone is
`loadSegments_frame`, so before the first step the registers are those of RESET but for the pc. -/

namespace Sys2Proof.Machine

/-! ## RESET (R270) -/

@[simp] theorem getReg_resetWith (c : Config) (i : Fin 33) : (State.resetWith c).getReg i = 0#32 := by
  simp [State.getReg, State.resetWith]

/-- Settles O5: RESET fills the register file with zeros and lists no byte. -/
theorem resetZeroesEverything : Obligations.ResetZeroesEverything :=
  ⟨fun c => ⟨getReg_resetWith c, fun _ => rfl, rfl⟩, rfl⟩

/-! ## From RESET to the first step (R272 to R274) -/

theorem getReg_of_regs_eq {s t : State} (h : t.regs = s.regs) (i : Fin 33) : t.getReg i = s.getReg i := by
  rw [State.getReg, State.getReg, h]

/-- SET_PC stores the word as it is (R273). -/
theorem loaderSetPc_eq (s : State) (v : Word) : s.loaderSetPc v = s.setPc v := by
  rw [State.loaderSetPc, State.setReg, BitVec.ofInt_natCast, BitVec.ofNat_toNat, BitVec.setWidth_eq, State.setPc]

theorem inv_setPc {s : State} (h : s.Inv) (v : Word) : (s.setPc v).Inv :=
  inv_of_storesAtMost h (cfg_setPc ..) (regs_zero_setPc ..) (.inl (mem_setPc ..))

/-- A load phase that succeeds ends with SET_PC(ENTRY_PC) (R274). -/
theorem boot_eq_ok {c : Config} {segments : List (List Byte × Word)} {s : State} (h : boot c segments = .ok s) :
    ∃ t, (State.resetWith c).loadSegments segments = .ok t ∧ s = t.setPc c.entryPc := by
  unfold boot at h
  split at h
  next t hload =>
    injection h with h
    exact ⟨t, hload, h ▸ loaderSetPc_eq ..⟩
  next => cases h

/-- Settles O6: the load phase touches memory alone, and SET_PC the pc alone. -/
theorem bootLeavesAFreshMachineAtTheEntry : Obligations.BootLeavesAFreshMachineAtTheEntry := by
  intro c segments s hc hboot
  obtain ⟨t, hload, rfl⟩ := boot_eq_ok hboot
  obtain ⟨hinv, hregs, hcfg, hrun⟩ := loadSegments_frame segments _ t hload (inv_resetWith c hc)
  have hx (r : RegIdx) : t.x r = 0#32 := (getReg_of_regs_eq hregs _).trans (getReg_resetWith ..)
  exact ⟨pc_setPc .., fun r => (x_setPc ..).trans (hx r), (run_setPc ..).trans hrun, (cfg_setPc ..).trans hcfg,
    inv_setPc hinv _⟩

end Sys2Proof.Machine
end

section
/-! PROOFS about the trace, the causes of a fatal condition and the dump (60_exceptions.md). `WordDoes` says what each
class of word does; the trace events and the fatal kinds are read off it, class by class. -/

namespace Sys2Proof.Machine

/-! ## The classes without an event and without a cause of their own (30_encoding.md R51) -/

/-- LUI, AUIPC, IMM, OP, JAL, JALR and MISC are none of LOAD, STORE and SYSTEM. -/
theorem quiet_class_not_mem_reporting :
    ∀ o ∈ [0x37#7, 0x17#7, 0x13#7, 0x33#7, 0x6F#7, 0x67#7, 0x0F#7], o ∉ [0x03#7, 0x23#7, 0x73#7] := by decide

/-- LOAD, STORE and SYSTEM are enumerated. -/
theorem reporting_class_mem_enumerated :
    ∀ o ∈ [0x03#7, 0x23#7, 0x73#7],
      o ∈ [0x37#7, 0x17#7, 0x6F#7, 0x67#7, 0x63#7, 0x03#7, 0x23#7, 0x13#7, 0x33#7, 0x0F#7, 0x73#7] := by decide

/-! ## The trace (R252) -/

section
variable {s t : State} {w : Word} {events : List TraceEvent}

theorem GoesOn.trace_eq (h : GoesOn s t events) : t.trace = s.trace ++ events := h.2.2

theorem OnlyMovesPc.trace_eq {pc : Word} (h : OnlyMovesPc s t pc events) : t.trace = s.trace ++ events :=
  h.2.2.2.trace_eq

theorem WritesAndAdvances.trace_eq {rd : RegIdx} {v : Word} (h : WritesAndAdvances s t rd v) :
    t.trace = s.trace ++ [] := h.2.2.2.trace_eq

theorem EndsRun.trace_eq {run : RunState} (h : EndsRun s t run events) : t.trace = s.trace ++ events := by
  obtain ⟨_, _, _, _, _, htrace⟩ := h
  exact htrace

theorem trace_of_loadDoes (h : LoadDoes s w t) : t.trace = s.trace ++ [.load (wordAddress s w)] := by
  rcases h with ⟨_, moved⟩ | ⟨_, _, _, _, _, _, _, _, _, goes⟩ | ⟨_, _, _, _, _, ended⟩ | ⟨_, _, ended⟩
  · exact moved.trace_eq
  · exact goes.trace_eq
  · exact ended.trace_eq
  · exact ended.trace_eq

theorem trace_of_storeDoes (h : StoreDoes s w t) :
    t.trace = s.trace ++ [.store (wordAddress s w) (s.x (w.extractLsb' 20 5))] := by
  rcases h with ⟨_, moved⟩ | ⟨_, _, _, _, _, _, _, _, goes⟩ | ⟨_, _, _, _, _, ended⟩ | ⟨_, _, ended⟩
  · exact moved.trace_eq
  · exact goes.trace_eq
  · exact ended.trace_eq
  · exact ended.trace_eq

/-- A SYSTEM word reports the code where it runs the ECALL check, accepted or not (47_misc_system.md R222). -/
theorem trace_of_systemDoes (h : SystemDoes s w t) :
    t.trace = s.trace ++ if w.extractLsb' 12 3 = 0#3 then [.ecall (s.x s.cfg.ecallReg)] else [] := by
  rcases h with ⟨hf, _, moved⟩ | ⟨hf, _, ended⟩ | ⟨hf, _, ended⟩ | ⟨hf, ended⟩ | ⟨hf, _, moved⟩
  · rw [if_pos hf, moved.trace_eq]
  · rw [if_pos hf, ended.trace_eq]
  · rw [if_neg (by simp [hf]), ended.trace_eq]
  · rw [if_neg (by simp [hf]), ended.trace_eq]
  · rw [if_neg fun hzero => hf (by simp [hzero]), moved.trace_eq]

/-- The events a word emits when it is executed (R252). -/
def wordEvents (s : State) (w : Word) : List TraceEvent :=
  if HasOpcode w 0b0000011#7 then [.load (wordAddress s w)]
  else if HasOpcode w 0b0100011#7 then [.store (wordAddress s w) (s.x (w.extractLsb' 20 5))]
  else if HasFunct3 w 0b1110011#7 0b000#3 then [.ecall (s.x s.cfg.ecallReg)] else []

theorem wordEvents_load (hop : w.extractLsb' 0 7 = 0x03#7) : wordEvents s w = [.load (wordAddress s w)] :=
  if_pos hop

theorem wordEvents_store (hop : w.extractLsb' 0 7 = 0x23#7) :
    wordEvents s w = [.store (wordAddress s w) (s.x (w.extractLsb' 20 5))] := by
  simp [wordEvents, HasOpcode, hop]

theorem wordEvents_system (hop : w.extractLsb' 0 7 = 0x73#7) :
    wordEvents s w = if w.extractLsb' 12 3 = 0#3 then [.ecall (s.x s.cfg.ecallReg)] else [] := by
  simp [wordEvents, HasFunct3, HasOpcode, hop]

/-- A word outside LOAD, STORE and SYSTEM emits nothing. -/
theorem wordEvents_eq_nil (hop : w.extractLsb' 0 7 ∉ [0x03#7, 0x23#7, 0x73#7]) : wordEvents s w = [] := by
  obtain ⟨hload, hstore, hsystem⟩ : w.extractLsb' 0 7 ≠ 0x03#7 ∧ w.extractLsb' 0 7 ≠ 0x23#7 ∧
      w.extractLsb' 0 7 ≠ 0x73#7 := by simpa using hop
  simp [wordEvents, HasOpcode, hload, hstore, hsystem]

theorem trace_of_wordDoes (h : WordDoes s w t) : t.trace = s.trace ++ wordEvents s w := by
  rcases h with ⟨hop, _, wrote⟩ | ⟨hop, _, _, _, goes⟩ | ⟨hop, _, _, _, goes⟩ | ⟨hop, reserved, conditional⟩ |
    ⟨hop, loaded⟩ | ⟨hop, stored⟩ | ⟨hop, moved⟩ | ⟨hop, system⟩ | ⟨hop, ended⟩
  · have hquiet := List.mem_append_left [0x6F#7, 0x67#7, 0x0F#7] hop
    rw [wordEvents_eq_nil (quiet_class_not_mem_reporting _ hquiet), wrote.trace_eq]
  · rw [wordEvents_eq_nil (by simp [hop]), goes.trace_eq]
  · rw [wordEvents_eq_nil (by simp [hop]), goes.trace_eq]
  · rw [wordEvents_eq_nil (by simp [hop])]
    rcases endsRun_or_onlyMovesPc_of_branch reserved conditional with ended | ⟨_, moved⟩
    · exact ended.trace_eq
    · exact moved.trace_eq
  · rw [wordEvents_load hop, trace_of_loadDoes loaded]
  · rw [wordEvents_store hop, trace_of_storeDoes stored]
  · rw [wordEvents_eq_nil (by simp [hop]), moved.trace_eq]
  · rw [wordEvents_system hop, trace_of_systemDoes system]
  · rw [wordEvents_eq_nil (mt (reporting_class_mem_enumerated _) hop), ended.trace_eq]

end

/-- Settles O32: a step appends the events of its word. -/
theorem traceEventsAreOnePerOccurrence : Obligations.TraceEventsAreOnePerOccurrence :=
  fun _ _ _ hfetch hstep => trace_of_wordDoes (step_word hfetch hstep).2

/-! ## The causes of a fatal condition (R240) -/

/-- The fetched word causes this fatal condition: the rows of the spec's table but the failing fetch (R240). -/
def FatalCause (s : State) (w : Word) (f : Fatal) : Prop :=
  (f = .unsupportedEncoding w ∧ UnsupportedWord s.cfg.loadStoreMode w) ∨
    (s.cfg.loadStoreMode = .perform ∧ f = .outOfBounds (wordAddress s w) ∧
      ∃ n, AccessBytes w n ∧ ¬ InRange s.cfg (wordAddress s w) n) ∨
    (f = .conformanceFailure (s.x s.cfg.ecallReg) ∧ 1 < (s.x s.cfg.ecallReg).toNat ∧
      HasFunct3 w 0b1110011#7 0b000#3)

/-- The state after the word is FAULTED with exactly the fatal conditions the word causes. -/
def FaultsAsCaused (s : State) (w : Word) (t : State) : Prop := ∀ f, t.run = .faulted f ↔ FatalCause s w f

section
variable {s t : State} {w : Word}

theorem faultsAsCaused_of_no_cause {run : RunState} (h : t.run = run) (hrun : ∀ f, run ≠ .faulted f)
    (hcause : ∀ f, ¬ FatalCause s w f) : FaultsAsCaused s w t :=
  fun f => ⟨fun hfault => absurd (h.symm.trans hfault) (hrun f), fun hf => absurd hf (hcause f)⟩

theorem faultsAsCaused_of_run_eq (hrun : s.run = .running) (h : t.run = s.run) (hcause : ∀ f, ¬ FatalCause s w f) :
    FaultsAsCaused s w t :=
  faultsAsCaused_of_no_cause (h.trans hrun) nofun hcause

theorem faultsAsCaused_of_endsRun {f : Fatal} {events : List TraceEvent} (h : EndsRun s t (.faulted f) events)
    (hcause : ∀ g, FatalCause s w g ↔ g = f) : FaultsAsCaused s w t := fun g => by
  rw [h.run_eq, hcause, RunState.faulted.injEq, eq_comm]

/-! ### The causes, class by class -/

/-- A word outside LOAD, STORE and SYSTEM can only be unsupported. -/
theorem fatalCause_iff_of_opcode (hop : w.extractLsb' 0 7 ∉ [0x03#7, 0x23#7, 0x73#7]) (f : Fatal) :
    FatalCause s w f ↔ f = .unsupportedEncoding w ∧ UnsupportedWord s.cfg.loadStoreMode w := by
  obtain ⟨hload, hstore, hsystem⟩ : w.extractLsb' 0 7 ≠ 0x03#7 ∧ w.extractLsb' 0 7 ≠ 0x23#7 ∧
      w.extractLsb' 0 7 ≠ 0x73#7 := by simpa using hop
  simp [FatalCause, AccessBytes, HasOpcode, hload, hstore, hsystem]

/-- The words that can neither fault nor stop: LUI, AUIPC, IMM, OP, JAL, JALR and MISC. -/
theorem not_fatalCause_of_opcode
    (hop : w.extractLsb' 0 7 ∈ [0x37#7, 0x17#7, 0x13#7, 0x33#7, 0x6F#7, 0x67#7, 0x0F#7]) (f : Fatal) :
    ¬ FatalCause s w f := by
  rw [fatalCause_iff_of_opcode (quiet_class_not_mem_reporting _ hop)]
  exact fun h => not_unsupportedWord_of_opcode hop h.2

theorem fatalCause_system_iff (hop : w.extractLsb' 0 7 = 0x73#7) (f : Fatal) :
    FatalCause s w f ↔
      (f = .unsupportedEncoding w ∧ w.extractLsb' 12 3 = 4#3) ∨
      (f = .conformanceFailure (s.x s.cfg.ecallReg) ∧ 1 < (s.x s.cfg.ecallReg).toNat ∧ w.extractLsb' 12 3 = 0#3) := by
  simp [FatalCause, unsupportedWord_system_iff hop, AccessBytes, HasFunct3, HasOpcode, hop]

/-- The causes of a word that accesses memory, given which funct3 values name no width (46_load_store.md R204, R213). -/
def AccessCause (noWidth : List (BitVec 3)) (s : State) (w : Word) (f : Fatal) : Prop :=
  s.cfg.loadStoreMode = .perform ∧
    ((f = .unsupportedEncoding w ∧ w.extractLsb' 12 3 ∈ noWidth) ∨
      (f = .outOfBounds (wordAddress s w) ∧ ∃ n, AccessBytes w n ∧ ¬ InRange s.cfg (wordAddress s w) n))

theorem fatalCause_load_iff (hop : w.extractLsb' 0 7 = 0x03#7) (f : Fatal) :
    FatalCause s w f ↔ AccessCause [3#3, 6#3, 7#3] s w f := by
  rw [FatalCause, unsupportedWord_load_iff hop, AccessCause, HasFunct3, HasOpcode, hop]
  simp only [show ¬ (0x03#7 = 0x73#7) by decide, false_and, and_false, or_false]
  rw [and_or_left, and_left_comm]

theorem fatalCause_store_iff (hop : w.extractLsb' 0 7 = 0x23#7) (f : Fatal) :
    FatalCause s w f ↔ AccessCause [3#3, 4#3, 5#3, 6#3, 7#3] s w f := by
  rw [FatalCause, unsupportedWord_store_iff hop, AccessCause, HasFunct3, HasOpcode, hop]
  simp only [show ¬ (0x23#7 = 0x73#7) by decide, false_and, and_false, or_false]
  rw [and_or_left, and_left_comm]

/-! ### What a memory access does agrees with its causes -/

section
variable {noWidth : List (BitVec 3)} (hcause : ∀ f, FatalCause s w f ↔ AccessCause noWidth s w f)
include hcause

theorem not_fatalCause_of_observe (hmode : s.cfg.loadStoreMode = .observe) (f : Fatal) : ¬ FatalCause s w f := by
  rw [hcause]
  exact fun h => not_observe_of_perform h.1 hmode

/-- An access of a named width has at most one cause, that its bytes are not all in range. -/
theorem fatalCause_iff_of_width {n : Width} (hmode : s.cfg.loadStoreMode = .perform) (hn : NamesWidth w n)
    (hfunct3 : w.extractLsb' 12 3 ∉ noWidth) (f : Fatal) :
    FatalCause s w f ↔ f = .outOfBounds (wordAddress s w) ∧ ¬ InRange s.cfg (wordAddress s w) n.bytes := by
  have hbytes : ∀ k, AccessBytes w k ↔ k = n.bytes := hn
  simp only [hcause, AccessCause, hmode, hfunct3, hbytes, true_and, and_false, false_or, exists_eq_left]

theorem faultsAsCaused_of_inRange {n : Width} (hrun : s.run = .running) (h : t.run = s.run)
    (hmode : s.cfg.loadStoreMode = .perform) (hn : NamesWidth w n) (hfunct3 : w.extractLsb' 12 3 ∉ noWidth)
    (hin : InRange s.cfg (wordAddress s w) n.bytes) : FaultsAsCaused s w t := by
  refine faultsAsCaused_of_run_eq hrun h fun f hf => ?_
  rw [fatalCause_iff_of_width hcause hmode hn hfunct3] at hf
  exact hf.2 hin

theorem faultsAsCaused_of_outside {n : Width} {events : List TraceEvent}
    (h : EndsRun s t (.faulted (.outOfBounds (wordAddress s w))) events) (hmode : s.cfg.loadStoreMode = .perform)
    (hn : NamesWidth w n) (hfunct3 : w.extractLsb' 12 3 ∉ noWidth)
    (hout : ¬ InRange s.cfg (wordAddress s w) n.bytes) : FaultsAsCaused s w t := by
  refine faultsAsCaused_of_endsRun h fun f => ?_
  rw [fatalCause_iff_of_width hcause hmode hn hfunct3]
  exact and_iff_left hout

/-- An access of no width is unsupported and nothing else. -/
theorem faultsAsCaused_of_noWidth {events : List TraceEvent}
    (h : EndsRun s t (.faulted (.unsupportedEncoding w)) events) (hmode : s.cfg.loadStoreMode = .perform)
    (hfunct3 : w.extractLsb' 12 3 ∈ noWidth) (hnone : ∀ n, ¬ AccessBytes w n) : FaultsAsCaused s w t := by
  refine faultsAsCaused_of_endsRun h fun f => ?_
  simp only [hcause, AccessCause, hmode, hfunct3, hnone, true_and, and_true, false_and, exists_false, and_false,
    or_false]

end

theorem not_accessBytes_of_load (hop : w.extractLsb' 0 7 = 0x03#7) (h : w.extractLsb' 12 3 ∈ [3#3, 6#3, 7#3])
    (n : Nat) : ¬ AccessBytes w n := by
  simp only [List.mem_cons, List.not_mem_nil, or_false] at h
  rcases h with h | h | h <;> simp [AccessBytes, HasOpcode, hop, h]

theorem not_accessBytes_of_store (hop : w.extractLsb' 0 7 = 0x23#7)
    (h : w.extractLsb' 12 3 ∈ [3#3, 4#3, 5#3, 6#3, 7#3]) (n : Nat) : ¬ AccessBytes w n := by
  simp only [List.mem_cons, List.not_mem_nil, or_false] at h
  rcases h with h | h | h | h | h <;> simp [AccessBytes, HasOpcode, hop, h]

/-! ### Every class agrees with its causes -/

theorem faultsAsCaused_of_loadDoes (hrun : s.run = .running) (hop : w.extractLsb' 0 7 = 0x03#7)
    (h : LoadDoes s w t) : FaultsAsCaused s w t := by
  have hcause := fatalCause_load_iff (s := s) hop
  rcases h with ⟨hmode, moved⟩ | ⟨hmode, n, _, hn, hwidth, hin, _, _, _, goes⟩ |
    ⟨hmode, n, hn, hwidth, hout, ended⟩ | ⟨hmode, hwidth, ended⟩
  · exact faultsAsCaused_of_run_eq hrun moved.run_eq (not_fatalCause_of_observe hcause hmode)
  · exact faultsAsCaused_of_inRange hcause hrun goes.run_eq hmode hn hwidth hin
  · exact faultsAsCaused_of_outside hcause ended hmode hn hwidth hout
  · exact faultsAsCaused_of_noWidth hcause ended hmode hwidth (not_accessBytes_of_load hop hwidth)

theorem faultsAsCaused_of_storeDoes (hrun : s.run = .running) (hop : w.extractLsb' 0 7 = 0x23#7)
    (h : StoreDoes s w t) : FaultsAsCaused s w t := by
  have hcause := fatalCause_store_iff (s := s) hop
  rcases h with ⟨hmode, moved⟩ | ⟨hmode, n, hn, hwidth, hin, _, _, _, goes⟩ |
    ⟨hmode, n, hn, hwidth, hout, ended⟩ | ⟨hmode, hwidth, ended⟩
  · exact faultsAsCaused_of_run_eq hrun moved.run_eq (not_fatalCause_of_observe hcause hmode)
  · exact faultsAsCaused_of_inRange hcause hrun goes.run_eq hmode hn hwidth hin
  · exact faultsAsCaused_of_outside hcause ended hmode hn hwidth hout
  · exact faultsAsCaused_of_noWidth hcause ended hmode hwidth (not_accessBytes_of_store hop hwidth)

theorem faultsAsCaused_of_systemDoes (hrun : s.run = .running) (hop : w.extractLsb' 0 7 = 0x73#7)
    (h : SystemDoes s w t) : FaultsAsCaused s w t := by
  have hcause := fatalCause_system_iff (s := s) hop
  rcases h with ⟨hf, haccepted, moved⟩ | ⟨hf, hfailing, ended⟩ | ⟨hf, _, ended⟩ | ⟨hf, ended⟩ | ⟨hf, _, moved⟩
  · exact faultsAsCaused_of_run_eq hrun moved.run_eq (by simp [hcause, hf, Nat.not_lt.mpr haccepted])
  · exact faultsAsCaused_of_endsRun ended (by simp [hcause, hf, hfailing])
  · exact faultsAsCaused_of_no_cause ended.run_eq nofun (by simp [hcause, hf])
  · exact faultsAsCaused_of_endsRun ended (by simp [hcause, hf])
  · obtain ⟨hzero, hfour⟩ : w.extractLsb' 12 3 ≠ 0#3 ∧ w.extractLsb' 12 3 ≠ 4#3 := by simpa using hf
    exact faultsAsCaused_of_run_eq hrun moved.run_eq (by simp [hcause, hzero, hfour])

/-- A word outside LOAD, STORE and SYSTEM that is in the list of R66 has that one cause. -/
theorem faultsAsCaused_of_unsupported {events : List TraceEvent} (hop : w.extractLsb' 0 7 ∉ [0x03#7, 0x23#7, 0x73#7])
    (hlist : UnsupportedWord s.cfg.loadStoreMode w) (h : EndsRun s t (.faulted (.unsupportedEncoding w)) events) :
    FaultsAsCaused s w t := by
  refine faultsAsCaused_of_endsRun h fun f => ?_
  rw [fatalCause_iff_of_opcode hop]
  exact and_iff_left hlist

/-- A BRANCH word faults where its funct3 is reserved, and goes on, taken or not, where it is not. -/
theorem faultsAsCaused_of_branch {taken : Prop} {target next : Word} (hrun : s.run = .running)
    (hop : w.extractLsb' 0 7 = 0x63#7)
    (hreserved : w.extractLsb' 12 3 ∈ [2#3, 3#3] → EndsRun s t (.faulted (.unsupportedEncoding w)) [])
    (hcondition : w.extractLsb' 12 3 ∉ [2#3, 3#3] →
      (taken → OnlyMovesPc s t target []) ∧ (¬ taken → OnlyMovesPc s t next [])) : FaultsAsCaused s w t := by
  have hlist := unsupportedWord_branch_iff (mode := s.cfg.loadStoreMode) hop
  have hother : w.extractLsb' 0 7 ∉ [0x03#7, 0x23#7, 0x73#7] := by simp [hop]
  by_cases hf : w.extractLsb' 12 3 ∈ [2#3, 3#3]
  · exact faultsAsCaused_of_unsupported hother (hlist.mpr hf) (hreserved hf)
  · have hcause (f : Fatal) : ¬ FatalCause s w f := by
      rw [fatalCause_iff_of_opcode hother, hlist]
      exact fun h => hf h.2
    by_cases ht : taken
    · exact faultsAsCaused_of_run_eq hrun ((hcondition hf).1 ht).run_eq hcause
    · exact faultsAsCaused_of_run_eq hrun ((hcondition hf).2 ht).run_eq hcause

theorem faultsAsCaused_of_wordDoes (hrun : s.run = .running) (h : WordDoes s w t) : FaultsAsCaused s w t := by
  rcases h with ⟨hop, _, wrote⟩ | ⟨hop, _, _, _, goes⟩ | ⟨hop, _, _, _, goes⟩ | ⟨hop, reserved, conditional⟩ |
    ⟨hop, loaded⟩ | ⟨hop, stored⟩ | ⟨hop, moved⟩ | ⟨hop, system⟩ | ⟨hop, ended⟩
  · exact faultsAsCaused_of_run_eq hrun wrote.run_eq
      (not_fatalCause_of_opcode (List.mem_append_left [0x6F#7, 0x67#7, 0x0F#7] hop))
  · exact faultsAsCaused_of_run_eq hrun goes.run_eq (not_fatalCause_of_opcode (by simp [hop]))
  · exact faultsAsCaused_of_run_eq hrun goes.run_eq (not_fatalCause_of_opcode (by simp [hop]))
  · exact faultsAsCaused_of_branch hrun hop reserved conditional
  · exact faultsAsCaused_of_loadDoes hrun hop loaded
  · exact faultsAsCaused_of_storeDoes hrun hop stored
  · exact faultsAsCaused_of_run_eq hrun moved.run_eq (not_fatalCause_of_opcode (by simp [hop]))
  · exact faultsAsCaused_of_systemDoes hrun hop system
  · exact faultsAsCaused_of_unsupported (mt (reporting_class_mem_enumerated _) hop) (.inl hop) ended

end

/-- Settles O28: a failing fetch has the one cause, and a fetched word faults exactly as its causes say. -/
theorem fatalKindsHaveTheirCauses : Obligations.FatalKindsHaveTheirCauses := by
  refine ⟨fun s t f hstep hfault => ?causes, fun s hrun =>
    ⟨fun hout => ⟨_, step_of_fetch_outside hrun hout, run_raise ..⟩, fun w hfetch => ?converse⟩⟩
  case causes =>
    obtain ⟨hrun, ⟨w, _, hfetch, _⟩ | ⟨hout, _, rfl⟩⟩ := step_cases hstep
    · exact .inr ⟨w, hfetch, (faultsAsCaused_of_wordDoes hrun (step_word hfetch hstep).2 f).mp hfault⟩
    · injection hfault with hf
      exact .inl ⟨hf.symm, hout⟩
  case converse =>
    obtain ⟨t, hstep⟩ := step_answers hrun
    have hfaults (f : Fatal) (hf : FatalCause s w f) : ∃ t, step s = .next t ∧ t.run = .faulted f :=
      ⟨t, hstep, (faultsAsCaused_of_wordDoes hrun (step_word hfetch hstep).2 f).mpr hf⟩
    exact ⟨fun hlist => hfaults _ (.inl ⟨rfl, hlist⟩),
      fun n hmode hn hout => hfaults _ (.inr (.inl ⟨hmode, rfl, n, hn, hout⟩)),
      fun hword hcode => hfaults _ (.inr (.inr ⟨rfl, hcode, hword⟩))⟩

end Sys2Proof.Machine
end

section
/-! PROOFS about the register dump and the diagnostics (60_exceptions.md R251, R253). The dump is the register file read
in index order, its lines are the named entries cut into pieces of eight, and the fatal kind decides who shows it. -/

namespace Sys2Proof.Machine

/-! ## The 33 values (R253) -/

@[simp] theorem length_dump (s : State) : s.dump.length = 33 := by simp [State.dump]

theorem getElem?_dump (s : State) (i : Fin 33) : s.dump[i.val]? = some (s.getReg i) := by
  simp [State.dump]

/-! ## Lines of eight (R253) -/

/-- A list cut into k pieces of n, put together again, is its first n * k elements. -/
theorem flatten_pieces {α : Type} (l : List α) (n k : Nat) :
    ((List.range k).map fun j => (l.drop (n * j)).take n).flatten = l.take (n * k) := by
  induction k with
  | zero => simp
  | succ k ih => simp [List.range_succ, ih, Nat.mul_succ, List.take_add]

/-- The entries the lines show, in order: each value's digits under its name. -/
def State.dumpEntries (s : State) : List (String × List (BitVec 4)) := registerNames.zip (s.dump.map hexDigits)

theorem dumpLines_eq (s : State) :
    s.dumpLines = (List.range 5).map fun k => (s.dumpEntries.drop (8 * k)).take 8 := rfl

theorem length_dumpEntries (s : State) : s.dumpEntries.length = 33 := by
  simp [State.dumpEntries, registerNames]

theorem map_length_dumpLines (s : State) : s.dumpLines.map List.length = [8, 8, 8, 8, 1] := by
  simp [dumpLines_eq, length_dumpEntries, List.range_succ]

/-- The five lines have room for all entries. -/
theorem flatten_dumpLines (s : State) : s.dumpLines.flatten = s.dumpEntries := by
  rw [dumpLines_eq, flatten_pieces, List.take_of_length_le (by rw [length_dumpEntries]; decide)]

/-! ## The digits of a value (R253) -/

/-- The eight digits, read as a number to base 16, spell the value. -/
theorem foldl_hexDigits (v : Word) : (hexDigits v).foldl (fun n d => 16 * n + d.toNat) 0 = v.toNat := by
  have hv := v.isLt
  simp only [hexDigits, extract, BitVec.extractLsb, List.foldl_cons, List.foldl_nil, BitVec.extractLsb'_toNat,
    Nat.shiftRight_eq_div_pow]
  omega

/-! ## The diagnostic (R251) -/

theorem diagnostic_eq_none {s : State} (h : s.run = .running ∨ s.run = .halted) : s.diagnostic = none := by
  rw [State.diagnostic]
  rcases h with h | h <;> rw [h]

/-- Settles O60: the dump and its lines entry by entry, the digits as numbers, the diagnostic by the run state. -/
theorem dumpShowsTheRegisterFile : Obligations.DumpShowsTheRegisterFile :=
  fun s => ⟨length_dump s, getElem?_dump s, getElem?_dump s pcIndex, map_length_dumpLines s, flatten_dumpLines s,
    fun v => ⟨rfl, foldl_hexDigits v⟩, fun _ => diagnostic_of_faulted, fun _ => diagnostic_of_faulted,
    fun _ => diagnostic_of_faulted, diagnostic_eq_none⟩

end Sys2Proof.Machine
end
